-- ==== Sys2Proof/Word.lean ====
section
/-! DEFINITION. The widths of 00_scope.md R9: `u8`, `u16`, `u32`, and the values that are not words. -/

namespace Sys2Proof

/-- A byte: every access to a byte space moves one (20_memory.md R32). -/
abbrev Byte := BitVec 8

/-- `u16`: a length or index register, or a raw sensor code. -/
abbrev Half := BitVec 16

/-- `u32`: RES, ARG, a CSR, a CRC-32 accumulator, a time in ms. -/
abbrev Word := BitVec 32

/-- The 7-bit bus address `bus_addr` (10_state.md R14). -/
abbrev BusAddr := BitVec 7

end Sys2Proof
end

