-- ==== Sys2Proof/Machine/Operands.lean ====
section
/-! DEFINITION. The operand forms of 30_encoding.md R56, the byte-order helpers of 20_memory.md R33 and the extension to RES.
No form sign-extends or scales. -/

namespace Sys2Proof.Machine

/-- Form `b8`: `b = ARG[7:0]` (30_encoding.md R56). -/
def operandB8 (arg : Word) : Byte := arg.extractLsb' 0 8

/-- Form `i16`: `i = ARG[15:0]` (30_encoding.md R56). -/
def operandI16 (arg : Word) : Half := arg.extractLsb' 0 16

/-- Form `w32`: `v = ARG[31:0]` (30_encoding.md R56). -/
def operandW32 (arg : Word) : Word := arg

/-- Form `csr`: `n = ARG[7:0]` (30_encoding.md R56). -/
def operandCsr (arg : Word) : Byte := arg.extractLsb' 0 8

/-- Form `t8`: `t = ARG[7:0]` (30_encoding.md R56). -/
def operandT8 (arg : Word) : Byte := arg.extractLsb' 0 8

/-- `zext32` of a byte (00_scope.md R9). -/
def zext8 (b : Byte) : Word := b.setWidth 32

/-- `zext32` of a 16-bit register (00_scope.md R9). -/
def zext16 (h : Half) : Word := h.setWidth 32

/-- `zext32` of a count or index of a ring. -/
def zextNat (n : Nat) : Word := BitVec.ofNat 32 n

/-- `le32(v)`: the four bytes of `v`, least significant first (00_scope.md R9, 20_memory.md R33). -/
def le32 (v : Word) : List Byte :=
  [v.extractLsb' 0 8, v.extractLsb' 8 8, v.extractLsb' 16 8, v.extractLsb' 24 8]

/-- `be16(b0, b1) = b0 << 8 | b1` (00_scope.md R9): the first bus byte is `s[15:8]` (20_memory.md R33). -/
def be16 (b0 b1 : Byte) : Half := b0 ++ b1

/-- `elapsed(newer, older) = (newer - older) mod 2^32` (00_scope.md R9). -/
def elapsed (newer older : Word) : Word := newer - older

end Sys2Proof.Machine
end

