-- ==== Sys2Proof/Syntax.lean ====
section
/-! DEFINITION. The instructions: one constructor per row of spec/opcode_table.json (30_encoding.md R57, R58), carrying the
operand its form names (R56). The two link-port operations are rows too: each is one handshake of its own port. -/

namespace Sys2Proof

inductive Instr where
  /-- NOP, op 0x00. -/
  | nop
  /-- CSR_RD, op 0x01, form `csr`. -/
  | csrRd (n : Byte)
  /-- RX_AVAIL, op 0x10. -/
  | rxAvail
  /-- RX_PEEK, op 0x11, form `i16`. -/
  | rxPeek (i : Half)
  /-- RX_POP, op 0x12. -/
  | rxPop
  /-- TX_FREE, op 0x20. -/
  | txFree
  /-- TX_PUSH, op 0x21, form `b8`. -/
  | txPush (b : Byte)
  /-- TX_COMMIT, op 0x22. -/
  | txCommit
  /-- CRC32_SEED, op 0x30, form `w32`. -/
  | crc32Seed (v : Word)
  /-- CRC32_PUT, op 0x31, form `b8`. -/
  | crc32Put (b : Byte)
  /-- CRC32_RD, op 0x32. -/
  | crc32Rd
  /-- CRC8_INIT, op 0x40. -/
  | crc8Init
  /-- CRC8_PUT, op 0x41, form `b8`. -/
  | crc8Put (b : Byte)
  /-- CRC8_RD, op 0x42. -/
  | crc8Rd
  /-- ENC_BEGIN, op 0x50. -/
  | encBegin
  /-- ENC_PUT, op 0x51, form `b8`. -/
  | encPut (b : Byte)
  /-- ENC_END, op 0x52. -/
  | encEnd
  /-- ENC_RD, op 0x53, form `i16`. -/
  | encRd (i : Half)
  /-- DEC_BEGIN, op 0x60. -/
  | decBegin
  /-- DEC_PUT, op 0x61, form `b8`. -/
  | decPut (x : Byte)
  /-- DEC_RD, op 0x62, form `i16`. -/
  | decRd (i : Half)
  /-- PAY_CLR, op 0x70. -/
  | payClr
  /-- PAY_PUT, op 0x71, form `b8`. -/
  | payPut (b : Byte)
  /-- PROTO_SEND, op 0x72, form `t8`. -/
  | protoSend (t : Byte)
  /-- PROTO_POLL, op 0x73. -/
  | protoPoll
  /-- SENS_STEP, op 0x80. -/
  | sensStep
  /-- LRX_PUSH: one byte offered on the link RX port. -/
  | lrxPush (b : Byte)
  /-- LTX_POP: one byte asked for on the link TX port. -/
  | ltxPop
  /-- ILLEGAL: any of the 230 reserved opcodes (30_encoding.md R58). -/
  | illegal (op : Byte)
deriving DecidableEq, Repr

end Sys2Proof
end

