-- ==== Sys2Proof/WellFormed.lean ====
section
/-! DEFINITION. Which terms of `Instr` stand for something a port can carry. An operand has exactly the width its form names
(30_encoding.md R56), so its type is its whole check; an ILLEGAL names a reserved opcode (R58). -/

namespace Sys2Proof

/-- The reserved opcodes, as 30_encoding.md R58 lists their nine ranges. -/
def reservedOp (op : Byte) : Bool :=
  (0x02#8 ≤ op && op ≤ 0x0F#8) || (0x13#8 ≤ op && op ≤ 0x1F#8) || (0x23#8 ≤ op && op ≤ 0x2F#8) ||
  (0x33#8 ≤ op && op ≤ 0x3F#8) || (0x43#8 ≤ op && op ≤ 0x4F#8) || (0x54#8 ≤ op && op ≤ 0x5F#8) ||
  (0x63#8 ≤ op && op ≤ 0x6F#8) || (0x74#8 ≤ op && op ≤ 0x7F#8) || (0x81#8 ≤ op)

/-- The one check an instruction term can fail: an ILLEGAL whose opcode is assigned to another row. -/
def Instr.wellFormed : Instr → Bool
  | .illegal op => reservedOp op
  | .nop => true
  | .csrRd _ => true
  | .rxAvail => true
  | .rxPeek _ => true
  | .rxPop => true
  | .txFree => true
  | .txPush _ => true
  | .txCommit => true
  | .crc32Seed _ => true
  | .crc32Put _ => true
  | .crc32Rd => true
  | .crc8Init => true
  | .crc8Put _ => true
  | .crc8Rd => true
  | .encBegin => true
  | .encPut _ => true
  | .encEnd => true
  | .encRd _ => true
  | .decBegin => true
  | .decPut _ => true
  | .decRd _ => true
  | .payClr => true
  | .payPut _ => true
  | .protoSend _ => true
  | .protoPoll => true
  | .sensStep => true
  | .lrxPush _ => true
  | .ltxPop => true

end Sys2Proof
end

