-- ==== Sys2Proof/Decode.lean ====
section
/-! DEFINITION. The decoder and the encoder (30_encoding.md R55 to R59). The machine takes its instructions from three ports
(10_state.md R14): a 40-bit command `op, ARG` on the command port, and one handshake on each link port. -/

namespace Sys2Proof

open Sys2Proof.Machine

/-- How many low bits of ARG the row's form names (30_encoding.md R56): the decoder reads no other. -/
def argBits : Instr → Nat
  | .nop => 0
  | .csrRd _ => 8
  | .rxAvail => 0
  | .rxPeek _ => 16
  | .rxPop => 0
  | .txFree => 0
  | .txPush _ => 8
  | .txCommit => 0
  | .crc32Seed _ => 32
  | .crc32Put _ => 8
  | .crc32Rd => 0
  | .crc8Init => 0
  | .crc8Put _ => 8
  | .crc8Rd => 0
  | .encBegin => 0
  | .encPut _ => 8
  | .encEnd => 0
  | .encRd _ => 16
  | .decBegin => 0
  | .decPut _ => 8
  | .decRd _ => 16
  | .payClr => 0
  | .payPut _ => 8
  | .protoSend _ => 8
  | .protoPoll => 0
  | .sensStep => 0
  | .lrxPush _ => 0
  | .ltxPop => 0
  | .illegal _ => 0

/-- What one port carries in one handshake (10_state.md R14). -/
inductive PortWord where
  /-- The command port: `cmd_op[7:0]`, `cmd_arg[31:0]`. -/
  | command (op : Byte) (arg : Word)
  /-- The link RX port: `rx_valid`, `rx_data[7:0]`. -/
  | linkRx (valid : Bool) (data : Byte)
  /-- The link TX port: `tx_pop`. -/
  | linkTx (pop : Bool)
deriving DecidableEq, Repr

/-- Why a port word, or a string of bytes, is no instruction. -/
inductive DecodeError where
  /-- `rx_valid = 0`: no byte is offered, so there is no LRX_PUSH (40_ring_fifo.md R68). -/
  | noByteOffered
  /-- `tx_pop = 0`: no byte is asked for, so there is no LTX_POP (40_ring_fifo.md R69). -/
  | noPop
  /-- Fewer or more than the 5 bytes of a 40-bit command (30_encoding.md R55). -/
  | notFortyBits
deriving DecidableEq, Repr

/-- Decoding a command, total on every opcode and every ARG (30_encoding.md R57, R59): the opcode alone selects the row, and
the row's form says which ARG bits are read. -/
def decodeCommand (op : Byte) (arg : Word) : Instr :=
  match op.toNat with
  | 0x00 => .nop
  | 0x01 => .csrRd (operandCsr arg)
  | 0x10 => .rxAvail
  | 0x11 => .rxPeek (operandI16 arg)
  | 0x12 => .rxPop
  | 0x20 => .txFree
  | 0x21 => .txPush (operandB8 arg)
  | 0x22 => .txCommit
  | 0x30 => .crc32Seed (operandW32 arg)
  | 0x31 => .crc32Put (operandB8 arg)
  | 0x32 => .crc32Rd
  | 0x40 => .crc8Init
  | 0x41 => .crc8Put (operandB8 arg)
  | 0x42 => .crc8Rd
  | 0x50 => .encBegin
  | 0x51 => .encPut (operandB8 arg)
  | 0x52 => .encEnd
  | 0x53 => .encRd (operandI16 arg)
  | 0x60 => .decBegin
  | 0x61 => .decPut (operandB8 arg)
  | 0x62 => .decRd (operandI16 arg)
  | 0x70 => .payClr
  | 0x71 => .payPut (operandB8 arg)
  | 0x72 => .protoSend (operandT8 arg)
  | 0x73 => .protoPoll
  | 0x80 => .sensStep
  | _ => .illegal op

/-- The instruction a port word stands for. -/
def decode : PortWord → Except DecodeError Instr
  | .command op arg => .ok (decodeCommand op arg)
  | .linkRx true data => .ok (.lrxPush data)
  | .linkRx false _ => .error .noByteOffered
  | .linkTx true => .ok .ltxPop
  | .linkTx false => .error .noPop

/-- A command written as five bytes in the order of the opcode table's bit numbers: the op byte, then ARG from its least
significant byte (DESIGN CHOICE, log 9: the command port itself is parallel and has no byte order, 20_memory.md R33). -/
def decodeBytes : List Byte → Except DecodeError Instr
  | [op, a0, a1, a2, a3] => decode (.command op (a3 ++ a2 ++ a1 ++ a0))
  | _ => .error .notFortyBits

/-- The port word of an instruction (30_encoding.md R55 to R57): the row's opcode, the operand at its place in ARG, and every
ARG bit the form does not name driven 0 (R56, R60). -/
def encode : Instr → PortWord
  | .nop => .command 0x00 0
  | .csrRd n => .command 0x01 (n.setWidth 32)
  | .rxAvail => .command 0x10 0
  | .rxPeek i => .command 0x11 (i.setWidth 32)
  | .rxPop => .command 0x12 0
  | .txFree => .command 0x20 0
  | .txPush b => .command 0x21 (b.setWidth 32)
  | .txCommit => .command 0x22 0
  | .crc32Seed v => .command 0x30 v
  | .crc32Put b => .command 0x31 (b.setWidth 32)
  | .crc32Rd => .command 0x32 0
  | .crc8Init => .command 0x40 0
  | .crc8Put b => .command 0x41 (b.setWidth 32)
  | .crc8Rd => .command 0x42 0
  | .encBegin => .command 0x50 0
  | .encPut b => .command 0x51 (b.setWidth 32)
  | .encEnd => .command 0x52 0
  | .encRd i => .command 0x53 (i.setWidth 32)
  | .decBegin => .command 0x60 0
  | .decPut x => .command 0x61 (x.setWidth 32)
  | .decRd i => .command 0x62 (i.setWidth 32)
  | .payClr => .command 0x70 0
  | .payPut b => .command 0x71 (b.setWidth 32)
  | .protoSend t => .command 0x72 (t.setWidth 32)
  | .protoPoll => .command 0x73 0
  | .sensStep => .command 0x80 0
  | .lrxPush b => .linkRx true b
  | .ltxPop => .linkTx true
  | .illegal op => .command op 0

/-- The opcode and ARG that the host's word `w` stands for: op in bits 7..0 (the table's `fixed` bits), ARG in bits 39..8, and
every bit from `nbits` on 0 (log 9). -/
def commandOfWord (nbits w : Nat) : Byte × Word :=
  let v := w % 2 ^ nbits
  (BitVec.ofNat 8 v, BitVec.ofNat 32 (v / 256))

/-- The five bytes that carry the command of `w`, first the op byte (log 9). -/
def bytesOfWord (nbits w : Nat) : List Byte :=
  (commandOfWord nbits w).1 :: le32 (commandOfWord nbits w).2

/-- What the decoder reads from the host's word for an opcode-table row. -/
def decodeTableWord (nbits w : Nat) : Option Instr :=
  match decodeBytes (bytesOfWord nbits w) with
  | .ok i => some i
  | .error _ => none

end Sys2Proof
end

