-- ==== Sys2Proof/Config.lean ====
section
/-! DEFINITION. The implementation parameters of 00_scope.md R7 and the constraints of R7 and R8. The spec says that the model
takes the parameters as arguments: a `Config` is a constant field of the state (log 3). -/

namespace Sys2Proof

/-- The parameters of 00_scope.md R7, in the table's order; the fixed ones are the constants below. -/
structure Config where
  /-- `K_RX`: index width of the RX ring. -/
  kRx : Nat
  /-- `K_TX`: index width of the TX ring. -/
  kTx : Nat
  /-- `SYNC_STAGES`: flip-flops per crossing; timing only, no rule depends on it (log 6). -/
  syncStages : Nat
  /-- `ITF_PACKET_BUF_SIZE`: the default of the four sizes below. -/
  itfPacketBufSize : Nat
  /-- `TXBUF_SIZE`: bytes in ENCBUF. -/
  txbufSize : Nat
  /-- `RXBUF_SIZE`: bytes in DECBUF. -/
  rxbufSize : Nat
  /-- `RXCAND_SIZE`: most bytes one inbound drain pulls. -/
  rxcandSize : Nat
  /-- `PAY_MAX`: bytes in PAYBUF. -/
  payMax : Nat
  typeNopOut : Byte
  typeMeasurements : Byte
  typeHealth : Byte
  typeEvent : Byte
  typeNopIn : Byte
  typeReset : Byte
  /-- `SENSOR_ADDR`: R8 asks that it be below 0x80. -/
  sensorAddr : Byte
  cmdTrigT : Byte
  cmdTrigRh : Byte
  dwellClear : Word
  dwellT : Word
  dwellRh : Word
  busTimeoutMs : Word
deriving DecidableEq, Repr

/-- `N_RX = 2^K_RX` (00_scope.md R7). -/
def Config.nRx (c : Config) : Nat := 2 ^ c.kRx

/-- `N_TX = 2^K_TX` (00_scope.md R7). -/
def Config.nTx (c : Config) : Nat := 2 ^ c.kTx

/-- `PROTO_VERSION` (00_scope.md R2, R7): fixed. -/
abbrev protoVersion : Byte := 1#8

/-- `HEADER_SIZE` (00_scope.md R7): fixed. -/
abbrev headerSize : Nat := 2

/-- `CRC_SIZE` (00_scope.md R7): fixed. -/
abbrev crcSize : Nat := 4

/-- The ranges of the sizes in the table of 00_scope.md R7, with `TXBUF_SIZE >= 17` of R8. -/
def Config.sizesOk (c : Config) : Bool :=
  decide (1 ≤ c.kRx ∧ c.kRx ≤ 15 ∧ 1 ≤ c.kTx ∧ c.kTx ≤ 15 ∧ 2 ≤ c.syncStages ∧
    17 ≤ c.itfPacketBufSize ∧ c.itfPacketBufSize ≤ 65535 ∧
    17 ≤ c.txbufSize ∧ c.txbufSize ≤ 65535 ∧
    1 ≤ c.rxbufSize ∧ c.rxbufSize ≤ 65535 ∧
    1 ≤ c.rxcandSize ∧ c.rxcandSize ≤ 65535 ∧ c.payMax ≤ 65535)

/-- 00_scope.md R8: the outbound type bytes are pairwise distinct, and the two inbound ones differ. -/
def Config.typesOk (c : Config) : Bool :=
  [c.typeNopOut, c.typeMeasurements, c.typeHealth, c.typeEvent].Nodup && (c.typeNopIn ≠ c.typeReset)

/-- 00_scope.md R8: `SENSOR_ADDR < 0x80`. -/
def Config.addrOk (c : Config) : Bool := c.sensorAddr < 0x80#8

/-- The configurations the model does not refuse (00_scope.md R7, R8). -/
def Config.valid (c : Config) : Bool := c.sizesOk && c.typesOk && c.addrOk

/-- The configuration `State.reset` carries (DESIGN CHOICE, log 3): the conventions of 95_test_vectors.md, its Part 2
sensor parameters, the default type codes of R7, and K_RX = K_TX = 5. -/
def Config.vectors : Config where
  kRx := 5
  kTx := 5
  syncStages := 2
  itfPacketBufSize := 64
  txbufSize := 64
  rxbufSize := 64
  rxcandSize := 64
  payMax := 64
  typeNopOut := 0
  typeMeasurements := 1
  typeHealth := 2
  typeEvent := 3
  typeNopIn := 0
  typeReset := 1
  sensorAddr := 0x40
  cmdTrigT := 0xF3
  cmdTrigRh := 0xF5
  dwellClear := 100
  dwellT := 50
  dwellRh := 16
  busTimeoutMs := 10

end Sys2Proof
end

