-- ==== Sys2Proof/Machine/State.lean ====
section
/-! DEFINITION. The state of EESE-CORE as plain data (10_state.md), its value after reset, and the reasons a step can stop. -/

namespace Sys2Proof.Machine

/-- The five byte spaces (20_memory.md R31). -/
inductive Space where
  | rxMem
  | txMem
  | encbuf
  | decbuf
  | paybuf
deriving DecidableEq, Repr

/-- A byte space's contents: (index, byte) pairs, indices strictly rising. An unlisted byte is one nothing has written since
reset: it has no value (10_state.md R30 "unspecified"; log 4). -/
abbrev Memory := List Host.Cell

/-- One SPSC ring `q` (10_state.md R18). The six index registers are K bits wide; the model holds them as numbers and reads
them mod `N` (log 10). -/
structure Ring where
  /-- `q.MEM`. -/
  mem : Memory
  /-- `q.W`, write_index. -/
  w : Nat
  /-- `q.R`, read_index. -/
  r : Nat
  /-- `q.WG`, `gray(q.W)` registered. -/
  wg : Nat
  /-- `q.RG`, `gray(q.R)` registered. -/
  rg : Nat
  /-- `q.WV`, the consumer domain's view of W. -/
  wv : Nat
  /-- `q.RV`, the producer domain's view of R. -/
  rv : Nat
deriving DecidableEq, Repr

/-- `ENC_PHASE` (10_state.md R21): 0 IDLE, 1 OPEN, 2 CLOSED; "3 never occurs" (log 13). -/
inductive EncPhase where
  | idle
  | opened
  | closed
deriving DecidableEq, Repr

/-- The COBS encoder (10_state.md R21). -/
structure Enc where
  /-- `ENCBUF`. -/
  buf : Memory
  /-- `ENC_PHASE`. -/
  phase : EncPhase
  /-- `ENC_OVF`. -/
  ovf : Bool
  /-- `ENC_LEN`. -/
  len : Half
  /-- `ENC_CP`. -/
  cp : Half
  /-- `ENC_CODE`. -/
  code : Byte
deriving DecidableEq, Repr

/-- `DEC_ST` (10_state.md R22): 0 MORE, 1 DONE, 2 ERR, 3 OVF. -/
inductive DecStatus where
  | more
  | done
  | err
  | ovf
deriving DecidableEq, Repr

/-- The COBS decoder (10_state.md R22). -/
structure Dec where
  /-- `DECBUF`. -/
  buf : Memory
  /-- `DEC_ST`. -/
  st : DecStatus
  /-- `DEC_HAVE`. -/
  have_ : Bool
  /-- `DEC_CODE`. -/
  code : Byte
  /-- `DEC_REM`. -/
  rem : Byte
  /-- `DEC_LEN`. -/
  len : Half
deriving DecidableEq, Repr

/-- The payload staging buffer (10_state.md R23). -/
structure Pay where
  /-- `PAYBUF`. -/
  buf : Memory
  /-- `PAY_LEN`. -/
  len : Half
deriving DecidableEq, Repr

/-- `SENS_STATE` (10_state.md R24): 0 Clear, 1 ReadTemperature, 2 ReadHumidity; "3 never occurs" (log 13). -/
inductive SensState where
  | clear
  | readTemperature
  | readHumidity
deriving DecidableEq, Repr

/-- The sensor unit (10_state.md R24). -/
structure Sens where
  /-- `SENS_STATE`. -/
  state : SensState
  /-- `SENS_TLAST`. -/
  tlast : Word
  /-- `SENS_DWELL`. -/
  dwell : Word
  /-- `SENS_TEMP`, two's complement. -/
  temp : Word
  /-- `SENS_HUM`, two's complement. -/
  hum : Word
deriving DecidableEq, Repr

/-- `bus_op` of a phase that is answered (44_sensor_bus.md R108, 0 to 3). STOP, 4, is posted in `Bus.stop`. -/
inductive BusOp where
  /-- START_W: start, or repeated start, then address with the write bit. -/
  | startW
  /-- START_R: start, or repeated start, then address with the read bit. -/
  | startR
  /-- WRITE: one data byte. -/
  | write
  /-- READ: one data byte. -/
  | read
deriving DecidableEq, Repr

/-- A phase as `phase(op, a, b, last, ...)` posts it in BUS_PEND (44_sensor_bus.md R108). -/
structure Phase where
  op : BusOp
  /-- `a`, on `bus_addr`. -/
  addr : BusAddr
  /-- `b`, on `bus_wdata`. -/
  wdata : Byte
  /-- `last`: the block does not acknowledge the byte it reads. -/
  last : Bool
deriving DecidableEq, Repr

/-- The BUS agent's answer to a phase (44_sensor_bus.md R108). -/
inductive BusAnswer where
  | ack
  | nack
  | data (v : Byte)
deriving DecidableEq, Repr

/-- The bus port state (10_state.md R28, 44_sensor_bus.md R108). -/
structure Bus where
  /-- `BUS_PEND`. -/
  pend : Option Phase
  /-- `BUS_RSP`. -/
  rsp : Option BusAnswer
  /-- `BUS_STOP`. -/
  stop : Bool
deriving DecidableEq, Repr

/-- Which bus transaction of SENS_STEP is running (44_sensor_bus.md R113). -/
inductive XferKind where
  /-- Clear: the temperature trigger. -/
  | trigT
  /-- ReadTemperature: the 3-byte read. -/
  | readT
  /-- ReadTemperature: the humidity trigger, with the raw temperature code already read and checked. -/
  | trigRh (code : Half)
  /-- ReadHumidity: the 3-byte read. -/
  | readRh
deriving DecidableEq, Repr

/-- A bus transaction in progress (44_sensor_bus.md R109), inside a SENS_STEP that sampled the clock at `now`. -/
structure Xfer where
  kind : XferKind
  /-- `now` of R113: the clock at the start of SENS_STEP. -/
  now : Word
  /-- `t0` of R109: the clock at the start of this transaction. -/
  t0 : Word
  /-- `d` of R109: the bytes read so far. -/
  got : List Byte
deriving DecidableEq, Repr

/-- The command that a TX_COMMIT's effects are part of (40_ring_fifo.md R67, 43_protocol.md R102, 44_sensor_bus.md R113). -/
inductive After where
  | txCommit
  | protoSend (t : Byte)
  /-- The send inside a SENS_STEP that sampled the clock at `now`. -/
  | measurement (now : Word)
deriving DecidableEq, Repr

/-- The sequencer's position inside a macro command (10_state.md R17): which micro-step CMD takes next. The micro-steps are
the ones 20_memory.md R44 lists (log 5). -/
inductive Seq where
  /-- No command in progress. -/
  | idle
  /-- TX_COMMIT's effects: the read of TX.RV that decides whether the closed frame fits (R67). -/
  | room (after : After)
  /-- TX_COMMIT's per-byte loop: byte `j` of `len` is next (R67). -/
  | commit (after : After) (j len : Nat)
  /-- PROTO_POLL: one turn of `drain()`'s loop, `k` bytes popped, `acc` packets accepted so far (R104, R107). -/
  | drain (acc : Word) (k : Nat)
  /-- PROTO_POLL: check and dispatch of the candidate just drained (R105, R106). -/
  | check (acc : Word)
  /-- SENS_STEP: the sample of the clock and the dwell test (R113). -/
  | sample
  /-- A bus transaction: the sample of `t0` (R109). -/
  | xferStart (x : Xfer)
  /-- A bus transaction: the request of the first phase of `todo` (R108). -/
  | request (x : Xfer) (ph : Phase) (todo : List Phase)
  /-- A bus transaction: one wait step on `ph` (R108). -/
  | wait (x : Xfer) (ph : Phase) (todo : List Phase)
  /-- A bus transaction: the posting of the stop, with its result so far (R109). -/
  | postStop (x : Xfer) (ok : Bool)
  /-- `halt_reset()`: CMD takes no further step (60_exceptions.md R123). -/
  | halted
deriving DecidableEq, Repr

/-- The four synchronisers, by the view each drives (20_memory.md R39, 40_ring_fifo.md R70). -/
inductive View where
  /-- SYNC_RXW: RX.W into CORE as RX.WV. -/
  | rxW
  /-- SYNC_RXR: RX.R into LRX as RX.RV. -/
  | rxR
  /-- SYNC_TXW: TX.W into LTX as TX.WV. -/
  | txW
  /-- SYNC_TXR: TX.R into CORE as TX.RV. -/
  | txR
deriving DecidableEq, Repr

/-- One step of one agent (00_scope.md R10), or the reset event (70_reset_and_hazards.md R131). The schedule is a list of
these (log 1). -/
inductive Agent where
  /-- CMD takes its turn: it accepts the command presented, or takes a micro-step of the command in progress. -/
  | cmd
  /-- LRX offers a received byte. -/
  | lrx (b : Byte)
  /-- LTX asks for a byte. -/
  | ltx
  /-- The synchroniser of `view` steps, and chooses `v`. -/
  | sync (view : View) (v : Nat)
  /-- BUS answers the pending phase. -/
  | busAnswer (r : BusAnswer)
  /-- BUS takes the posted stop. -/
  | busTakeStop
  /-- CLK advances by `d` ms. -/
  | clk (d : Nat)
  /-- `rst = 1`. -/
  | rst
deriving DecidableEq, Repr

/-- A command as the controller presents it: `cmd_op`, `cmd_arg` (10_state.md R14). -/
structure Cmd where
  op : Byte
  arg : Word
deriving DecidableEq, Repr

/-- The discard codes 1 to 6 of 60_exceptions.md R120. -/
inductive Discard where
  | decErr
  | decOvf
  | incomplete
  | undersize
  | crc
  | version
deriving DecidableEq, Repr

/-- The events of the observation trace (60_exceptions.md R122). -/
inductive Event where
  | send (t : Byte) (ok : Bool)
  | discard (code : Discard)
  | dispatch (t : Byte)
  | ignored (t : Byte)
  | meas (temp hum : Word) (sent : Bool)
deriving DecidableEq, Repr

/-- Why the machine stops with a fault. Both are the model's own: the spec forms no such access (20_memory.md R31, 10_state.md
R30), and no run from reset reaches one. -/
inductive Fault where
  /-- Raised by the one operation that reads a byte space, on a byte nothing has written since reset. Safe: 93_implementation_defined.md
  Part 1 lets a model fault there (log 4). -/
  | unwrittenByte (sp : Space) (i : Nat)
  /-- Raised by the operations that read or write a byte space, on an index at or beyond its size. Safe: there is no such byte (R31). -/
  | outsideSpace (sp : Space) (i : Nat)
deriving DecidableEq, Repr

/-- Why the machine refuses to step. -/
inductive Refusal where
  /-- Raised by `exec` alone, on an instruction without a meaning yet; no arm of this model does. Safe. -/
  | notModelled (mnemonic : String)
  /-- Raised by `step` on a configuration that breaks 00_scope.md R7 or R8: "The model must refuse". Safe. -/
  | badConfiguration
deriving DecidableEq, Repr

/-- The machine's whole state. -/
structure State where
  /-- The parameters (00_scope.md R7): constant (log 3). -/
  cfg : Config
  /-- The inbound ring (10_state.md R18). -/
  rx : Ring
  /-- The outbound ring (10_state.md R18). -/
  tx : Ring
  /-- `CRC32_ACC` (10_state.md R20). -/
  crc32 : Word
  /-- `CRC8_ACC` (10_state.md R20). -/
  crc8 : Byte
  enc : Enc
  dec : Dec
  pay : Pay
  sens : Sens
  /-- `STATUS.ILL` (10_state.md R25). -/
  ill : Bool
  /-- `HALTED`, which drives `rst_req` (10_state.md R26). -/
  halted : Bool
  /-- `RES` (10_state.md R16). -/
  res : Word
  /-- `OK` (10_state.md R16). -/
  ok : Bool
  /-- `rsp_valid` (10_state.md R14): the last accepted command has been answered (log 8). -/
  rspValid : Bool
  bus : Bus
  /-- `rx_accept` of the last handshake on the link RX port (10_state.md R14). -/
  rxAccept : Bool
  /-- `tx_valid` of the last handshake on the link TX port (10_state.md R14). -/
  txValid : Bool
  /-- `tx_data` of the last handshake on the link TX port that delivered a byte (10_state.md R14). -/
  txData : Byte
  /-- The sequencer's position (10_state.md R17). -/
  seq : Seq
  /-- The value on the clock input, owned by CLK (10_state.md R15). -/
  clock : Word
  /-- The commands the controller presents next, the first on the port now (10_state.md R17; log 2). -/
  cmds : List Cmd
  /-- The steps the agents take next (00_scope.md R10; log 1). -/
  sched : List Agent
  /-- The observation trace (60_exceptions.md R122): a model device, not state of the block. -/
  trace : List Event
deriving DecidableEq, Repr

/-- A ring after reset (10_state.md R30). -/
def Ring.reset : Ring where
  mem := []
  w := 0
  r := 0
  wg := 0
  rg := 0
  wv := 0
  rv := 0

/-- The encoder after reset (10_state.md R30). -/
def Enc.reset : Enc where
  buf := []
  phase := .idle
  ovf := false
  len := 0
  cp := 0
  code := 1

/-- The decoder after reset (10_state.md R30). -/
def Dec.reset : Dec where
  buf := []
  st := .more
  have_ := false
  code := 0
  rem := 0
  len := 0

/-- The sensor unit after reset (10_state.md R30): Clear, with the dwell of Clear. -/
def Sens.reset (c : Config) : Sens where
  state := .clear
  tlast := 0
  dwell := c.dwellClear
  temp := 0
  hum := 0

/-- The bus port idle (10_state.md R30). -/
def Bus.reset : Bus where
  pend := none
  rsp := none
  stop := false

/-- The machine right after reset in configuration `c` (10_state.md R30), with nothing presented on any port. -/
def State.resetIn (c : Config) : State where
  cfg := c
  rx := Ring.reset
  tx := Ring.reset
  crc32 := 0xFFFFFFFF
  crc8 := 0
  enc := Enc.reset
  dec := Dec.reset
  pay := { buf := [], len := 0 }
  sens := Sens.reset c
  ill := false
  halted := false
  res := 0
  ok := false
  rspValid := false
  bus := Bus.reset
  rxAccept := false
  txValid := false
  txData := 0
  seq := .idle
  clock := 0
  cmds := []
  sched := []
  trace := []

/-- The machine right after reset. The configuration is the model's choice (log 3); the spec's parameters are OPEN. -/
def State.reset : State := State.resetIn Config.vectors

end Sys2Proof.Machine
end

