-- ==== Sys2Proof/Machine/Flags.lean ====
section
/-! DEFINITION. The status bits (10_state.md R29) and the words they are assembled into: STATUS, ID, ENC_STAT and DEC_STAT of the
CSR map (10_state.md R27), and RES of SENS_STEP (44_sensor_bus.md R113). Each word is written from its bit 31 down. -/

namespace Sys2Proof.Machine

/-- The two bits of `ENC_PHASE` (10_state.md R21). -/
def encPhaseBits : EncPhase → BitVec 2
  | .idle => 0
  | .opened => 1
  | .closed => 2

/-- The two bits of `DEC_ST` (10_state.md R22). -/
def decStatusBits : DecStatus → BitVec 2
  | .more => 0
  | .done => 1
  | .err => 2
  | .ovf => 3

/-- The two bits of `SENS_STATE` (10_state.md R24). -/
def sensStateBits : SensState → BitVec 2
  | .clear => 0
  | .readTemperature => 1
  | .readHumidity => 2

/-- `STATUS`: bit 0 is ILL, bits 31 to 1 read 0 (10_state.md R25). -/
def statusWord (ill : Bool) : Word := 0#31 ++ BitVec.ofBool ill

/-- `ID`: [7:0] PROTO_VERSION, [11:8] K_RX, [15:12] K_TX (10_state.md R27). -/
def idWord (c : Config) : Word := 0#16 ++ BitVec.ofNat 4 c.kTx ++ BitVec.ofNat 4 c.kRx ++ protoVersion

/-- `ENC_STAT`: [1:0] ENC_PHASE, [2] ENC_OVF, [15:8] ENC_CODE (10_state.md R27). -/
def encStatWord (e : Enc) : Word := 0#16 ++ e.code ++ 0#5 ++ BitVec.ofBool e.ovf ++ encPhaseBits e.phase

/-- `DEC_STAT`: [1:0] DEC_ST, [2] DEC_HAVE, [15:8] DEC_CODE, [23:16] DEC_REM (10_state.md R27). -/
def decStatWord (d : Dec) : Word :=
  0#8 ++ d.rem ++ d.code ++ 0#5 ++ BitVec.ofBool d.have_ ++ decStatusBits d.st

/-- RES of a SENS_STEP that acted: [1:0] SENS_STATE, [4] acted, [5] fail, [6] emit, [7] sent (44_sensor_bus.md R113). -/
def sensActedWord (st : SensState) (fail emit sent : Bool) : Word :=
  0#24 ++ BitVec.ofBool sent ++ BitVec.ofBool emit ++ BitVec.ofBool fail ++ 1#1 ++ 0#2 ++ sensStateBits st

/-- RES of a SENS_STEP whose dwell has not elapsed: SENS_STATE (44_sensor_bus.md R113). -/
def sensIdleWord (st : SensState) : Word := 0#30 ++ sensStateBits st

/-- RES of DEC_PUT: the status code (42_cobs.md R96). -/
def decStatusWord (st : DecStatus) : Word := 0#30 ++ decStatusBits st

/-- OK of DEC_PUT when it consumed its byte: `DEC_ST = 0 or DEC_ST = 1` (42_cobs.md R96). -/
def decStatusOk : DecStatus → Bool
  | .more => true
  | .done => true
  | .err => false
  | .ovf => false

/-- The number of a discard code (60_exceptions.md R120). -/
def discardCode : Discard → Nat
  | .decErr => 1
  | .decOvf => 2
  | .incomplete => 3
  | .undersize => 4
  | .crc => 5
  | .version => 6

end Sys2Proof.Machine
end

