-- ==== Sys2Proof/Machine/Ops.lean ====
section
/-! DEFINITION. The named operations over the byte spaces, the rings and the command port. The block has no exception to take
and none to return from (60_exceptions.md R118, R119); the one non-returning transfer, `halt_reset()`, is the last one here. -/

namespace Sys2Proof.Machine

/-! ### Byte spaces (20_memory.md R31, R32) -/

/-- The byte listed at index `i`, if something has written it. -/
def Memory.read : Memory → Nat → Option Byte
  | [], _ => none
  | (a, b) :: t, i => if a = i then some b else Memory.read t i

/-- The contents with byte `b` at index `i`; keeps the indices strictly rising. -/
def Memory.write : Memory → Nat → Byte → Memory
  | [], i, b => [(i, b)]
  | (a, c) :: t, i, b =>
    if i < a then (i, b) :: (a, c) :: t
    else if i = a then (i, b) :: t
    else (a, c) :: Memory.write t i b

/-- The canonical form: indices strictly rising. An unlisted byte has no value, so no listed byte is redundant. -/
abbrev Memory.wf (m : Memory) : Prop := (m.map Prod.fst).Pairwise (· < ·)

/-- `MemRead(S, i, 1)` (00_scope.md R9) in a space of `size` bytes. -/
def readByte (sp : Space) (size : Nat) (m : Memory) (i : Nat) : Except Fault Byte :=
  if i < size then
    match m.read i with
    | some b => .ok b
    | none => .error (.unwrittenByte sp i)
  else .error (.outsideSpace sp i)

/-- `MemWrite(S, i, 1, b)` (00_scope.md R9) in a space of `size` bytes. -/
def writeByte (sp : Space) (size : Nat) (m : Memory) (i : Nat) (b : Byte) : Except Fault Memory :=
  if i < size then .ok (m.write i b) else .error (.outsideSpace sp i)

/-- `S[i .. i + n - 1]`, read one byte at a time from the lowest index up (20_memory.md R32). -/
def readBytes (sp : Space) (size : Nat) (m : Memory) : (i n : Nat) → Except Fault (List Byte)
  | _, 0 => .ok []
  | i, n + 1 => do
    let b ← readByte sp size m i
    let rest ← readBytes sp size m (i + 1) n
    .ok (b :: rest)

/-- The contents of a byte space. -/
def State.space (s : State) : Space → Memory
  | .rxMem => s.rx.mem
  | .txMem => s.tx.mem
  | .encbuf => s.enc.buf
  | .decbuf => s.dec.buf
  | .paybuf => s.pay.buf

/-- The size of a byte space (20_memory.md R31). -/
def spaceSize (c : Config) : Space → Nat
  | .rxMem => c.nRx
  | .txMem => c.nTx
  | .encbuf => c.txbufSize
  | .decbuf => c.rxbufSize
  | .paybuf => c.payMax

/-- The one read of a byte that statements about memory are written with. -/
def State.byteAt (s : State) (sp : Space) (i : Nat) : Option Byte := (s.space sp).read i

/-! ### Gray code and ring indices (20_memory.md R37, 10_state.md R19) -/

/-- `gray(b) = b ^ (b >> 1)` (20_memory.md R37). -/
def gray (b : Nat) : Nat := b ^^^ (b >>> 1)

/-- `bin(g)` on `k` bits: `b[k-1] = g[k-1]` and `b[i] = b[i+1] ^ g[i]` below (20_memory.md R37). Bit `i` of the result is the
parity of the bits of `g` from `i` up, so each shift of `g` is folded in once. -/
def bin : (k g : Nat) → Nat
  | 0, _ => 0
  | k + 1, g => g ^^^ bin k (g >>> 1)

/-- `(a - b) mod N` on ring indices (00_scope.md R9). -/
def subMod (n a b : Nat) : Nat := (a + (n - b % n)) % n

/-- `avail(q) = (q.WV - q.R) mod N` (10_state.md R19). -/
def Ring.avail (n : Nat) (q : Ring) : Nat := subMod n q.wv q.r

/-- `free(q) = (q.RV - q.W - 1) mod N` (10_state.md R19). -/
def Ring.free (n : Nat) (q : Ring) : Nat := subMod n q.rv (q.w + 1)

/-- `count(q) = (q.W - q.R) mod N`, the bytes truly held (20_memory.md R40). -/
def Ring.count (n : Nat) (q : Ring) : Nat := subMod n q.w q.r

/-- A producer's atomic step: write the slot, then advance W with its gray copy (20_memory.md R38, R41). -/
def Ring.push (n : Nat) (q : Ring) (b : Byte) : Ring :=
  { q with
    mem := q.mem.write (q.w % n) b
    w := (q.w + 1) % n
    wg := gray ((q.w + 1) % n) }

/-- The byte at offset `i` from the head, as the consumer reads it (40_ring_fifo.md R63). -/
def Ring.peek (sp : Space) (n : Nat) (q : Ring) (i : Nat) : Except Fault Byte :=
  readByte sp n q.mem ((q.r + i) % n)

/-- A consumer's advance of R with its gray copy (20_memory.md R38, R41). -/
def Ring.advance (n : Nat) (q : Ring) : Ring :=
  { q with
    r := (q.r + 1) % n
    rg := gray ((q.r + 1) % n) }

/-! ### The command port -/

/-- A command's last act: it writes RES and OK, and answers (10_state.md R16, 30_encoding.md R55). -/
def State.respond (s : State) (res : Word) (ok : Bool) : State :=
  { s with res := res, ok := ok, rspValid := true }

/-- The end of a macro command: it answers, and the sequencer is idle again. -/
def State.finish (s : State) (res : Word) (ok : Bool) : State :=
  { s.respond res ok with seq := .idle }

/-- The sequencer at position `p`. -/
def State.goto (s : State) (p : Seq) : State := { s with seq := p }

/-- `emit_event(e)` (00_scope.md R11, 60_exceptions.md R122). -/
def State.emit (s : State) (e : Event) : State := { s with trace := s.trace ++ [e] }

/-- An operation's result as a step's outcome. -/
def outcomeOf : Except Fault State → Host.Outcome State Fault Refusal
  | .ok s => .next s
  | .error f => .fault f

/-- `halt_reset()` (60_exceptions.md R123): HALTED is set and CMD stops; RES and OK are not written. -/
def haltReset (s : State) : State := { s with halted := true, seq := .halted }

end Sys2Proof.Machine
end

