-- ==== Sys2Proof/Machine/Crc.lean ====
section
/-! DEFINITION. The CRC-32 and CRC-8 accumulators (41_crc.md). -/

namespace Sys2Proof.Machine

/-! ### The byte steps and the folds -/

/-- One turn of the bit loop of `step32` (41_crc.md R73). -/
def crc32Bit (acc : Word) : Word :=
  if acc.getLsbD 0 then (acc >>> 1) ^^^ 0xEDB88320#32 else acc >>> 1

/-- `n` turns of the bit loop of `step32` (41_crc.md R73). -/
def crc32Bits : Nat → Word → Word
  | 0, acc => acc
  | n + 1, acc => crc32Bits n (crc32Bit acc)

/-- `step32(acc, b)` (41_crc.md R73). -/
def step32 (acc : Word) (b : Byte) : Word := crc32Bits 8 (acc ^^^ zext8 b)

/-- `crc32(s, seed)` (41_crc.md R74): no final XOR, no final reflection. -/
def crc32 (s : List Byte) (seed : Word) : Word := s.foldl step32 seed

/-- "seeded with 0xFFFFFFFF on the first call" (41_crc.md R74). -/
abbrev crc32Seed : Word := 0xFFFFFFFF#32

/-- One turn of the bit loop of `step8` (41_crc.md R81). -/
def crc8Bit (acc : Byte) : Byte :=
  if acc.getLsbD 7 then (acc <<< 1) ^^^ 0x31#8 else acc <<< 1

/-- `n` turns of the bit loop of `step8` (41_crc.md R81). -/
def crc8Bits : Nat → Byte → Byte
  | 0, acc => acc
  | n + 1, acc => crc8Bits n (crc8Bit acc)

/-- `step8(acc, b)` (41_crc.md R81). -/
def step8 (acc b : Byte) : Byte := crc8Bits 8 (acc ^^^ b)

/-- `crc8(s)` (41_crc.md R82): from 0, no final XOR, no reflection. -/
def crc8 (s : List Byte) : Byte := s.foldl step8 0

/-! ### The commands -/

/-- CRC32_SEED (41_crc.md R78). -/
def execCrc32Seed (v : Word) (s : State) : Host.Outcome State Fault Refusal :=
  .next ({ s with crc32 := v }.respond v true)

/-- CRC32_PUT (41_crc.md R79). -/
def execCrc32Put (b : Byte) (s : State) : Host.Outcome State Fault Refusal :=
  .next ({ s with crc32 := step32 s.crc32 b }.respond (step32 s.crc32 b) true)

/-- CRC32_RD (41_crc.md R80). -/
def execCrc32Rd (s : State) : Host.Outcome State Fault Refusal :=
  .next (s.respond s.crc32 true)

/-- CRC8_INIT (41_crc.md R84). -/
def execCrc8Init (s : State) : Host.Outcome State Fault Refusal :=
  .next ({ s with crc8 := 0 }.respond 0 true)

/-- CRC8_PUT (41_crc.md R85). -/
def execCrc8Put (b : Byte) (s : State) : Host.Outcome State Fault Refusal :=
  .next ({ s with crc8 := step8 s.crc8 b }.respond (zext8 (step8 s.crc8 b)) true)

/-- CRC8_RD (41_crc.md R86). -/
def execCrc8Rd (s : State) : Host.Outcome State Fault Refusal :=
  .next (s.respond (zext8 s.crc8) true)

end Sys2Proof.Machine
end

