-- ==== Sys2Proof/Machine/Sensor.lean ====
section
/-! DEFINITION. The arithmetic of the sensor unit and the phases of a bus transaction (44_sensor_bus.md R108, R109, R111, R112).
The micro-steps of SENS_STEP that use them are in Machine/Sequencer.lean. -/

namespace Sys2Proof.Machine

/-- `conv_t(s)` (44_sensor_bus.md R111), exact in integers. -/
def convT (s : Half) : Int := ((17572 * s.toNat / 65536 : Nat) : Int) - 4685

/-- `conv_rh(s)` (44_sensor_bus.md R111), exact in integers. -/
def convRh (s : Half) : Int := ((12500 * s.toNat / 65536 : Nat) : Int) - 600

/-- An i32 as a register holds it (10_state.md R24). -/
def i32 (v : Int) : Word := BitVec.ofInt 32 v

/-- The accumulator after `crc_ok(d)` (44_sensor_bus.md R112); the test itself is whether it is 0. -/
def crcResidue (d : List Byte) : Byte := crc8 d

/-- `bus_op[2:0]` (44_sensor_bus.md R108). -/
def busOpBits : BusOp → BitVec 3
  | .startW => 0
  | .startR => 1
  | .write => 2
  | .read => 3

/-- The answers the table of 44_sensor_bus.md R108 allows for a phase: DATA for a READ, ACK or NACK for the others. -/
def answerAllowed : BusOp → BusAnswer → Bool
  | .startW, .ack => true
  | .startW, .nack => true
  | .startW, .data _ => false
  | .startR, .ack => true
  | .startR, .nack => true
  | .startR, .data _ => false
  | .write, .ack => true
  | .write, .nack => true
  | .write, .data _ => false
  | .read, .ack => false
  | .read, .nack => false
  | .read, .data _ => true

/-- The READ phases of a transaction that reads `r` bytes: the last one is marked (44_sensor_bus.md R109). -/
def readPhases (a : BusAddr) : Nat → List Phase
  | 0 => []
  | r + 1 => { op := .read, addr := a, wdata := 0, last := r = 0 } :: readPhases a r

/-- The phases of `bus_xfer(a, w, r, _)` in order (44_sensor_bus.md R109): the write phase if `w` is not empty, then the read
phase, with a start or repeated start, if `r > 0`. -/
def xferPhases (a : BusAddr) (w : List Byte) (r : Nat) : List Phase :=
  (if w = [] then []
    else { op := .startW, addr := a, wdata := 0, last := false } ::
      w.map fun x => { op := .write, addr := a, wdata := x, last := false }) ++
  (if r = 0 then []
    else { op := .startR, addr := a, wdata := 0, last := false } :: readPhases a r)

/-- The sensor's bus address on `bus_addr[6:0]`. -/
def sensorBusAddr (c : Config) : BusAddr := c.sensorAddr.setWidth 7

/-- The phases of each of SENS_STEP's transactions (44_sensor_bus.md R113). -/
def XferKind.phases (c : Config) : XferKind → List Phase
  | .trigT => xferPhases (sensorBusAddr c) [c.cmdTrigT] 0
  | .readT => xferPhases (sensorBusAddr c) [] 3
  | .trigRh _ => xferPhases (sensorBusAddr c) [c.cmdTrigRh] 0
  | .readRh => xferPhases (sensorBusAddr c) [] 3

end Sys2Proof.Machine
end

