-- ==== Sys2Proof/Machine/Agents.lean ====
section
/-! DEFINITION. The steps of the agents other than CMD and the link ports (00_scope.md R10), and the reset event
(70_reset_and_hazards.md R131). A schedule entry that names a step its agent cannot take moves nothing (log 1). -/

namespace Sys2Proof.Machine

/-- Whether a synchroniser may move a view from `view` to `v`: `(v - V) mod N <= (X - V) mod N` (20_memory.md R39). -/
def onPath (n view index v : Nat) : Bool := (v < n) && (subMod n v view ≤ subMod n index view)

/-- A synchroniser step (20_memory.md R39, 40_ring_fifo.md R70). -/
def syncStep (view : View) (v : Nat) (s : State) : State :=
  match view with
  | .rxW => if onPath s.cfg.nRx s.rx.wv s.rx.w v then { s with rx := { s.rx with wv := v } } else s
  | .rxR => if onPath s.cfg.nRx s.rx.rv s.rx.r v then { s with rx := { s.rx with rv := v } } else s
  | .txW => if onPath s.cfg.nTx s.tx.wv s.tx.w v then { s with tx := { s.tx with wv := v } } else s
  | .txR => if onPath s.cfg.nTx s.tx.rv s.tx.r v then { s with tx := { s.tx with rv := v } } else s

/-- Whether BUS may answer `r` now (44_sensor_bus.md R108): no stop is posted, a phase is pending and unanswered, and the
table allows `r` for it. -/
def busMayAnswer (r : BusAnswer) (s : State) : Bool :=
  match s.bus.pend with
  | none => false
  | some ph => !s.bus.stop && s.bus.rsp.isNone && answerAllowed ph.op r

/-- BUS answers the pending phase (44_sensor_bus.md R108). -/
def busAnswerStep (r : BusAnswer) (s : State) : State :=
  if busMayAnswer r s then { s with bus := { s.bus with rsp := some r } } else s

/-- BUS takes the posted stop (44_sensor_bus.md R108). -/
def busTakeStopStep (s : State) : State := { s with bus := { s.bus with stop := false } }

/-- A CLK step of `d` ms, mod 2^32 (10_state.md R15). -/
def clkStep (d : Nat) (s : State) : State := { s with clock := s.clock + BitVec.ofNat 32 d }

/-- `rst` (70_reset_and_hazards.md R131): every piece of the block's state takes its value of 10_state.md R30, and the command
in progress is abandoned. What is not the block's stays: the parameters, the clock, the controller's commands, the schedule, and
the trace, which "reset does not clear" (60_exceptions.md R122; log 15). -/
def resetEvent (s : State) : State :=
  { State.resetIn s.cfg with clock := s.clock, cmds := s.cmds, sched := s.sched, trace := s.trace }

end Sys2Proof.Machine
end

