-- ==== Sys2Proof/Machine/Cobs.lean ====
section
/-! DEFINITION. The COBS frame encoder and decoder (42_cobs.md R89 to R97). The operations on `Enc` and `Dec` are shared with
the macro commands, which "apply the effects of" these rules without their RES and OK (43_protocol.md). -/

namespace Sys2Proof.Machine

/-! ### Encoder -/

/-- `alloc()` (42_cobs.md R89): the next free index of ENCBUF, or none with ENC_OVF set. -/
def Enc.alloc (size : Nat) (e : Enc) : Option Nat × Enc :=
  if size ≤ e.len.toNat then (none, { e with ovf := true })
  else (some e.len.toNat, { e with len := e.len + 1 })

/-- ENC_BEGIN's effects (42_cobs.md R90). -/
def Enc.start (size : Nat) (e : Enc) : Except Fault Enc := do
  let buf ← writeByte .encbuf size e.buf 0 0
  let buf ← writeByte .encbuf size buf 1 0
  .ok { buf := buf, phase := .opened, ovf := false, len := 2, cp := 1, code := 1 }

/-- The last line of both branches of ENC_PUT (42_cobs.md R91): reserve the code slot of the next block. -/
def Enc.openBlock (size : Nat) (e : Enc) : Enc :=
  match e.alloc size with
  | (none, e') => e'
  | (some j, e') => { e' with buf := e'.buf.write j 0, cp := BitVec.ofNat 16 j, code := 1 }

/-- A block gets its code byte (42_cobs.md R89, R91): `MemWrite(ENCBUF, ENC_CP, 1, c)`. -/
def Enc.writeCode (size : Nat) (e : Enc) (c : Byte) : Except Fault Enc := do
  let buf ← writeByte .encbuf size e.buf e.cp.toNat c
  .ok { e with buf := buf }

/-- ENC_PUT of a non-zero byte into an open frame (42_cobs.md R91). -/
def Enc.putData (size : Nat) (e : Enc) (b : Byte) : Except Fault Enc :=
  match e.alloc size with
  | (none, e') => .ok e'
  | (some j, e') =>
    let e1 := { e' with buf := e'.buf.write j b, code := e'.code + 1 }
    if e1.code = 0xFF#8 then do
      let e2 ← e1.writeCode size 0xFF
      .ok (e2.openBlock size)
    else .ok e1

/-- ENC_PUT of 0x00 into an open frame: "a zero closes the block" (42_cobs.md R91). -/
def Enc.putZero (size : Nat) (e : Enc) : Except Fault Enc := do
  let e1 ← e.writeCode size e.code
  .ok (e1.openBlock size)

/-- Whether ENC_PUT changes anything: the frame is open and has not overflowed (42_cobs.md R91). -/
def Enc.accepts (e : Enc) : Bool := e.phase = .opened && !e.ovf

/-- ENC_PUT's effects (42_cobs.md R91). -/
def Enc.put (size : Nat) (e : Enc) (b : Byte) : Except Fault Enc :=
  if e.accepts then
    if b = 0 then e.putZero size else e.putData size b
  else .ok e

/-- ENC_PUT's effects for each byte of a string, in order. -/
def Enc.putAll (size : Nat) : Enc → List Byte → Except Fault Enc
  | e, [] => .ok e
  | e, b :: bs => do
    let e' ← e.put size b
    Enc.putAll size e' bs

/-- The trailing delimiter of ENC_END, if it fits (42_cobs.md R92). -/
def Enc.delimit (size : Nat) (e : Enc) : Enc :=
  match e.alloc size with
  | (none, e') => e'
  | (some j, e') => { e' with buf := e'.buf.write j 0 }

/-- ENC_END's effects (42_cobs.md R92). -/
def Enc.close (size : Nat) (e : Enc) : Except Fault Enc :=
  if e.phase = .opened then
    if e.ovf then .ok { e with phase := .closed }
    else do
      let e1 ← e.writeCode size e.code
      .ok { e1.delimit size with phase := .closed }
  else .ok e

/-- ENC_BEGIN (42_cobs.md R90). -/
def execEncBegin (s : State) : Host.Outcome State Fault Refusal :=
  outcomeOf do
    let e ← s.enc.start s.cfg.txbufSize
    .ok ({ s with enc := e }.respond 2 true)

/-- ENC_PUT (42_cobs.md R91). -/
def execEncPut (b : Byte) (s : State) : Host.Outcome State Fault Refusal :=
  if s.enc.accepts then
    outcomeOf do
      let e ← s.enc.put s.cfg.txbufSize b
      .ok ({ s with enc := e }.respond (zext16 e.len) (!e.ovf))
  else .next (s.respond (zext16 s.enc.len) false)

/-- ENC_END (42_cobs.md R92). -/
def execEncEnd (s : State) : Host.Outcome State Fault Refusal :=
  if s.enc.phase = .opened then
    outcomeOf do
      let e ← s.enc.close s.cfg.txbufSize
      .ok ({ s with enc := e }.respond (zext16 e.len) (!e.ovf))
  else .next (s.respond 0 false)

/-- ENC_RD (42_cobs.md R93). -/
def execEncRd (i : Half) (s : State) : Host.Outcome State Fault Refusal :=
  if i < s.enc.len then
    outcomeOf do
      let b ← readByte .encbuf s.cfg.txbufSize s.enc.buf i.toNat
      .ok (s.respond (zext8 b) true)
  else .next (s.respond 0 false)

/-! ### Decoder -/

/-- DEC_BEGIN's effects (42_cobs.md R95): DECBUF is not cleared. -/
def Dec.start (d : Dec) : Dec :=
  { buf := d.buf, st := .more, have_ := false, code := 0, rem := 0, len := 0 }

/-- `emit(v)` (42_cobs.md R96). -/
def Dec.emitByte (size : Nat) (d : Dec) (v : Byte) : Dec :=
  if size ≤ d.len.toNat then { d with st := .ovf }
  else { d with buf := d.buf.write d.len.toNat v, len := d.len + 1 }

/-- DEC_PUT of a delimiter (42_cobs.md R96). -/
def Dec.putDelimiter (d : Dec) : Dec :=
  { d with st := if d.have_ && (d.rem ≠ 0) then .err else .done }

/-- DEC_PUT of a code byte (42_cobs.md R96): first the implied zero of the block before. -/
def Dec.putCode (size : Nat) (d : Dec) (x : Byte) : Dec :=
  let d1 := if d.have_ && (d.code ≠ 0xFF#8) then d.emitByte size 0 else d
  if d1.st = .more then { d1 with code := x, rem := x - 1, have_ := true } else d1

/-- DEC_PUT of a data byte (42_cobs.md R96). -/
def Dec.putData (size : Nat) (d : Dec) (x : Byte) : Dec :=
  let d1 := d.emitByte size x
  if d1.st = .more then { d1 with rem := d1.rem - 1 } else d1

/-- DEC_PUT's effects (42_cobs.md R96): a terminal decoder ignores the byte. -/
def Dec.put (size : Nat) (d : Dec) (x : Byte) : Dec :=
  if d.st = .more then
    if x = 0 then d.putDelimiter
    else if d.have_ = false ∨ d.rem = 0 then d.putCode size x
    else d.putData size x
  else d

/-- DEC_BEGIN (42_cobs.md R95). -/
def execDecBegin (s : State) : Host.Outcome State Fault Refusal :=
  .next ({ s with dec := s.dec.start }.respond 0 true)

/-- DEC_PUT (42_cobs.md R96). -/
def execDecPut (x : Byte) (s : State) : Host.Outcome State Fault Refusal :=
  if s.dec.st = .more then
    .next ({ s with dec := s.dec.put s.cfg.rxbufSize x }.respond
      (decStatusWord (s.dec.put s.cfg.rxbufSize x).st) (decStatusOk (s.dec.put s.cfg.rxbufSize x).st))
  else .next (s.respond (decStatusWord s.dec.st) false)

/-- DEC_RD (42_cobs.md R97). -/
def execDecRd (i : Half) (s : State) : Host.Outcome State Fault Refusal :=
  if i < s.dec.len then
    outcomeOf do
      let b ← readByte .decbuf s.cfg.rxbufSize s.dec.buf i.toNat
      .ok (s.respond (zext8 b) true)
  else .next (s.respond 0 false)

end Sys2Proof.Machine
end

