-- ==== Sys2Proof/Machine/Packet.lean ====
section
/-! DEFINITION. The wire format (30_encoding.md R50 to R54) and COBS as a function on byte strings (42_cobs.md R87): what the
units' commands are said to build and to undo. `frameMax` is also the size check of a send (43_protocol.md R101). -/

namespace Sys2Proof.Machine

/-- "split s at every 0x00 into segments g_0, ..., g_k" (42_cobs.md R87). -/
def segments : List Byte → List (List Byte)
  | [] => [[]]
  | b :: bs =>
    match segments bs with
    | [] => [[b]]
    | g :: gs => if b = 0 then [] :: g :: gs else (b :: g) :: gs

/-- `blocks(g)` (42_cobs.md R87), with one unit of fuel for each full block it may still split off. -/
def blocksFuel : Nat → List Byte → List Byte
  | 0, g => BitVec.ofNat 8 (g.length + 1) :: g
  | n + 1, g =>
    if 254 ≤ g.length then 0xFF#8 :: g.take 254 ++ blocksFuel n (g.drop 254)
    else BitVec.ofNat 8 (g.length + 1) :: g

/-- `blocks(g)` (42_cobs.md R87). -/
def blocks (g : List Byte) : List Byte := blocksFuel g.length g

/-- `COBS(s)` (42_cobs.md R87). -/
def cobs (s : List Byte) : List Byte := (segments s).flatMap blocks

/-- `header ++ payload` (30_encoding.md R50). -/
def packetBody (t : Byte) (payload : List Byte) : List Byte := [protoVersion, t] ++ payload

/-- `packet` (30_encoding.md R50): header, payload, and the CRC-32 of both, little-endian. -/
def packet (t : Byte) (payload : List Byte) : List Byte :=
  packetBody t payload ++ le32 (crc32 (packetBody t payload) crc32Seed)

/-- `frame` of a packet (30_encoding.md R50). -/
def frame (p : List Byte) : List Byte := [0] ++ cobs p ++ [0]

/-- A decoded packet is valid (30_encoding.md R51). -/
def packetValid (p : List Byte) : Bool :=
  (headerSize ≤ p.length) && (crc32 p crc32Seed = 0) && (p.head? = some protoVersion)

/-- `FRAME_MAX(n) = n + 3 + floor(n / 254)` (43_protocol.md R101). -/
def frameMax (n : Nat) : Nat := n + 3 + n / 254

/-- The MEASUREMENTS payload (30_encoding.md R52). -/
def measurementPayload (temp hum : Word) : List Byte := le32 temp ++ le32 hum

end Sys2Proof.Machine
end

