-- ==== Sys2Proof/Machine/Sequencer.lean ====
section
/-! DEFINITION. CMD's micro-steps inside the macro commands (00_scope.md R10, 20_memory.md R44), and the loop that runs them
until the command ends or another agent is due (log 5). Micro-steps that no other agent can observe are fused (R44). -/

namespace Sys2Proof.Machine

/-! ### TX_COMMIT's effects and what follows them (40_ring_fifo.md R67) -/

/-- The end of a SENS_STEP that acted (44_sensor_bus.md R113): "every acted step is a transition". -/
def sensDone (now : Word) (fail emit sent : Bool) (s : State) : State :=
  let s1 := { s with sens := { s.sens with tlast := now } }
  s1.finish (sensActedWord s1.sens.state fail emit sent) true

/-- The lines of R113 after the send of a measurement: the event, the return to Clear, the end of the step. -/
def measurementDone (now : Word) (sent : Bool) (s : State) : State :=
  let s1 := s.emit (.meas s.sens.temp s.sens.hum sent)
  sensDone now false true sent
    { s1 with sens := { s1.sens with state := .clear, dwell := s1.cfg.dwellClear } }

/-- What the command does with `(okc, resc)`, the outcome of its TX_COMMIT: TX_COMMIT itself answers (40_ring_fifo.md R67),
PROTO_SEND emits its event and answers (43_protocol.md R103), a measurement is completed (44_sensor_bus.md R113). -/
def commitDone (after : After) (ok : Bool) (len : Word) (s : State) : State :=
  match after with
  | .txCommit => s.finish len ok
  | .protoSend t => (s.emit (.send t ok)).finish len ok
  | .measurement now => measurementDone now ok s

/-- The tests of TX_COMMIT (40_ring_fifo.md R67): a closed, complete frame, and room for all of it. One read of TX.RV. -/
def roomStep (after : After) (s : State) : State :=
  if s.enc.phase ≠ .closed ∨ s.enc.ovf = true then commitDone after false 0 s
  else if s.tx.free s.cfg.nTx < s.enc.len.toNat then commitDone after false 0 s
  else s.goto (.commit after 0 s.enc.len.toNat)

/-- One turn of TX_COMMIT's loop (40_ring_fifo.md R67): byte `j` of the frame is pushed, or all `len` have been. -/
def commitStep (after : After) (j len : Nat) (s : State) : Except Fault State :=
  if j < len then do
    let b ← readByte .encbuf s.cfg.txbufSize s.enc.buf j
    .ok ({ s with tx := s.tx.push s.cfg.nTx b }.goto (.commit after (j + 1) len))
  else .ok (commitDone after true (zextNat len) s)

/-! ### send_frame (43_protocol.md R101, R102) -/

/-- The raw length of a packet with a payload of `m` bytes (43_protocol.md R101). -/
def packetLength (m : Nat) : Nat := headerSize + m + crcSize

/-- The encoder after the whole frame of R102 has been built in ENCBUF: ENC_BEGIN, an ENC_PUT for every byte of header,
payload and CRC, ENC_END. -/
def buildFrame (size : Nat) (t : Byte) (payload : List Byte) (e : Enc) : Except Fault Enc := do
  let e1 ← e.start size
  let e2 ← e1.putAll size (packet t payload)
  e2.close size

/-- `send_frame(t, src, m)` up to its TX_COMMIT (43_protocol.md R102): a rejected send changes nothing; otherwise CRC32_ACC
holds the packet's CRC, ENCBUF the closed frame, and TX_COMMIT's effects are next. -/
def sendFrame (after : After) (t : Byte) (m : Nat) (src : Except Fault (List Byte)) (s : State) : Except Fault State :=
  if s.cfg.txbufSize < frameMax (packetLength m) then .ok (commitDone after false 0 s)
  else do
    let payload ← src
    let e ← buildFrame s.cfg.txbufSize t payload s.enc
    .ok ({ s with crc32 := crc32 (packetBody t payload) crc32Seed, enc := e }.goto (.room after))

/-! ### PROTO_POLL (43_protocol.md R104 to R107) -/

/-- One turn of `drain()`'s loop (43_protocol.md R104). The drain ends at RXCAND_SIZE bytes, at a ring empty as seen (one
read of RX.WV), or after a delimiter; a drain that popped nothing ends the command (R107). -/
def drainStep (acc : Word) (k : Nat) (s : State) : Except Fault State :=
  if s.cfg.rxcandSize ≤ k ∨ s.rx.avail s.cfg.nRx = 0 then
    .ok (if k = 0 then s.finish acc true else s.goto (.check acc))
  else do
    let x ← s.rx.peek .rxMem s.cfg.nRx 0
    let d := if k = 0 then s.dec.start else s.dec
    let s1 := { s with rx := s.rx.advance s.cfg.nRx, dec := d.put s.cfg.rxbufSize x }
    .ok (s1.goto (if x = 0 then .check acc else .drain acc (k + 1)))

/-- A discarded candidate: its event, and the next drain (43_protocol.md R107). -/
def discardCandidate (code : Discard) (acc : Word) (s : State) : State :=
  (s.emit (.discard code)).goto (.drain acc 0)

/-- `dispatch(t)` of an accepted packet (43_protocol.md R106), with `acc` packets accepted including this one. -/
def dispatch (t : Byte) (acc : Word) (s : State) : State :=
  if t = s.cfg.typeReset then haltReset (s.emit (.dispatch t))
  else if t = s.cfg.typeNopIn then (s.emit (.dispatch t)).goto (.drain acc 0)
  else (s.emit (.ignored t)).goto (.drain acc 0)

/-- The tests of `check()` that read DECBUF (43_protocol.md R105): the residue, then the version, then acceptance. -/
def checkPacket (p : List Byte) (acc : Word) (s : State) : State :=
  let s1 := { s with crc32 := crc32 p crc32Seed }
  if crc32 p crc32Seed ≠ 0 then discardCandidate .crc acc s1
  else if p.head? ≠ some protoVersion then discardCandidate .version acc s1
  else dispatch (p.getD 1 0) (acc + 1) s1

/-- `check()` (43_protocol.md R105), in the spec's order of tests, and what R107 does with its answer. -/
def checkStep (acc : Word) (s : State) : Except Fault State :=
  match s.dec.st with
  | .err => .ok (discardCandidate .decErr acc s)
  | .ovf => .ok (discardCandidate .decOvf acc s)
  | .more => .ok (discardCandidate .incomplete acc s)
  | .done =>
    if s.dec.len.toNat < headerSize then .ok (discardCandidate .undersize acc s)
    else do
      let p ← readBytes .decbuf s.cfg.rxbufSize s.dec.buf 0 s.dec.len.toNat
      .ok (checkPacket p acc s)

/-! ### Bus phases and transactions (44_sensor_bus.md R108, R109) -/

/-- What follows an answered phase: the next one of the transaction, or its stop. -/
def nextPhase (x : Xfer) : List Phase → Seq
  | [] => .postStop x true
  | ph :: todo => .request x ph todo

/-- `t0 <- now_ms()` (44_sensor_bus.md R109). -/
def xferStartStep (x : Xfer) (s : State) : State :=
  s.goto (nextPhase { x with t0 := s.clock, got := [] } (x.kind.phases s.cfg))

/-- `BUS_PEND <- (op, a, b, last)` (44_sensor_bus.md R108). -/
def requestStep (x : Xfer) (ph : Phase) (todo : List Phase) (s : State) : State :=
  { s with bus := { s.bus with pend := some ph } }.goto (.wait x ph todo)

/-- What a transaction makes of an answer (44_sensor_bus.md R109): DATA to a READ is kept, ACK goes on, anything else fails
(log 11: the last case meets only answers that R108 does not allow, or a NACK). -/
def afterAnswer (x : Xfer) (ph : Phase) (todo : List Phase) (r : BusAnswer) : Seq :=
  match ph.op, r with
  | .read, .data v => nextPhase { x with got := x.got ++ [v] } todo
  | .startW, .ack => nextPhase x todo
  | .startR, .ack => nextPhase x todo
  | .write, .ack => nextPhase x todo
  | _, _ => .postStop x false

/-- Whether a phase has timed out: `elapsed(now_ms(), t0) >= timeout` (44_sensor_bus.md R108, 90_conflicts.md C2). -/
def timedOut (x : Xfer) (s : State) : Bool := s.cfg.busTimeoutMs ≤ elapsed s.clock x.t0

/-- One wait step (44_sensor_bus.md R108): "tests for an answer before the timeout" (60_exceptions.md R121). -/
def waitStep (x : Xfer) (ph : Phase) (todo : List Phase) (s : State) : State :=
  match s.bus.rsp with
  | some r => { s with bus := { s.bus with pend := none, rsp := none } }.goto (afterAnswer x ph todo r)
  | none =>
    if timedOut x s then { s with bus := { s.bus with pend := none } }.goto (.postStop x false)
    else s

/-! ### SENS_STEP (44_sensor_bus.md R113) -/

/-- The first micro-step: `now` is sampled and the dwell tested; a state that acts starts its first transaction. -/
def sampleStep (s : State) : State :=
  if elapsed s.clock s.sens.tlast < s.sens.dwell then s.finish (sensIdleWord s.sens.state) true
  else
    s.goto (.xferStart
      { kind := match s.sens.state with
          | .clear => .trigT
          | .readTemperature => .readT
          | .readHumidity => .readRh
        now := s.clock, t0 := s.clock, got := [] })

/-- A failed transaction or CRC-8 test: the machine is in Clear with its dwell, and the step ends with `fail = 1`. -/
def sensFail (now : Word) (s : State) : State :=
  sensDone now true false false { s with sens := { s.sens with state := .clear, dwell := s.cfg.dwellClear } }

/-- The raw code of a 3-byte read (30_encoding.md R53). -/
def rawCode (d : List Byte) : Half := be16 (d.getD 0 0) (d.getD 1 0)

/-- What SENS_STEP does when a transaction has ended (44_sensor_bus.md R113), after its stop has been posted. -/
def xferDone (x : Xfer) (ok : Bool) (s : State) : Except Fault State :=
  match x.kind with
  | .trigT =>
    if ok then
      .ok (sensDone x.now false false false
        { s with sens := { s.sens with state := .readTemperature, dwell := s.cfg.dwellT } })
    else .ok (sensFail x.now s)
  | .readT =>
    if ok then
      let s1 := { s with crc8 := crcResidue x.got }
      if crcResidue x.got = 0 then
        .ok (s1.goto (.xferStart { x with kind := .trigRh (rawCode x.got) }))
      else .ok (sensFail x.now s1)
    else .ok (sensFail x.now s)
  | .trigRh code =>
    if ok then
      .ok (sensDone x.now false false false
        { s with sens := { s.sens with
            temp := i32 (convT code), state := .readHumidity, dwell := s.cfg.dwellRh } })
    else .ok (sensFail x.now s)
  | .readRh =>
    if ok then
      let s1 := { s with crc8 := crcResidue x.got }
      if crcResidue x.got = 0 then
        let s2 := { s1 with sens := { s1.sens with hum := i32 (convRh (rawCode x.got)) } }
        let payload := measurementPayload s2.sens.temp s2.sens.hum
        sendFrame (.measurement x.now) s2.cfg.typeMeasurements 8 (.ok payload) s2
      else .ok (sensFail x.now s1)
    else .ok (sensFail x.now s)

/-- `post_stop()` (44_sensor_bus.md R108), "on success and on every failure" (R109). -/
def postStopStep (x : Xfer) (ok : Bool) (s : State) : Except Fault State :=
  xferDone x ok { s with bus := { s.bus with stop := true } }

/-! ### The sequencer -/

/-- CMD's next micro-step in the command in progress; without one, nothing moves. -/
def microStep (s : State) : Except Fault State :=
  match s.seq with
  | .idle => .ok s
  | .room after => .ok (roomStep after s)
  | .commit after j len => commitStep after j len s
  | .drain acc k => drainStep acc k s
  | .check acc => checkStep acc s
  | .sample => .ok (sampleStep s)
  | .xferStart x => .ok (xferStartStep x s)
  | .request x ph todo => .ok (requestStep x ph todo s)
  | .wait x ph todo => .ok (waitStep x ph todo s)
  | .postStop x ok => postStopStep x ok s
  | .halted => .ok s

/-- A command is in progress that can take a micro-step. -/
def Seq.running : Seq → Bool
  | .idle => false
  | .halted => false
  | .room _ => true
  | .commit _ _ _ => true
  | .drain _ _ => true
  | .check _ => true
  | .sample => true
  | .xferStart _ => true
  | .request _ _ _ => true
  | .wait _ _ _ => true
  | .postStop _ _ => true

/-- CMD waits on a phase that has neither been answered nor timed out: a wait step would change nothing. -/
def State.blocked (s : State) : Bool :=
  match s.seq with
  | .wait x _ _ => s.bus.rsp.isNone && !timedOut x s
  | _ => false

/-- CMD's micro-steps, one after another, while no other agent is due: one for each leading `cmd` of the schedule, and, once
the schedule is empty, until the command ends or waits on the bus. At most `fuel` of them; the next step goes on from there. -/
def runMicro : Nat → State → Host.Outcome State Fault Refusal
  | 0, s => .next s
  | fuel + 1, s =>
    if s.seq.running then
      match s.sched with
      | [] =>
        if s.blocked then .next s
        else
          match microStep s with
          | .ok s' => runMicro fuel s'
          | .error f => .fault f
      | .cmd :: rest =>
        match microStep { s with sched := rest } with
        | .ok s' => runMicro fuel s'
        | .error f => .fault f
      | _ :: _ => .next s
    else .next s

/-- More micro-steps than CMD can take before it ends, waits, or another agent is due: rings hold fewer than 2^15 bytes and
frames fewer than 2^16, and each leading `cmd` of the schedule is one (log 5). -/
def microFuel (s : State) : Nat := 262144 + s.sched.length

/-- CMD goes on with the command in progress. -/
def resume (s : State) : Host.Outcome State Fault Refusal := runMicro (microFuel s) s

/-- A macro command is accepted: its first micro-step, at position `p`, belongs to the same turn of CMD; then CMD goes on. -/
def launch (p : Seq) (s : State) : Host.Outcome State Fault Refusal :=
  match microStep (s.goto p) with
  | .ok s' => resume s'
  | .error f => .fault f

end Sys2Proof.Machine
end

