-- ==== Sys2Proof/Machine/Protocol.lean ====
section
/-! DEFINITION. The packet protocol and the sensor step as commands (43_protocol.md R99 to R107, 44_sensor_bus.md R113). The
micro-steps of the macro commands are in Machine/Sequencer.lean. -/

namespace Sys2Proof.Machine

/-- PAY_CLR (43_protocol.md R99): PAYBUF is left as it is. -/
def execPayClr (s : State) : Host.Outcome State Fault Refusal :=
  .next ({ s with pay := { s.pay with len := 0 } }.respond 0 true)

/-- PAYBUF with one more byte (43_protocol.md R100). -/
def Pay.append (p : Pay) (b : Byte) : Pay :=
  { buf := p.buf.write p.len.toNat b, len := p.len + 1 }

/-- PAY_PUT (43_protocol.md R100). -/
def execPayPut (b : Byte) (s : State) : Host.Outcome State Fault Refusal :=
  if s.pay.len.toNat < s.cfg.payMax then
    .next ({ s with pay := s.pay.append b }.respond (zext16 (s.pay.len + 1)) true)
  else .next (s.respond (zext16 s.pay.len) false)

/-- PROTO_SEND (43_protocol.md R103): the frame is built (R102), then TX_COMMIT's effects follow. A send that fails the size
check answers at once. -/
def execProtoSend (t : Byte) (s : State) : Host.Outcome State Fault Refusal :=
  match sendFrame (.protoSend t) t s.pay.len.toNat
      (readBytes .paybuf s.cfg.payMax s.pay.buf 0 s.pay.len.toNat) s with
  | .ok s' => launch s'.seq s'
  | .error f => .fault f

/-- PROTO_POLL (43_protocol.md R107): it begins with a drain, and no packet accepted. -/
def execProtoPoll (s : State) : Host.Outcome State Fault Refusal :=
  launch (.drain 0 0) s

/-- SENS_STEP (44_sensor_bus.md R113). -/
def execSensStep (s : State) : Host.Outcome State Fault Refusal :=
  launch .sample s

end Sys2Proof.Machine
end

