-- ==== Sys2Proof/Machine/System.lean ====
section
/-! DEFINITION. The system commands (45_system.md): NOP, CSR_RD and the illegal command. -/

namespace Sys2Proof.Machine

/-- The value of CSR `n` (10_state.md R27), none for a reserved number 0x13 to 0xFF. -/
def csrValue (n : Byte) (s : State) : Option Word :=
  match n.toNat with
  | 0x00 => some (statusWord s.ill)
  | 0x01 => some (idWord s.cfg)
  | 0x02 => some (zextNat (s.rx.r % s.cfg.nRx))
  | 0x03 => some (zextNat (s.rx.wv % s.cfg.nRx))
  | 0x04 => some (zextNat (s.tx.w % s.cfg.nTx))
  | 0x05 => some (zextNat (s.tx.rv % s.cfg.nTx))
  | 0x06 => some s.crc32
  | 0x07 => some (zext8 s.crc8)
  | 0x08 => some (encStatWord s.enc)
  | 0x09 => some (zext16 s.enc.len)
  | 0x0A => some (zext16 s.enc.cp)
  | 0x0B => some (decStatWord s.dec)
  | 0x0C => some (zext16 s.dec.len)
  | 0x0D => some (zext16 s.pay.len)
  | 0x0E => some (0#30 ++ sensStateBits s.sens.state)
  | 0x0F => some s.sens.tlast
  | 0x10 => some s.sens.dwell
  | 0x11 => some s.sens.temp
  | 0x12 => some s.sens.hum
  | _ => none

/-- The illegal outcome (45_system.md R116, R117): STATUS.ILL set, RES 0, OK 0. -/
def illegalOutcome (s : State) : State := { s with ill := true }.respond 0 false

/-- NOP (45_system.md R115). -/
def execNop (s : State) : Host.Outcome State Fault Refusal :=
  .next (s.respond 0 true)

/-- CSR_RD (45_system.md R116). -/
def execCsrRd (n : Byte) (s : State) : Host.Outcome State Fault Refusal :=
  match csrValue n s with
  | some v => .next (s.respond v true)
  | none => .next (illegalOutcome s)

/-- A reserved opcode (45_system.md R117); its ARG is ignored. -/
def execIllegal (s : State) : Host.Outcome State Fault Refusal :=
  .next (illegalOutcome s)

end Sys2Proof.Machine
end

