-- ==== Sys2Proof/Machine/Transport.lean ====
section
/-! DEFINITION. The commands and port operations that touch a ring (40_ring_fifo.md R62 to R69). -/

namespace Sys2Proof.Machine

/-- RX_AVAIL (40_ring_fifo.md R62). -/
def execRxAvail (s : State) : Host.Outcome State Fault Refusal :=
  .next (s.respond (zextNat (s.rx.avail s.cfg.nRx)) true)

/-- RX_PEEK (40_ring_fifo.md R63). -/
def execRxPeek (i : Half) (s : State) : Host.Outcome State Fault Refusal :=
  if i.toNat < s.rx.avail s.cfg.nRx then
    outcomeOf do
      let b ← s.rx.peek .rxMem s.cfg.nRx i.toNat
      .ok (s.respond (zext8 b) true)
  else .next (s.respond 0 false)

/-- RX_POP (40_ring_fifo.md R64). -/
def execRxPop (s : State) : Host.Outcome State Fault Refusal :=
  if 0 < s.rx.avail s.cfg.nRx then
    outcomeOf do
      let b ← s.rx.peek .rxMem s.cfg.nRx 0
      .ok ({ s with rx := s.rx.advance s.cfg.nRx }.respond (zext8 b) true)
  else .next (s.respond 0 false)

/-- TX_FREE (40_ring_fifo.md R65). -/
def execTxFree (s : State) : Host.Outcome State Fault Refusal :=
  .next (s.respond (zextNat (s.tx.free s.cfg.nTx)) true)

/-- TX_PUSH (40_ring_fifo.md R66). -/
def execTxPush (b : Byte) (s : State) : Host.Outcome State Fault Refusal :=
  if 0 < s.tx.free s.cfg.nTx then
    .next ({ s with tx := s.tx.push s.cfg.nTx b }.respond 1 true)
  else .next (s.respond 0 false)

/-- TX_COMMIT (40_ring_fifo.md R67): a macro command. -/
def execTxCommit (s : State) : Host.Outcome State Fault Refusal :=
  launch (.room .txCommit) s

/-- LRX_PUSH (40_ring_fifo.md R68): one handshake of the link RX port. A refused byte is lost. -/
def execLrxPush (b : Byte) (s : State) : Host.Outcome State Fault Refusal :=
  if 0 < s.rx.free s.cfg.nRx then
    .next { s with rx := s.rx.push s.cfg.nRx b, rxAccept := true }
  else .next { s with rxAccept := false }

/-- LTX_POP (40_ring_fifo.md R69): one handshake of the link TX port. -/
def execLtxPop (s : State) : Host.Outcome State Fault Refusal :=
  if 0 < s.tx.avail s.cfg.nTx then
    outcomeOf do
      let b ← s.tx.peek .txMem s.cfg.nTx 0
      .ok { s with tx := s.tx.advance s.cfg.nTx, txValid := true, txData := b }
  else .next { s with txValid := false }

end Sys2Proof.Machine
end

