-- ==== Sys2Proof/Machine/Dispatch.lean ====
section
/-! DEFINITION. The dispatch: one arm per constructor of `Instr`, each one call of its meaning. -/

namespace Sys2Proof.Machine

/-- What an instruction does: a command from its acceptance, a port operation as its one handshake. -/
def exec (i : Instr) (s : State) : Host.Outcome State Fault Refusal :=
  match i with
  | .nop => Sys2Proof.Machine.execNop s
  | .csrRd n => Sys2Proof.Machine.execCsrRd n s
  | .rxAvail => Sys2Proof.Machine.execRxAvail s
  | .rxPeek k => Sys2Proof.Machine.execRxPeek k s
  | .rxPop => Sys2Proof.Machine.execRxPop s
  | .txFree => Sys2Proof.Machine.execTxFree s
  | .txPush b => Sys2Proof.Machine.execTxPush b s
  | .txCommit => Sys2Proof.Machine.execTxCommit s
  | .crc32Seed v => Sys2Proof.Machine.execCrc32Seed v s
  | .crc32Put b => Sys2Proof.Machine.execCrc32Put b s
  | .crc32Rd => Sys2Proof.Machine.execCrc32Rd s
  | .crc8Init => Sys2Proof.Machine.execCrc8Init s
  | .crc8Put b => Sys2Proof.Machine.execCrc8Put b s
  | .crc8Rd => Sys2Proof.Machine.execCrc8Rd s
  | .encBegin => Sys2Proof.Machine.execEncBegin s
  | .encPut b => Sys2Proof.Machine.execEncPut b s
  | .encEnd => Sys2Proof.Machine.execEncEnd s
  | .encRd k => Sys2Proof.Machine.execEncRd k s
  | .decBegin => Sys2Proof.Machine.execDecBegin s
  | .decPut x => Sys2Proof.Machine.execDecPut x s
  | .decRd k => Sys2Proof.Machine.execDecRd k s
  | .payClr => Sys2Proof.Machine.execPayClr s
  | .payPut b => Sys2Proof.Machine.execPayPut b s
  | .protoSend t => Sys2Proof.Machine.execProtoSend t s
  | .protoPoll => Sys2Proof.Machine.execProtoPoll s
  | .sensStep => Sys2Proof.Machine.execSensStep s
  | .lrxPush b => Sys2Proof.Machine.execLrxPush b s
  | .ltxPop => Sys2Proof.Machine.execLtxPop s
  | .illegal _ => Sys2Proof.Machine.execIllegal s

end Sys2Proof.Machine
end

