-- ==== Sys2Proof/Machine/Ports.lean ====
section
/-! DEFINITION. The signals of the block's ports (10_state.md R14) as functions of the state. `rx_accept`, `tx_valid`, `tx_data`
and `rsp_valid` are fields of the state; `rsp_res` and `rsp_ok` are RES and OK. -/

namespace Sys2Proof.Machine

/-- `cmd_ready`: no command is in progress and HALTED = 0 (30_encoding.md R55, 10_state.md R26). -/
def State.cmdReady (s : State) : Bool := s.seq = .idle && !s.halted

/-- `cmd_valid`: the controller presents a command. -/
def State.cmdValid (s : State) : Bool := !s.cmds.isEmpty

/-- `rsp_res`, `rsp_ok` (10_state.md R14), while `rsp_valid`. -/
def State.response (s : State) : Option (Word × Bool) := if s.rspValid then some (s.res, s.ok) else none

/-- `rst_req` (10_state.md R26). -/
def State.rstReq (s : State) : Bool := s.halted

/-- `bus_req`: a phase is requested and not yet answered (44_sensor_bus.md R108: BUS_PEND drives it), or a stop is posted
(DESIGN CHOICE, log 8: R108 does not say what requests a posted stop). -/
def State.busReq (s : State) : Bool := s.bus.pend.isSome || s.bus.stop

/-- `bus_op`: the phase's code, or 4 for a posted stop (44_sensor_bus.md R108). While both are posted it shows the stop, which
BUS takes first (DESIGN CHOICE, log 8). -/
def State.busOp (s : State) : Option (BitVec 3) :=
  if s.bus.stop then some 4 else s.bus.pend.map fun ph => busOpBits ph.op

/-- `bus_addr` (44_sensor_bus.md R108). -/
def State.busAddr (s : State) : Option BusAddr := s.bus.pend.map Phase.addr

/-- `bus_wdata` (44_sensor_bus.md R108). -/
def State.busWdata (s : State) : Option Byte := s.bus.pend.map Phase.wdata

/-- `bus_last` (44_sensor_bus.md R108). -/
def State.busLast (s : State) : Option Bool := s.bus.pend.map Phase.last

/-- `bus_done` (44_sensor_bus.md R108). -/
def State.busDone (s : State) : Bool := s.bus.rsp.isSome

/-- `bus_ack`: the answer is ACK (44_sensor_bus.md R108). It is 0 while the answer is a READ's DATA, and while there is none
(DESIGN CHOICE, log 8: R108 gives it no value there). -/
def State.busAck (s : State) : Bool := s.bus.rsp = some .ack

/-- `bus_rdata` (44_sensor_bus.md R108). -/
def State.busRdata (s : State) : Option Byte :=
  match s.bus.rsp with
  | some (.data v) => some v
  | _ => none

end Sys2Proof.Machine
end

