-- ==== Sys2Proof/Machine/Turn.lean ====
section
/-! DEFINITION. How the ports' words reach `exec`: acceptance of a command by CMD (30_encoding.md R55), the handshakes of the
two link ports (40_ring_fifo.md R68, R69), and the turn of each agent (00_scope.md R10). -/

namespace Sys2Proof.Machine

/-- A port's handshake: the instruction its word stands for runs; an idle port has no handshake. -/
def handshake (w : PortWord) (s : State) : Host.Outcome State Fault Refusal :=
  match decode w with
  | .ok i => exec i s
  | .error _ => .next s

/-- The state in which an accepted command runs: it has left the port, and its response is awaited. -/
def State.accept (s : State) : State := { s with cmds := s.cmds.tail, rspValid := false }

/-- CMD's turn without a command in progress: it accepts the command presented when `cmd_ready` (30_encoding.md R55), and
otherwise does nothing (60_exceptions.md R130). -/
def acceptTurn (s : State) : Host.Outcome State Fault Refusal :=
  match s.cmds with
  | [] => .next s
  | c :: _ => if s.cmdReady then handshake (.command c.op c.arg) s.accept else .next s

/-- The turn of the agent that heads the schedule, `rest` being what follows it; an empty schedule is CMD's turn (log 1). A
command in progress takes its own entries of the schedule. -/
def agentTurn (s : State) : Host.Outcome State Fault Refusal :=
  match s.sched with
  | [] => if s.seq.running then resume s else acceptTurn s
  | .cmd :: rest => if s.seq.running then resume s else acceptTurn { s with sched := rest }
  | .lrx b :: rest => handshake (.linkRx true b) { s with sched := rest }
  | .ltx :: rest => handshake (.linkTx true) { s with sched := rest }
  | .sync view v :: rest => .next (syncStep view v { s with sched := rest })
  | .busAnswer r :: rest => .next (busAnswerStep r { s with sched := rest })
  | .busTakeStop :: rest => .next (busTakeStopStep { s with sched := rest })
  | .clk d :: rest => .next (clkStep d { s with sched := rest })
  | .rst :: rest => .next (resetEvent { s with sched := rest })

end Sys2Proof.Machine
end

