-- ==== Sys2Proof/Machine/Step.lean ====
section
/-! DEFINITION. One step of the machine: the turn of one agent. A configuration that breaks 00_scope.md R7 or R8 is refused. -/

namespace Sys2Proof.Machine

/-- One step: in a configuration the spec allows, the turn of the agent that is next. -/
def step (s : State) : Host.Outcome State Fault Refusal :=
  match s.cfg.valid with
  | true => agentTurn s
  | false => .refused .badConfiguration

/-- `s` with the command of the host's word (log 9) on the command port, first in the controller's stream, with CMD ready and
its turn next, so that the very next step accepts and runs it (log 2). -/
def State.withFetchWord (s : State) (nbits w : Nat) : State :=
  { s with
    cmds := { op := (commandOfWord nbits w).1, arg := (commandOfWord nbits w).2 } :: s.cmds
    sched := .cmd :: s.sched
    seq := .idle
    halted := false }

end Sys2Proof.Machine
end

