-- ==== Sys2Proof/Machine/Listing.lean ====
section
/-! DEFINITION. The assembler text and the listing of 30_encoding.md R60, written out. Operands are written in hexadecimal, one
of the two forms R60 allows. -/

namespace Sys2Proof.Machine

/-- `digits` hexadecimal digits of `n`, most significant first. -/
def hexDigits : (digits n : Nat) → String
  | 0, _ => ""
  | d + 1, n => (hexDigits d (n / 16)).push ("0123456789ABCDEF".toList.getD (n % 16) '0')

/-- `0x` and the digits. -/
def hexText (digits n : Nat) : String := "0x" ++ hexDigits digits n

/-- The CSR names a CSR_RD operand may be written with (30_encoding.md R60, 10_state.md R27), by number. -/
def csrNames : List String :=
  ["STATUS", "ID", "RX_R", "RX_WV", "TX_W", "TX_RV", "CRC32", "CRC8", "ENC_STAT", "ENC_LEN", "ENC_CP", "DEC_STAT",
    "DEC_LEN", "PAY_LEN", "SENS_STATE", "SENS_TLAST", "SENS_DWELL", "SENS_TEMP", "SENS_HUM"]

/-- A CSR_RD operand: the CSR's name, or a reserved number. -/
def csrText (n : Byte) : String := csrNames.getD n.toNat (hexText 2 n.toNat)

/-- The row's mnemonic in the opcode table (30_encoding.md R57). -/
def mnemonic : Instr → String
  | .nop => "NOP"
  | .csrRd _ => "CSR_RD"
  | .rxAvail => "RX_AVAIL"
  | .rxPeek _ => "RX_PEEK"
  | .rxPop => "RX_POP"
  | .txFree => "TX_FREE"
  | .txPush _ => "TX_PUSH"
  | .txCommit => "TX_COMMIT"
  | .crc32Seed _ => "CRC32_SEED"
  | .crc32Put _ => "CRC32_PUT"
  | .crc32Rd => "CRC32_RD"
  | .crc8Init => "CRC8_INIT"
  | .crc8Put _ => "CRC8_PUT"
  | .crc8Rd => "CRC8_RD"
  | .encBegin => "ENC_BEGIN"
  | .encPut _ => "ENC_PUT"
  | .encEnd => "ENC_END"
  | .encRd _ => "ENC_RD"
  | .decBegin => "DEC_BEGIN"
  | .decPut _ => "DEC_PUT"
  | .decRd _ => "DEC_RD"
  | .payClr => "PAY_CLR"
  | .payPut _ => "PAY_PUT"
  | .protoSend _ => "PROTO_SEND"
  | .protoPoll => "PROTO_POLL"
  | .sensStep => "SENS_STEP"
  | .lrxPush _ => "LRX_PUSH"
  | .ltxPop => "LTX_POP"
  | .illegal _ => "ILLEGAL"

/-- The operand's text, for the forms that have one (30_encoding.md R56, R60). -/
def operandText : Instr → Option String
  | .csrRd n => some (csrText n)
  | .rxPeek i => some (hexText 4 i.toNat)
  | .txPush b => some (hexText 2 b.toNat)
  | .crc32Seed v => some (hexText 8 v.toNat)
  | .crc32Put b => some (hexText 2 b.toNat)
  | .crc8Put b => some (hexText 2 b.toNat)
  | .encPut b => some (hexText 2 b.toNat)
  | .encRd i => some (hexText 4 i.toNat)
  | .decPut x => some (hexText 2 x.toNat)
  | .decRd i => some (hexText 4 i.toNat)
  | .payPut b => some (hexText 2 b.toNat)
  | .protoSend t => some (hexText 2 t.toNat)
  | .lrxPush b => some (hexText 2 b.toNat)
  | .nop => none
  | .rxAvail => none
  | .rxPop => none
  | .txFree => none
  | .txCommit => none
  | .crc32Rd => none
  | .crc8Init => none
  | .crc8Rd => none
  | .encBegin => none
  | .encEnd => none
  | .decBegin => none
  | .payClr => none
  | .protoPoll => none
  | .sensStep => none
  | .ltxPop => none
  | .illegal _ => none

/-- `MNEMONIC` or `MNEMONIC operand` (30_encoding.md R60). -/
def asmText (i : Instr) : String :=
  match operandText i with
  | none => mnemonic i
  | some o => mnemonic i ++ " " ++ o

/-- `op=0xNN arg=0xXXXXXXXX`, "with the unused ARG bits 0" (30_encoding.md R60); none for a port operation. -/
def listingText (i : Instr) : Option String :=
  match encode i with
  | .command op arg => some ("op=" ++ hexText 2 op.toNat ++ " arg=" ++ hexText 8 arg.toNat)
  | .linkRx _ _ => none
  | .linkTx _ => none

end Sys2Proof.Machine
end

