-- ==== Sys2Proof/Machine/Pseudo.lean ====
section
/-! DEFINITION. The pseudo-instructions of 30_encoding.md R61: controller programs over the commands. They are no instructions of
the block: the controller presents their commands on the command port one by one, and the machine steps as ever. -/

namespace Sys2Proof.Machine

/-! ### The controller -/

/-- The response to one command: `rsp_res`, `rsp_ok` (10_state.md R14). -/
structure Answer where
  res : Word
  ok : Bool
deriving DecidableEq, Repr

/-- How a controller's program ended within the steps it was given. -/
inductive Ending where
  /-- Every command was answered, or the expansion stopped at one of its answers. -/
  | finished
  /-- A reset abandoned the command in progress, which is never answered (70_reset_and_hazards.md R131). -/
  | abandoned
  /-- The steps are used up: a command is still on the port (CMD busy or halted, R55, R123) or still in progress. -/
  | waiting
  /-- The machine stopped. -/
  | stopped
deriving DecidableEq, Repr

/-- What came of a controller's program: the answers it got, oldest first, how it ended, and the machine after the last step. -/
structure Played where
  answers : List Answer
  ending : Ending
  last : Host.Outcome State Fault Refusal

/-- The controller drives the next command of its program on the command port (30_encoding.md R55); none, if there is none. -/
def offer (is : List Instr) (s : State) : State :=
  match is.head?.map encode with
  | some (.command op arg) => { s with cmds := { op := op, arg := arg } :: s.cmds }
  | _ => s

/-- The controller runs a program, command by command, for at most `n` steps of the machine. `s` has the first command of the
program on the port, or, once `accepted`, in progress. Each step is any agent's that the schedule names, so other agents step
between the commands and inside a macro command ("An expansion is not atomic", 30_encoding.md R61). A command counts as accepted
when it leaves the port, which it does only with `cmd_ready` (R55), and as answered when `rsp_valid` comes; the next one is
presented while `goOn` holds of the answer. -/
def play (goOn : Answer → Bool) : (n : Nat) → (accepted : Bool) → List Instr → List Answer → State → Played
  | 0, _, is, got, s => { answers := got, ending := if is.isEmpty then .finished else .waiting, last := .next s }
  | n + 1, accepted, is, got, s =>
    if is.isEmpty then { answers := got, ending := .finished, last := .next s }
    else
      match step s with
      | .next t =>
        if accepted || decide (t.cmds.length < s.cmds.length) then
          if t.rspValid then
            let a : Answer := { res := t.res, ok := t.ok }
            if goOn a then play goOn n false is.tail (got ++ [a]) (offer is.tail t)
            else { answers := got ++ [a], ending := .finished, last := .next t }
          else if t.seq = .idle then { answers := got, ending := .abandoned, last := .next t }
          else play goOn n true is got t
        else play goOn n false is got t
      | o => { answers := got, ending := .stopped, last := o }

/-- The effects of a list of commands, one after the other, as long as `goOn` holds of the state after each, with nothing
between them: what the whole-frame rules of 42_cobs.md (R94, R98) speak of. The list of words is the RES of every command that
answered OK = 1. No pseudo-instruction is defined by it: `play` is the controller. -/
def issue (goOn : State → Bool) : List Instr → State → List Word × Host.Outcome State Fault Refusal
  | [], s => ([], .next s)
  | i :: is, s =>
    match exec i s with
    | .next s' =>
      let got := if s'.ok then [s'.res] else []
      if goOn s' then
        match issue goOn is s' with
        | (rs, o) => (got ++ rs, o)
      else (got, .next s')
    | .fault f => ([], .fault f)
    | .refused r => ([], .refused r)

/-! ### The nine rows of R61 -/

/-- The pseudo-instructions (30_encoding.md R61). -/
inductive Pseudo where
  /-- `rx.peek count`. -/
  | rxPeek (count : Nat)
  /-- `rx.read count`. -/
  | rxRead (count : Nat)
  /-- `rx.read_until count, d`. -/
  | rxReadUntil (count : Nat) (d : Byte)
  /-- `tx.write s`. -/
  | txWrite (bs : List Byte)
  /-- `crc32 s, seed`. -/
  | crc32 (bs : List Byte) (seed : Word)
  /-- `crc8 s`. -/
  | crc8 (bs : List Byte)
  /-- `cobs.encode s`. -/
  | cobsEncode (bs : List Byte)
  /-- `cobs.decode s`. -/
  | cobsDecode (bs : List Byte)
  /-- `send t, s`. -/
  | send (t : Byte) (bs : List Byte)
deriving DecidableEq, Repr

/-- The commands of the expansion (30_encoding.md R61, third column). An offset that 16 bits cannot hold is never reached: the
RX_PEEK before it answers OK = 0 (40_ring_fifo.md R63). -/
def Pseudo.commands : Pseudo → List Instr
  | .rxPeek count => (List.range count).map fun i => .rxPeek (BitVec.ofNat 16 i)
  | .rxRead count => List.replicate count .rxPop
  | .rxReadUntil count _ => List.replicate count .rxPop
  | .txWrite bs => bs.map .txPush
  | .crc32 bs seed => .crc32Seed seed :: bs.map .crc32Put
  | .crc8 bs => .crc8Init :: bs.map .crc8Put
  | .cobsEncode bs => .encBegin :: bs.map .encPut ++ [.encEnd]
  | .cobsDecode bs => .decBegin :: bs.map .decPut
  | .send t bs => .payClr :: bs.map .payPut ++ [.protoSend t]

/-- "Each expansion stops at the first command whose OK is 0" (30_encoding.md R61); `rx.read_until` stops also after its
delimiter, `cobs.decode` goes on only "while the last RES = 0 (MORE)". -/
def Pseudo.goOn : Pseudo → Answer → Bool
  | .rxReadUntil _ d, a => a.ok && a.res ≠ zext8 d
  | .cobsDecode _, a => a.ok && a.res = 0
  | .rxPeek _, a => a.ok
  | .rxRead _, a => a.ok
  | .txWrite _, a => a.ok
  | .crc32 _ _, a => a.ok
  | .crc8 _, a => a.ok
  | .cobsEncode _, a => a.ok
  | .send _ _, a => a.ok

/-- The controller runs the pseudo-instruction for at most `n` steps of the machine. -/
def Pseudo.play (p : Pseudo) (n : Nat) (s : State) : Played :=
  Sys2Proof.Machine.play p.goOn n false p.commands [] (offer p.commands s)

/-- What a pseudo-instruction gives the controller. -/
inductive PseudoResult where
  | bytes (bs : List (Option Byte))
  | count (n : Nat)
  | word (v : Word)
  | sent (ok : Bool)
  /-- The condition of the row's result does not hold. -/
  | nothing
deriving DecidableEq, Repr

/-- The bytes of the OK = 1 answers. -/
def okBytes (as : List Answer) : List (Option Byte) :=
  (as.filter Answer.ok).map fun a => some (a.res.setWidth 8)

/-- `S[0 .. len - 1]` as the machine holds it. -/
def bytesBelow (s : State) (sp : Space) (len : Half) : List (Option Byte) := (List.range len.toNat).map (s.byteAt sp)

/-- The result of an expansion that finished in state `s` with the answers `as` (30_encoding.md R61, fourth column). The last
command was issued exactly when every command has an answer. `send` gives "the OK of PROTO_SEND"; where a PAY_PUT answered OK = 0
and PROTO_SEND was never issued, R61 gives no result, and the model answers `.sent false` (DESIGN CHOICE, log 16). -/
def Pseudo.result (p : Pseudo) (as : List Answer) (s : State) : PseudoResult :=
  let last := as.getLast?.getD { res := 0, ok := false }
  let allIssued := as.length = p.commands.length
  match p with
  | .rxPeek _ => .bytes (okBytes as)
  | .rxRead _ => .bytes (okBytes as)
  | .rxReadUntil _ _ => .bytes (okBytes as)
  | .txWrite _ => .count (as.filter Answer.ok).length
  | .crc32 _ _ => .word last.res
  | .crc8 _ => .word last.res
  | .cobsEncode _ => if allIssued ∧ last.ok = true then .bytes (bytesBelow s .encbuf s.enc.len) else .nothing
  | .cobsDecode _ => if last.ok = true ∧ last.res = 1 then .bytes (bytesBelow s .decbuf s.dec.len) else .nothing
  | .send _ _ => .sent (allIssued && last.ok)

end Sys2Proof.Machine
end

