-- ==== Sys2Proof/Safety.lean ====
section
/-! DEFINITION. What counts as a safe state and a safe run, in the terms the statements use: the invariants of 20_memory.md R40
and 10_state.md R18 to R26, the ring as a queue (20_memory.md R42), and the fairness of 70_reset_and_hazards.md R134. -/

namespace Sys2Proof.Machine

/-! ### The ring as a queue (20_memory.md R40, R42) -/

/-- The `k` bytes from the head of the ring on, as its slots hold them. -/
def Ring.slots (n k : Nat) (q : Ring) : List (Option Byte) :=
  (List.range k).map fun i => q.mem.read ((q.r + i) % n)

/-- The bytes truly held by the ring, oldest first: `count(q)` of them (20_memory.md R40). -/
def Ring.contents (n : Nat) (q : Ring) : List (Option Byte) := q.slots n (q.count n)

/-- The bytes the consumer sees, oldest first: `avail(q)` of them (10_state.md R19). -/
def Ring.visible (n : Nat) (q : Ring) : List (Option Byte) := q.slots n (q.avail n)

/-! ### The invariant -/

/-- A byte space in canonical form, with no byte at or beyond its size, and every byte below `len` written. -/
abbrev Memory.good (m : Memory) (size len : Nat) : Prop :=
  m.wf ∧ (∀ c ∈ m, c.1 < size) ∧ ∀ i, i < len → (m.read i).isSome = true

/-- 10_state.md R18, R19 and 20_memory.md R38, R40 of one ring, and that every byte it holds has been written (R41). -/
abbrev Ring.good (n : Nat) (q : Ring) : Prop :=
  q.mem.good n 0 ∧ q.w < n ∧ q.r < n ∧ q.wv < n ∧ q.rv < n ∧
  q.wg = gray q.w ∧ q.rg = gray q.r ∧
  q.avail n ≤ q.count n ∧
  subMod n q.r q.rv + q.count n ≤ n - 1 ∧
  ∀ i, i < q.count n → (q.mem.read ((q.r + i) % n)).isSome = true

/-- 10_state.md R21 and 42_cobs.md R89 of the encoder: once a frame has begun, ENC_CP lies below ENC_LEN, which counts the open
block; ENC_CODE is 1 to 254, or 255 after an overflow. -/
abbrev Enc.good (size : Nat) (e : Enc) : Prop :=
  e.buf.good size e.len.toNat ∧ e.len.toNat ≤ size ∧ e.code ≠ 0 ∧ (e.code = 0xFF#8 → e.ovf = true) ∧
  (e.phase ≠ .idle → 1 ≤ e.cp.toNat ∧ e.cp.toNat < e.len.toNat) ∧
  (e.phase = .opened → e.len.toNat = e.cp.toNat + e.code.toNat)

/-- 10_state.md R22 of the decoder. -/
abbrev Dec.good (size : Nat) (d : Dec) : Prop :=
  d.buf.good size d.len.toNat ∧ d.len.toNat ≤ size ∧ d.rem.toNat ≤ 254 ∧ (d.have_ = false → d.rem = 0)

/-- 10_state.md R23 of the payload buffer. -/
abbrev Pay.good (size : Nat) (p : Pay) : Prop :=
  p.buf.good size p.len.toNat ∧ p.len.toNat ≤ size

/-- The bus port agrees with the sequencer (44_sensor_bus.md R108): a phase is pending exactly while CMD waits on it, and an
answer not yet taken is one the table allows. -/
def busGood (s : State) : Bool :=
  match s.seq with
  | .wait _ ph _ =>
    (s.bus.pend = some ph) &&
      match s.bus.rsp with
      | none => true
      | some r => answerAllowed ph.op r
  | _ => s.bus.pend.isNone && s.bus.rsp.isNone

/-- The sequencer agrees with the units: TX_COMMIT's loop runs over a closed frame that still fits (40_ring_fifo.md R67), and
CMD has stopped exactly when HALTED = 1 (60_exceptions.md R123). -/
def seqGood (s : State) : Bool :=
  match s.seq with
  | .commit _ j len =>
    (s.enc.phase = .closed) && (len = s.enc.len.toNat) && (j ≤ len) && (len - j ≤ s.tx.free s.cfg.nTx) && !s.halted
  | .halted => s.halted
  | _ => !s.halted

/-- The invariant of every state a run from reset reaches, in a configuration the spec allows. -/
structure State.Good (s : State) : Prop where
  cfg : s.cfg.valid = true
  rx : s.rx.good s.cfg.nRx
  tx : s.tx.good s.cfg.nTx
  enc : s.enc.good s.cfg.txbufSize
  dec : s.dec.good s.cfg.rxbufSize
  pay : s.pay.good s.cfg.payMax
  seq : seqGood s = true
  bus : busGood s = true

/-! ### Frames: the parts of the state that a command or an agent leaves alone -/

/-- The registers that belong to another clock domain than CORE, or to another agent than CMD (10_state.md R18, R15; 20_memory.md
R47): no command writes one. -/
def sameForeign (s t : State) : Prop :=
  t.cfg = s.cfg ∧ t.clock = s.clock ∧
  t.rx.mem = s.rx.mem ∧ t.rx.w = s.rx.w ∧ t.rx.wg = s.rx.wg ∧ t.rx.wv = s.rx.wv ∧ t.rx.rv = s.rx.rv ∧
  t.tx.r = s.tx.r ∧ t.tx.rg = s.tx.rg ∧ t.tx.wv = s.tx.wv ∧ t.tx.rv = s.tx.rv ∧
  t.rxAccept = s.rxAccept ∧ t.txValid = s.txValid ∧ t.txData = s.txData

/-- Every byte of memory, but for those `stored` names, reads as before. -/
def sameBytesBut (stored : Space → Nat → Prop) (s t : State) : Prop :=
  ∀ sp a, ¬ stored sp a → t.byteAt sp a = s.byteAt sp a

/-- No byte of memory is stored to. -/
def nothingStored : Space → Nat → Prop := fun _ _ => False

/-- The bytes `bs` stand in the space from index 0 on. -/
def holdsBytes (s : State) (sp : Space) (bs : List Byte) : Prop :=
  ∀ i (h : i < bs.length), s.byteAt sp i = some bs[i]

/-- Every piece of CORE state (10_state.md R13) but the two views RX.WV and TX.RV, which the synchronisers write (R18), and the bus
port, whose BUS_RSP and BUS_STOP the BUS agent writes (44_sensor_bus.md R108): what only CMD and rst write. -/
def sameCore (s t : State) : Prop :=
  t.cfg = s.cfg ∧ t.crc32 = s.crc32 ∧ t.crc8 = s.crc8 ∧ t.enc = s.enc ∧ t.dec = s.dec ∧ t.pay = s.pay ∧
  t.sens = s.sens ∧ t.ill = s.ill ∧ t.halted = s.halted ∧ t.res = s.res ∧ t.ok = s.ok ∧ t.rspValid = s.rspValid ∧
  t.seq = s.seq ∧ t.cmds = s.cmds ∧ t.trace = s.trace ∧
  t.rx.r = s.rx.r ∧ t.rx.rg = s.rx.rg ∧ t.tx.w = s.tx.w ∧ t.tx.wg = s.tx.wg ∧ t.tx.mem = s.tx.mem

/-! ### Runs and fairness (00_scope.md R10, 70_reset_and_hazards.md R134) -/

/-- An infinite run: each state is one step from the one before, and the environment adds `more k` to the schedule after the
`k`-th step. -/
def IsRun (st : Nat → State) (more : Nat → List Agent) : Prop :=
  ∀ k, ∃ t, step (st k) = .next t ∧ st (k + 1) = { t with sched := t.sched ++ more k }

/-- A view, and the index it follows (40_ring_fifo.md R70). -/
def viewAndIndex (v : View) (s : State) : Nat × Nat :=
  match v with
  | .rxW => (s.rx.wv, s.rx.w)
  | .rxR => (s.rx.rv, s.rx.r)
  | .txW => (s.tx.wv, s.tx.w)
  | .txR => (s.tx.rv, s.tx.r)

/-- The milliseconds the clock advances by in the next step, before they wrap (10_state.md R15). -/
def clkAdvance (s : State) : Nat :=
  match s.sched with
  | .clk d :: _ => d
  | _ => 0

/-- The milliseconds the clock advances by in the `n` steps from state `k` of a run on, before they wrap. -/
def advanceOver (st : Nat → State) (k : Nat) : Nat → Nat
  | 0 => 0
  | n + 1 => advanceOver st k n + clkAdvance (st (k + n))

/-- The next step is CMD's turn (log 1). -/
def cmdTurn (s : State) : Prop := s.sched.head? = none ∨ s.sched.head? = some .cmd

/-- The fairness of 70_reset_and_hazards.md R134, an assumption on the environment of a run (log 12). CMD: a command in progress
has its turn again and again; nothing is asked of CMD while it is idle or halted. Synchronisers: a view that differs from its
index eventually moves. CLK: the clock "eventually advances by any given amount", counted before it wraps, "so every bus timeout is
eventually reached": while CMD stays in one wait on the bus, some turn of CMD finds that its timeout has passed. BUS, LRX and LTX
are not fair. -/
def Fair (st : Nat → State) : Prop :=
  (∀ k, ∃ m, k ≤ m ∧ ((st m).seq.running = false ∨ cmdTurn (st m))) ∧
  (∀ v k, ∃ m, k ≤ m ∧ ((viewAndIndex v (st m)).1 = (viewAndIndex v (st m)).2 ∨
    (viewAndIndex v (st (m + 1))).1 ≠ (viewAndIndex v (st m)).1)) ∧
  (∀ k ms, ∃ n, ms ≤ advanceOver st k n) ∧
  (∀ k x ph todo, (st k).seq = .wait x ph todo →
    ∃ m, k ≤ m ∧ ((st m).seq ≠ (st k).seq ∨ (cmdTurn (st m) ∧ timedOut x (st m) = true)))

end Sys2Proof.Machine
end

