-- ==== Sys2Proof/Certificates/Slice0/Obligations.lean ====
section
/-! DEFINITION. The statements for the provers, in the order of spec/'s files. Each docstring says which rule it formalises. -/

section Statements

open Sys2Proof Sys2Proof.Machine

/-! ## Configuration (00_scope.md) -/

/-- R8: a configuration that breaks one of the three constraints of R8 is refused, and `step` does nothing else with it; one that
keeps them and the sizes of R7 is not refused, whether or not the inbound and outbound type spaces overlap. -/
def Obligations.BrokenConfigurationIsRefused : Prop :=
  ∀ s : State,
    ((s.cfg.txbufSize < 17 ∨
      ¬ [s.cfg.typeNopOut, s.cfg.typeMeasurements, s.cfg.typeHealth, s.cfg.typeEvent].Pairwise (· ≠ ·) ∨
      s.cfg.typeNopIn = s.cfg.typeReset ∨ ¬ s.cfg.sensorAddr < 0x80#8) →
      step s = .refused .badConfiguration) ∧
    (s.cfg.sizesOk = true →
      [s.cfg.typeNopOut, s.cfg.typeMeasurements, s.cfg.typeHealth, s.cfg.typeEvent].Pairwise (· ≠ ·) →
      s.cfg.typeNopIn ≠ s.cfg.typeReset → s.cfg.sensorAddr < 0x80#8 →
      step s ≠ .refused .badConfiguration)

/-! ## State after reset (10_state.md, 70_reset_and_hazards.md) -/

/-- R30: every register at the reset value of the table, in every configuration. (The byte spaces' contents, "unspecified", are
not part of this statement; the clock is not the block's.) -/
def Obligations.ResetValues : Prop :=
  ∀ c : Config, let s := State.resetIn c
    (∀ q ∈ [s.rx, s.tx], q.w = 0 ∧ q.r = 0 ∧ q.wg = 0 ∧ q.rg = 0 ∧ q.wv = 0 ∧ q.rv = 0) ∧
    s.crc32 = 0xFFFFFFFF#32 ∧ s.crc8 = 0 ∧
    s.enc.phase = .idle ∧ s.enc.ovf = false ∧ s.enc.len = 0 ∧ s.enc.cp = 0 ∧ s.enc.code = 1 ∧
    s.dec.st = .more ∧ s.dec.have_ = false ∧ s.dec.code = 0 ∧ s.dec.rem = 0 ∧ s.dec.len = 0 ∧
    s.pay.len = 0 ∧
    s.sens.state = .clear ∧ s.sens.tlast = 0 ∧ s.sens.dwell = c.dwellClear ∧ s.sens.temp = 0 ∧ s.sens.hum = 0 ∧
    statusWord s.ill = 0 ∧ s.halted = false ∧ s.res = 0 ∧ s.ok = false ∧
    s.bus.pend = none ∧ s.bus.rsp = none ∧ s.bus.stop = false

/-- R131: reset acts on every domain at once, from any state; it abandons the command in progress without an answer. The model's
choices in it: what it leaves alone, namely the parameters, the clock, the controller's commands, the schedule and the trace (log
15); rsp_valid, rx_accept, tx_valid and tx_data at 0 (log 8: not in R30's table); every byte unwritten where R131 says
unspecified (log 4). -/
def Obligations.ResetEventReplacesTheState : Prop :=
  ∀ (s : State) (rest : List Agent), s.cfg.valid = true → s.sched = .rst :: rest →
    step s = .next { State.resetIn s.cfg with clock := s.clock, cmds := s.cmds, sched := rest, trace := s.trace }

/-- The state after reset meets the invariant, in every configuration that the spec allows. -/
def Obligations.ResetStateIsGood : Prop :=
  ∀ c : Config, c.valid = true → (State.resetIn c).Good

/-- Every step keeps the invariant: the rings (R18, R40), the encoder (R21), the decoder (R22), the payload buffer (R23), the
halt (R26), the bus port (R108) and the sequencer. -/
def Obligations.StepKeepsGood : Prop :=
  ∀ s t : State, s.Good → step s = .next t → t.Good

/-- No step of a state that meets the invariant stops: no byte is read before it is written, no index outside a byte space is
formed, and nothing is refused (R30, R31, R118). -/
def Obligations.GoodStepsAlwaysGoOn : Prop :=
  ∀ s : State, s.Good → ∃ t, step s = .next t

/-! ## Whole-machine rules -/

/-- R15: "The block never writes it": only a CLK step changes the clock, and it adds its d, mod 2^32. -/
def Obligations.OnlyClkMovesTheClock : Prop :=
  ∀ s t : State, step s = .next t →
    ((∃ d rest, s.sched = .clk d :: rest ∧ t = { s with clock := s.clock + BitVec.ofNat 32 d, sched := rest }) ∨
      ((∀ d rest, s.sched ≠ .clk d :: rest) ∧ t.clock = s.clock))

/-- R25: ILL is cleared only by reset: any other step of a state with ILL = 1 leaves it 1. -/
def Obligations.IllIsStickyUntilReset : Prop :=
  ∀ s t : State, step s = .next t → s.ill = true → (∀ rest, s.sched ≠ .rst :: rest) → t.ill = true

/-- R47, R18: no command writes a register of another domain: whatever a command does from any state, at its acceptance or when it
goes on, RX.W, RX.WG, RX.MEM, TX.R, TX.RG, all four views, the clock and the link ports' outputs stay. -/
def Obligations.CommandsLeaveTheOtherDomainsAlone : Prop :=
  (∀ (i : Instr) (s t : State), (∀ b, i ≠ .lrxPush b) → i ≠ .ltxPop → exec i s = .next t → sameForeign s t) ∧
  (∀ s t : State, resume s = .next t → sameForeign s t)

/-- R47, R13, R108: what the link agents, the synchronisers, BUS and CLK do leaves every CORE register and buffer alone, but for the
views RX.WV and TX.RV and the bus port; a port operation writes only its own side of its own ring and its own port; and BUS's two
steps are exactly R108's: an answer is set when BUS_STOP = 0, a phase is pending, none is answered and the table allows it (an
entry that BUS may not take moves nothing: log 1), a stop is taken, and nothing else changes. -/
def Obligations.OtherAgentsLeaveTheCoreAlone : Prop :=
  ∀ (s t : State) (a : Agent) (rest : List Agent), s.sched = a :: rest → a ≠ .cmd → a ≠ .rst → step s = .next t →
    sameCore s t ∧ t.sched = rest ∧
    ((∃ b, a = .lrx b) → t.tx = s.tx ∧ t.bus = s.bus ∧ t.clock = s.clock ∧ t.rx.wv = s.rx.wv ∧ t.rx.rv = s.rx.rv ∧
      t.txValid = s.txValid ∧ t.txData = s.txData) ∧
    (a = .ltx → t.rx = s.rx ∧ t.bus = s.bus ∧ t.clock = s.clock ∧ t.tx.wv = s.tx.wv ∧ t.tx.rv = s.tx.rv ∧
      t.rxAccept = s.rxAccept) ∧
    ((∃ v x, a = .sync v x) ∨ (∃ d, a = .clk d) → t.bus = s.bus) ∧
    (∀ r, a = .busAnswer r →
      ((∃ ph, s.bus.stop = false ∧ s.bus.pend = some ph ∧ s.bus.rsp = none ∧
          ((ph.op = .read ∧ ∃ v, r = .data v) ∨ (ph.op ≠ .read ∧ (r = .ack ∨ r = .nack)))) →
        t = { s with bus := { s.bus with rsp := some r }, sched := rest }) ∧
      (¬ (∃ ph, s.bus.stop = false ∧ s.bus.pend = some ph ∧ s.bus.rsp = none ∧
          ((ph.op = .read ∧ ∃ v, r = .data v) ∨ (ph.op ≠ .read ∧ (r = .ack ∨ r = .nack)))) →
        t = { s with sched := rest })) ∧
    (a = .busTakeStop → t = { s with bus := { s.bus with stop := false }, sched := rest })

/-- R26, R143: while HALTED = 1 no command is accepted: whatever agent steps, short of reset, the commands stay on the port,
nothing is answered, BUS_PEND stays, and so does every CORE register but the views RX.WV and TX.RV, which the synchronisers may
still move, and BUS_RSP and BUS_STOP, which BUS may still write (R123). -/
def Obligations.HaltedAcceptsNoCommand : Prop :=
  ∀ s t : State, s.halted = true → (s.seq = .halted ∨ s.seq = .idle) → (∀ rest, s.sched ≠ .rst :: rest) →
    step s = .next t → s.cmdReady = false ∧ sameCore s t ∧ t.bus.pend = s.bus.pend

/-! ## Rings and views (20_memory.md) -/

/-- R37: gray(b), its inverse by the bit rule, bin(gray(b)) = b, and the one-bit change across the wrap, whose two sides are
1 << (K-1) and 0. -/
def Obligations.GrayCode : Prop :=
  (∀ b, gray b = b ^^^ (b >>> 1)) ∧
  gray 0 = 0 ∧ (∀ k, 1 ≤ k → gray (2 ^ k - 1) = 1 <<< (k - 1)) ∧
  (∀ k g, g < 2 ^ k → ∀ i, i < k →
    (bin k g).testBit i = (if i + 1 = k then g.testBit i else ((bin k g).testBit (i + 1) ^^ g.testBit i))) ∧
  (∀ k b, b < 2 ^ k → bin k (gray b) = b) ∧
  (∀ k b, 1 ≤ k → b < 2 ^ k → ∃ i, i < k ∧ gray b ^^^ gray ((b + 1) % 2 ^ k) = 2 ^ i)

/-- R39: a synchroniser step that its ring path allows moves the view to the value chosen and nothing else; any other choice
moves nothing; and the view gets no further from its index than before. -/
def Obligations.SynchroniserStaysOnThePath : Prop :=
  ∀ (s : State) (v : Nat) (rest : List Agent), s.cfg.valid = true →
    (s.sched = .sync .rxW v :: rest →
      step s = .next { s with
        rx := { s.rx with wv := if v < s.cfg.nRx ∧ subMod s.cfg.nRx v s.rx.wv ≤ subMod s.cfg.nRx s.rx.w s.rx.wv then v else s.rx.wv }
        sched := rest }) ∧
    (s.sched = .sync .rxR v :: rest →
      step s = .next { s with
        rx := { s.rx with rv := if v < s.cfg.nRx ∧ subMod s.cfg.nRx v s.rx.rv ≤ subMod s.cfg.nRx s.rx.r s.rx.rv then v else s.rx.rv }
        sched := rest }) ∧
    (s.sched = .sync .txW v :: rest →
      step s = .next { s with
        tx := { s.tx with wv := if v < s.cfg.nTx ∧ subMod s.cfg.nTx v s.tx.wv ≤ subMod s.cfg.nTx s.tx.w s.tx.wv then v else s.tx.wv }
        sched := rest }) ∧
    (s.sched = .sync .txR v :: rest →
      step s = .next { s with
        tx := { s.tx with rv := if v < s.cfg.nTx ∧ subMod s.cfg.nTx v s.tx.rv ≤ subMod s.cfg.nTx s.tx.r s.tx.rv then v else s.tx.rv }
        sched := rest }) ∧
    (∀ n view index, view < n → index < n → v < n → subMod n v view ≤ subMod n index view →
      subMod n index v + subMod n v view = subMod n index view)

/-- R40: in a ring that meets the invariant the consumer never sees more bytes than are held, and the producer never sees more
room than there is. -/
def Obligations.ViewsOnlyUnderestimate : Prop :=
  ∀ n q, Ring.good n q →
    q.count n ≤ n - 1 ∧ q.avail n ≤ q.count n ∧
    q.free n = n - 1 - q.count n - subMod n q.r q.rv ∧ q.free n ≤ n - 1 - q.count n

/-- R42: each ring is a queue. Over any step but reset, RX gains at its end exactly the byte LRX offers and RX accepts, and loses
only bytes at its head, no more than its consumer sees; TX loses at its head exactly the byte LTX takes, and gains only at its
end, from CMD's turns. -/
def Obligations.RingsAreQueues : Prop :=
  ∀ s t : State, s.Good → (∀ rest, s.sched ≠ .rst :: rest) → step s = .next t →
    (∃ k, k ≤ s.rx.avail s.cfg.nRx ∧
      t.rx.contents s.cfg.nRx =
        (s.rx.contents s.cfg.nRx ++
          (match s.sched with
            | .lrx b :: _ => if 0 < s.rx.free s.cfg.nRx then [some b] else []
            | _ => [])).drop k) ∧
    (∃ bs : List Byte,
      t.tx.contents s.cfg.nTx =
        ((s.tx.contents s.cfg.nTx).drop
          (match s.sched with
            | .ltx :: _ => if 0 < s.tx.avail s.cfg.nTx then 1 else 0
            | _ => 0)) ++ bs.map some ∧
      (∀ a rest, s.sched = a :: rest → a ≠ .cmd → bs = []))

/-! ## Encoding (30_encoding.md) -/

/-- Decode and encode agree: the port word of every well-formed instruction decodes to it, with every operand (R55 to R58). -/
def Obligations.DecodeEncodeAgree : Prop :=
  ∀ i : Instr, i.wellFormed = true → decode (encode i) = .ok i

/-- Decoding is total on every opcode and every ARG; it gives a well-formed instruction, whose port word has the same opcode and
the ARG bits the form names, every other bit 0; and it reads no other ARG bit (R56, R59). -/
def Obligations.DecodingIsTotalAndReadsOnlyTheForm : Prop :=
  ∀ (op : Byte) (arg : Word),
    decode (.command op arg) = .ok (decodeCommand op arg) ∧
    (decodeCommand op arg).wellFormed = true ∧
    encode (decodeCommand op arg) =
      .command op ((arg.setWidth (argBits (decodeCommand op arg))).setWidth 32) ∧
    (∀ arg' : Word,
      arg'.setWidth (argBits (decodeCommand op arg)) = arg.setWidth (argBits (decodeCommand op arg)) →
      decodeCommand op arg' = decodeCommand op arg)

/-- R58: the reserved opcodes are 230 values; they are exactly the opcodes that decode to an illegal command, and each executes as
one (R117). -/
def Obligations.ReservedOpcodesAreIllegal : Prop :=
  ((List.range 256).filter fun n => reservedOp (BitVec.ofNat 8 n)).length = 230 ∧
  ∀ (op : Byte) (arg : Word),
    (decodeCommand op arg = .illegal op ↔ reservedOp op = true) ∧
    (reservedOp op = true → ∀ s : State,
      exec (decodeCommand op arg) s = .next { s with ill := true, res := 0, ok := false, rspValid := true })

/-- A few commands written out from the table of R57, op and ARG, decode to the instruction they stand for. -/
def Obligations.WordsOfTheTableDecode : Prop :=
  decode (.command 0x11 0x00010008) = .ok (.rxPeek 8) ∧
  decode (.command 0x21 0x0000007E) = .ok (.txPush 0x7E) ∧
  decode (.command 0x30 0x12345678) = .ok (.crc32Seed 0x12345678) ∧
  decode (.command 0x72 0x00000002) = .ok (.protoSend 2) ∧
  decode (.command 0x81 0x12345678) = .ok (.illegal 0x81) ∧
  decodeTableWord 8 0x73 = some .protoPoll

/-- A step runs the decoded instruction (R55, R68, R69): on CMD's turn, with CMD ready, the command on the port leaves it and the
instruction it decodes to runs; the link agents' entries run their port operations. What `step` adds: the agent's entry leaves the
schedule, the command the controller's stream, and the response is awaited. -/
def Obligations.StepRunsTheDecodedInstruction : Prop :=
  ∀ (s : State) (i : Instr), s.cfg.valid = true → i.wellFormed = true →
    (∀ c cs, s.cmds = c :: cs → s.cmdReady = true → decode (.command c.op c.arg) = .ok i →
      (s.sched = [] → step s = exec i { s with cmds := cs, rspValid := false }) ∧
      (∀ rest, s.sched = .cmd :: rest → step s = exec i { s with cmds := cs, sched := rest, rspValid := false })) ∧
    (∀ b rest, s.sched = .lrx b :: rest → decode (.linkRx true b) = .ok i → step s = exec i { s with sched := rest }) ∧
    (∀ rest, s.sched = .ltx :: rest → decode (.linkTx true) = .ok i → step s = exec i { s with sched := rest })

/-- CMD's micro-steps run until the command has ended, waits on the bus with nothing left in the schedule, or another agent is
due (R10, R44; the model's fuel is always enough, log 5). -/
def Obligations.CommandsRunUntilTheyEndWaitOrYield : Prop :=
  ∀ s t : State, s.Good → resume s = .next t →
    t.seq.running = false ∨ (t.blocked = true ∧ t.sched = []) ∨ (∃ a rest, t.sched = a :: rest ∧ a ≠ .cmd)

/-! ## Ring commands and link ports (40_ring_fifo.md) -/

/-- R62, R65: RX_AVAIL and TX_FREE answer the counts, each at most N - 1, and change nothing else; a TX that CMD sees empty has
N_TX - 1 bytes free. -/
def Obligations.CountsAreAnswered : Prop :=
  (∀ arg : Word, decodeCommand 0x10 arg = .rxAvail ∧ decodeCommand 0x20 arg = .txFree) ∧
  ∀ s : State,
    exec .rxAvail s = .next { s with
      res := BitVec.ofNat 32 (subMod s.cfg.nRx s.rx.wv s.rx.r), ok := true, rspValid := true } ∧
    subMod s.cfg.nRx s.rx.wv s.rx.r ≤ s.cfg.nRx - 1 ∧
    exec .txFree s = .next { s with
      res := BitVec.ofNat 32 (subMod s.cfg.nTx s.tx.rv (s.tx.w + 1)), ok := true, rspValid := true } ∧
    subMod s.cfg.nTx s.tx.rv (s.tx.w + 1) ≤ s.cfg.nTx - 1 ∧
    (s.tx.w < s.cfg.nTx → s.tx.rv = s.tx.w → subMod s.cfg.nTx s.tx.rv (s.tx.w + 1) = s.cfg.nTx - 1)

/-- R63: RX_PEEK answers the byte at its offset and changes no other state; an offset at or beyond `avail` answers OK = 0. -/
def Obligations.RxPeekReadsWithoutConsuming : Prop :=
  ∀ (s : State) (i : Half),
    (∀ b : Byte, i.toNat < s.rx.avail s.cfg.nRx → s.byteAt .rxMem ((s.rx.r + i.toNat) % s.cfg.nRx) = some b →
      exec (.rxPeek i) s = .next { s with res := b.setWidth 32, ok := true, rspValid := true }) ∧
    (s.rx.avail s.cfg.nRx ≤ i.toNat →
      exec (.rxPeek i) s = .next { s with res := 0, ok := false, rspValid := true })

/-- R64: RX_POP answers the byte at the head and advances RX.R with its gray copy; on a ring empty as seen it answers OK = 0 and
changes nothing. No byte of memory changes. -/
def Obligations.RxPopTakesTheHead : Prop :=
  ∀ s : State, s.rx.r < s.cfg.nRx →
    (∀ b : Byte, s.rx.avail s.cfg.nRx ≠ 0 → s.byteAt .rxMem s.rx.r = some b →
      ∃ t, exec .rxPop s = .next t ∧
        t = { s with
          rx := { s.rx with r := (s.rx.r + 1) % s.cfg.nRx, rg := gray ((s.rx.r + 1) % s.cfg.nRx) }
          res := b.setWidth 32, ok := true, rspValid := true } ∧
        sameBytesBut nothingStored s t) ∧
    (s.rx.avail s.cfg.nRx = 0 → exec .rxPop s = .next { s with res := 0, ok := false, rspValid := true })

/-- R66: TX_PUSH stores its byte at TX.W, and at no other place, and advances TX.W with its gray copy; into a ring full as seen it
answers OK = 0 and changes nothing. -/
def Obligations.TxPushAppendsOneByte : Prop :=
  ∀ (s : State) (b : Byte), s.tx.w < s.cfg.nTx →
    (s.tx.free s.cfg.nTx ≠ 0 → ∃ t, exec (.txPush b) s = .next t ∧
      t = { s with
        tx := { s.tx with mem := t.tx.mem, w := (s.tx.w + 1) % s.cfg.nTx, wg := gray ((s.tx.w + 1) % s.cfg.nTx) }
        res := 1, ok := true, rspValid := true } ∧
      t.byteAt .txMem s.tx.w = some b ∧
      sameBytesBut (fun sp a => sp = .txMem ∧ a = s.tx.w) s t) ∧
    (s.tx.free s.cfg.nTx = 0 → exec (.txPush b) s = .next { s with res := 0, ok := false, rspValid := true })

/-- R67, the frame that fits: TX_COMMIT, when no other agent steps meanwhile, stores ENCBUF[0..ENC_LEN-1] into TX from TX.W on, and
nothing else, and leaves the encoder unchanged. -/
def Obligations.TxCommitWritesTheWholeFrame : Prop :=
  ∀ s : State, s.Good → s.seq = .idle → s.sched = [] →
    s.enc.phase = .closed → s.enc.ovf = false → s.enc.len.toNat ≤ s.tx.free s.cfg.nTx →
    ∃ t, exec .txCommit s = .next t ∧
      t = { s with
        tx := { s.tx with
          mem := t.tx.mem
          w := (s.tx.w + s.enc.len.toNat) % s.cfg.nTx
          wg := gray ((s.tx.w + s.enc.len.toNat) % s.cfg.nTx) }
        res := s.enc.len.setWidth 32, ok := true, rspValid := true } ∧
      (∀ j, j < s.enc.len.toNat → t.byteAt .txMem ((s.tx.w + j) % s.cfg.nTx) = s.byteAt .encbuf j) ∧
      sameBytesBut (fun sp a => sp = .txMem ∧ ∃ j, j < s.enc.len.toNat ∧ a = (s.tx.w + j) % s.cfg.nTx) s t

/-- R67, nothing otherwise: without a closed, complete frame, or without room for all of it, TX_COMMIT answers OK = 0 and changes
nothing else, whatever agent is due next. -/
def Obligations.TxCommitIsAllOrNothing : Prop :=
  ∀ s : State, s.seq = .idle →
    (s.enc.phase ≠ .closed ∨ s.enc.ovf = true ∨ s.tx.free s.cfg.nTx < s.enc.len.toNat) →
    exec .txCommit s = .next { s with res := 0, ok := false, rspValid := true }

/-- R68: LRX_PUSH stores the byte at RX.W, and at no other place, and advances RX.W with its gray copy; a full ring, as LRX sees
it, refuses the byte and nothing but rx_accept changes. -/
def Obligations.LrxPushAppendsOneByte : Prop :=
  ∀ (s : State) (b : Byte), decode (.linkRx true b) = .ok (.lrxPush b) ∧ (s.rx.w < s.cfg.nRx →
    (s.rx.free s.cfg.nRx ≠ 0 → ∃ t, exec (.lrxPush b) s = .next t ∧
      t = { s with
        rx := { s.rx with mem := t.rx.mem, w := (s.rx.w + 1) % s.cfg.nRx, wg := gray ((s.rx.w + 1) % s.cfg.nRx) }
        rxAccept := true } ∧
      t.byteAt .rxMem s.rx.w = some b ∧
      sameBytesBut (fun sp a => sp = .rxMem ∧ a = s.rx.w) s t) ∧
    (s.rx.free s.cfg.nRx = 0 → exec (.lrxPush b) s = .next { s with rxAccept := false }))

/-- R69: LTX_POP delivers the byte at TX.R and advances TX.R with its gray copy; from a ring empty as LTX sees it, tx_valid is 0
and nothing else changes (tx_data then keeps its value: the model's choice, log 8). -/
def Obligations.LtxPopTakesTheHead : Prop :=
  ∀ s : State, s.tx.r < s.cfg.nTx →
    (∀ b : Byte, s.tx.avail s.cfg.nTx ≠ 0 → s.byteAt .txMem s.tx.r = some b →
      ∃ t, exec .ltxPop s = .next t ∧
        t = { s with
          tx := { s.tx with r := (s.tx.r + 1) % s.cfg.nTx, rg := gray ((s.tx.r + 1) % s.cfg.nTx) }
          txValid := true, txData := b } ∧
        sameBytesBut nothingStored s t) ∧
    (s.tx.avail s.cfg.nTx = 0 → exec .ltxPop s = .next { s with txValid := false })

/-! ## CRC (41_crc.md) -/

/-- R78, R79, R80, R84, R85, R86: the six CRC commands answer and write their accumulator, and change nothing else; with the
corner cases of the byte steps that R79 and R85 list, and the examples of both, which apply the polynomials of R73 and R81. -/
def Obligations.CrcCommandsUpdateTheirAccumulator : Prop :=
  (∀ arg : Word,
    decodeCommand 0x30 arg = .crc32Seed arg ∧ decodeCommand 0x31 arg = .crc32Put (arg.setWidth 8) ∧
    decodeCommand 0x32 arg = .crc32Rd ∧ decodeCommand 0x40 arg = .crc8Init ∧
    decodeCommand 0x41 arg = .crc8Put (arg.setWidth 8) ∧ decodeCommand 0x42 arg = .crc8Rd) ∧
  ∀ (s : State) (v : Word) (b : Byte),
    exec (.crc32Seed v) s = .next { s with crc32 := v, res := v, ok := true, rspValid := true } ∧
    exec (.crc32Put b) s = .next { s with
      crc32 := step32 s.crc32 b, res := step32 s.crc32 b, ok := true, rspValid := true } ∧
    exec .crc32Rd s = .next { s with res := s.crc32, ok := true, rspValid := true } ∧
    exec .crc8Init s = .next { s with crc8 := 0, res := 0, ok := true, rspValid := true } ∧
    exec (.crc8Put b) s = .next { s with
      crc8 := step8 s.crc8 b, res := (step8 s.crc8 b).setWidth 32, ok := true, rspValid := true } ∧
    exec .crc8Rd s = .next { s with res := s.crc8.setWidth 32, ok := true, rspValid := true } ∧
    (∀ c, exec .crc32Rd (State.resetIn c) = .next { State.resetIn c with res := 0xFFFFFFFF, ok := true, rspValid := true }) ∧
    (s.crc8.setWidth 32 : Word).extractLsb' 8 24 = 0 ∧
    step32 0 0x00 = 0 ∧ step32 0xFFFFFFFF 0xFF = 0x00FFFFFF ∧
    step32 0xFFFFFFFF 0x00 = 0x2DFD1072 ∧
    step8 0 0x00 = 0x00 ∧ step8 0 0x01 = 0x31 ∧ step8 0 0x80 = 0x7A ∧
    step8 (step8 0 0x60) 0x00 = 0x55 ∧ step8 0x55 0x55 = 0x00

/-- R76: appending its own CRC gives residue 0; for 4 bytes or more the residue is 0 only then; and with the protocol's seed no
string of 1, 2 or 3 bytes has residue 0. -/
def Obligations.Crc32ResidueIsZeroExactlyForItsOwnCrc : Prop :=
  (∀ (s : List Byte) (seed : Word), crc32 (s ++ le32 (crc32 s seed)) seed = 0) ∧
  (∀ (s c : List Byte) (seed : Word), c.length = 4 → (crc32 (s ++ c) seed = 0 ↔ c = le32 (crc32 s seed))) ∧
  (∀ p : List Byte, 1 ≤ p.length → p.length ≤ 3 → crc32 p 0xFFFFFFFF#32 ≠ 0)

/-- R83: a 3-byte sensor read is good exactly when its check byte is the CRC-8 of its two data bytes. -/
def Obligations.SensorReadIsGoodExactlyForItsOwnCrc : Prop :=
  ∀ d0 d1 c : Byte, crc8 [d0, d1, c] = 0 ↔ c = crc8 [d0, d1]

/-! ## COBS (42_cobs.md) -/

/-- R88, items 1 to 3: no zero byte inside, the length bounds, the code of the empty string. -/
def Obligations.CobsHasNoZeroAndBoundedLength : Prop :=
  (∀ s : List Byte, 0#8 ∉ cobs s ∧
    (cobs s).length = s.length + 1 + ((segments s).map fun g => g.length / 254).sum ∧
    s.length + 1 ≤ (cobs s).length ∧ (cobs s).length ≤ s.length + 1 + s.length / 254) ∧
  cobs [] = [0x01#8]

/-- R90: ENC_BEGIN writes ENCBUF[0] and ENCBUF[1], and nothing else in memory, and opens the frame, in every phase. -/
def Obligations.EncBeginOpensAFrame : Prop :=
  (∀ arg : Word, decodeCommand 0x50 arg = .encBegin) ∧
  ∀ s : State, 2 ≤ s.cfg.txbufSize → ∃ t, exec .encBegin s = .next t ∧
    t = { s with
      enc := { buf := t.enc.buf, phase := .opened, ovf := false, len := 2, cp := 1, code := 1 }
      res := 2, ok := true, rspValid := true } ∧
    t.byteAt .encbuf 0 = some 0 ∧ t.byteAt .encbuf 1 = some 0 ∧
    sameBytesBut (fun sp a => sp = .encbuf ∧ a < 2) s t

/-- R91: ENC_PUT outside an open frame, or after an overflow, changes nothing; a data byte is stored at ENC_LEN; the 254th of a block
also closes it with 0xFF and reserves the next code slot; a zero closes the block; a byte that does not fit sets ENC_OVF. -/
def Obligations.EncPutFollowsItsCases : Prop :=
  (∀ arg : Word, decodeCommand 0x51 arg = .encPut (arg.setWidth 8)) ∧
  ∀ (s : State) (b : Byte), s.enc.good s.cfg.txbufSize → s.cfg.txbufSize ≤ 65535 →
    if s.enc.phase ≠ .opened ∨ s.enc.ovf = true then
      exec (.encPut b) s = .next { s with res := s.enc.len.setWidth 32, ok := false, rspValid := true }
    else if b ≠ 0 ∧ s.cfg.txbufSize ≤ s.enc.len.toNat then
      exec (.encPut b) s = .next { s with
        enc := { s.enc with ovf := true }, res := s.enc.len.setWidth 32, ok := false, rspValid := true }
    else if b ≠ 0 ∧ s.enc.code ≠ 0xFE#8 then
      ∃ t, exec (.encPut b) s = .next t ∧
        t = { s with
          enc := { s.enc with buf := t.enc.buf, len := s.enc.len + 1, code := s.enc.code + 1 }
          res := (s.enc.len + 1).setWidth 32, ok := true, rspValid := true } ∧
        t.byteAt .encbuf s.enc.len.toNat = some b ∧
        sameBytesBut (fun sp a => sp = .encbuf ∧ a = s.enc.len.toNat) s t
    else if b ≠ 0 ∧ s.cfg.txbufSize ≤ s.enc.len.toNat + 1 then
      ∃ t, exec (.encPut b) s = .next t ∧
        t = { s with
          enc := { s.enc with buf := t.enc.buf, ovf := true, len := s.enc.len + 1, code := 0xFF }
          res := (s.enc.len + 1).setWidth 32, ok := false, rspValid := true } ∧
        t.byteAt .encbuf s.enc.len.toNat = some b ∧ t.byteAt .encbuf s.enc.cp.toNat = some 0xFF ∧
        sameBytesBut (fun sp a => sp = .encbuf ∧ (a = s.enc.len.toNat ∨ a = s.enc.cp.toNat)) s t
    else if b ≠ 0 then
      ∃ t, exec (.encPut b) s = .next t ∧
        t = { s with
          enc := { s.enc with buf := t.enc.buf, len := s.enc.len + 2, cp := s.enc.len + 1, code := 1 }
          res := (s.enc.len + 2).setWidth 32, ok := true, rspValid := true } ∧
        t.byteAt .encbuf s.enc.len.toNat = some b ∧ t.byteAt .encbuf s.enc.cp.toNat = some 0xFF ∧
        t.byteAt .encbuf (s.enc.len.toNat + 1) = some 0 ∧
        sameBytesBut (fun sp a => sp = .encbuf ∧
          (a = s.enc.len.toNat ∨ a = s.enc.cp.toNat ∨ a = s.enc.len.toNat + 1)) s t
    else if s.cfg.txbufSize ≤ s.enc.len.toNat then
      ∃ t, exec (.encPut b) s = .next t ∧
        t = { s with
          enc := { s.enc with buf := t.enc.buf, ovf := true }
          res := s.enc.len.setWidth 32, ok := false, rspValid := true } ∧
        t.byteAt .encbuf s.enc.cp.toNat = some s.enc.code ∧
        sameBytesBut (fun sp a => sp = .encbuf ∧ a = s.enc.cp.toNat) s t
    else
      ∃ t, exec (.encPut b) s = .next t ∧
        t = { s with
          enc := { s.enc with buf := t.enc.buf, len := s.enc.len + 1, cp := s.enc.len, code := 1 }
          res := (s.enc.len + 1).setWidth 32, ok := true, rspValid := true } ∧
        t.byteAt .encbuf s.enc.cp.toNat = some s.enc.code ∧ t.byteAt .encbuf s.enc.len.toNat = some 0 ∧
        sameBytesBut (fun sp a => sp = .encbuf ∧ (a = s.enc.cp.toNat ∨ a = s.enc.len.toNat)) s t

/-- R92: ENC_END writes the last code byte and the trailing delimiter, if it fits, and closes the frame, also after an overflow;
outside an open frame it changes nothing. -/
def Obligations.EncEndFollowsItsCases : Prop :=
  (∀ arg : Word, decodeCommand 0x52 arg = .encEnd) ∧
  ∀ s : State, s.enc.good s.cfg.txbufSize → s.cfg.txbufSize ≤ 65535 →
    if s.enc.phase ≠ .opened then
      exec .encEnd s = .next { s with res := 0, ok := false, rspValid := true }
    else if s.enc.ovf = true then
      exec .encEnd s = .next { s with
        enc := { s.enc with phase := .closed }, res := s.enc.len.setWidth 32, ok := false, rspValid := true }
    else if s.cfg.txbufSize ≤ s.enc.len.toNat then
      ∃ t, exec .encEnd s = .next t ∧
        t = { s with
          enc := { s.enc with buf := t.enc.buf, phase := .closed, ovf := true }
          res := s.enc.len.setWidth 32, ok := false, rspValid := true } ∧
        t.byteAt .encbuf s.enc.cp.toNat = some s.enc.code ∧
        sameBytesBut (fun sp a => sp = .encbuf ∧ a = s.enc.cp.toNat) s t
    else
      ∃ t, exec .encEnd s = .next t ∧
        t = { s with
          enc := { s.enc with buf := t.enc.buf, phase := .closed, len := s.enc.len + 1 }
          res := (s.enc.len + 1).setWidth 32, ok := true, rspValid := true } ∧
        t.byteAt .encbuf s.enc.cp.toNat = some s.enc.code ∧ t.byteAt .encbuf s.enc.len.toNat = some 0 ∧
        sameBytesBut (fun sp a => sp = .encbuf ∧ (a = s.enc.cp.toNat ∨ a = s.enc.len.toNat)) s t

/-- R93, R97: ENC_RD and DEC_RD answer the byte at an index below the length, 0 and OK = 0 at any other, and change nothing else. -/
def Obligations.EncRdAndDecRdReadBelowTheLength : Prop :=
  ∀ (s : State) (i : Half) (b : Byte),
    (i < s.enc.len → i.toNat < s.cfg.txbufSize → s.byteAt .encbuf i.toNat = some b →
      exec (.encRd i) s = .next { s with res := b.setWidth 32, ok := true, rspValid := true }) ∧
    (¬ i < s.enc.len → exec (.encRd i) s = .next { s with res := 0, ok := false, rspValid := true }) ∧
    (i < s.dec.len → i.toNat < s.cfg.rxbufSize → s.byteAt .decbuf i.toNat = some b →
      exec (.decRd i) s = .next { s with res := b.setWidth 32, ok := true, rspValid := true }) ∧
    (¬ i < s.dec.len → exec (.decRd i) s = .next { s with res := 0, ok := false, rspValid := true })

/-- R94: ENC_BEGIN, an ENC_PUT of each byte, ENC_END leave the frame `0x00 ++ COBS(s) ++ 0x00` in ENCBUF exactly when it fits, and
change only the encoder and the answer. -/
def Obligations.EncoderBuildsTheCobsFrame : Prop :=
  ∀ (s : State) (bs : List Byte), 17 ≤ s.cfg.txbufSize → s.cfg.txbufSize ≤ 65535 →
    ∃ rs t, issue (fun _ => true) (.encBegin :: bs.map .encPut ++ [.encEnd]) s = (rs, .next t) ∧
      t.enc.phase = .closed ∧
      (t.enc.ovf = false ↔ 2 + (cobs bs).length ≤ s.cfg.txbufSize) ∧
      (t.enc.ovf = false →
        t.enc.len.toNat = 2 + (cobs bs).length ∧ holdsBytes t .encbuf ([0] ++ cobs bs ++ [0])) ∧
      t = { s with enc := t.enc, res := t.res, ok := t.ok, rspValid := true }

/-- R95: DEC_BEGIN resets the decoder and clears no byte of DECBUF. -/
def Obligations.DecBeginResetsTheDecoder : Prop :=
  (∀ arg : Word, decodeCommand 0x60 arg = .decBegin) ∧
  ∀ s : State, ∃ t, exec .decBegin s = .next t ∧
    t = { s with
      dec := { s.dec with st := .more, have_ := false, code := 0, rem := 0, len := 0 }
      res := 0, ok := true, rspValid := true } ∧
    sameBytesBut nothingStored s t

/-- R96: DEC_PUT by cases: a terminal decoder ignores the byte; a delimiter ends the frame, or fails inside a block; a code byte
first writes the implied zero of the block before; a data byte is written; a byte that does not fit gives OVF. -/
def Obligations.DecPutFollowsItsCases : Prop :=
  (∀ arg : Word, decodeCommand 0x61 arg = .decPut (arg.setWidth 8)) ∧
  ∀ (s : State) (x : Byte),
    if s.dec.st ≠ .more then
      exec (.decPut x) s = .next { s with res := decStatusWord s.dec.st, ok := false, rspValid := true }
    else if x = 0 ∧ s.dec.have_ = true ∧ s.dec.rem ≠ 0 then
      exec (.decPut x) s = .next { s with dec := { s.dec with st := .err }, res := 2, ok := false, rspValid := true }
    else if x = 0 then
      exec (.decPut x) s = .next { s with dec := { s.dec with st := .done }, res := 1, ok := true, rspValid := true }
    else if (s.dec.have_ = false ∨ s.dec.rem = 0) ∧ (s.dec.have_ = false ∨ s.dec.code = 0xFF#8) then
      exec (.decPut x) s = .next { s with
        dec := { s.dec with have_ := true, code := x, rem := x - 1 }, res := 0, ok := true, rspValid := true }
    else if s.cfg.rxbufSize ≤ s.dec.len.toNat then
      exec (.decPut x) s = .next { s with dec := { s.dec with st := .ovf }, res := 3, ok := false, rspValid := true }
    else if s.dec.rem = 0 then
      ∃ t, exec (.decPut x) s = .next t ∧
        t = { s with
          dec := { s.dec with buf := t.dec.buf, len := s.dec.len + 1, code := x, rem := x - 1 }
          res := 0, ok := true, rspValid := true } ∧
        t.byteAt .decbuf s.dec.len.toNat = some 0 ∧
        sameBytesBut (fun sp a => sp = .decbuf ∧ a = s.dec.len.toNat) s t
    else
      ∃ t, exec (.decPut x) s = .next t ∧
        t = { s with
          dec := { s.dec with buf := t.dec.buf, len := s.dec.len + 1, rem := s.dec.rem - 1 }
          res := 0, ok := true, rspValid := true } ∧
        t.byteAt .decbuf s.dec.len.toNat = some x ∧
        sameBytesBut (fun sp a => sp = .decbuf ∧ a = s.dec.len.toNat) s t

/-- R98: DEC_BEGIN and a DEC_PUT of each byte of `COBS(s) ++ 0x00` give s back, or DEC_ST = 3 when it does not fit; without the
delimiter the decoder never reaches DONE. -/
def Obligations.DecoderInvertsCobs : Prop :=
  ∀ (s : State) (bs : List Byte), s.cfg.rxbufSize ≤ 65535 →
    (∃ rs t, issue (fun _ => true) (.decBegin :: (cobs bs ++ [0]).map .decPut) s = (rs, .next t) ∧
      (bs.length ≤ s.cfg.rxbufSize → t.dec.st = .done ∧ t.dec.len.toNat = bs.length ∧ holdsBytes t .decbuf bs) ∧
      (s.cfg.rxbufSize < bs.length → t.dec.st = .ovf) ∧
      t = { s with dec := t.dec, res := t.res, ok := t.ok, rspValid := true }) ∧
    (∃ rs t, issue (fun _ => true) (.decBegin :: (cobs bs).map .decPut) s = (rs, .next t) ∧
      (t.dec.st = .more ∨ t.dec.st = .ovf))

/-! ## Protocol (43_protocol.md) -/

/-- R99, R100: PAY_CLR empties the payload buffer without touching its bytes; PAY_PUT appends its byte, or answers OK = 0 and
changes nothing when PAYBUF is full. -/
def Obligations.PayloadIsStagedByteByByte : Prop :=
  (∀ arg : Word, decodeCommand 0x70 arg = .payClr ∧ decodeCommand 0x71 arg = .payPut (arg.setWidth 8)) ∧
  ∀ (s : State) (b : Byte),
    exec .payClr s = .next { s with pay := { s.pay with len := 0 }, res := 0, ok := true, rspValid := true } ∧
    (s.pay.len.toNat < s.cfg.payMax → ∃ t, exec (.payPut b) s = .next t ∧
      t = { s with
        pay := { buf := t.pay.buf, len := s.pay.len + 1 }
        res := (s.pay.len + 1).setWidth 32, ok := true, rspValid := true } ∧
      t.byteAt .paybuf s.pay.len.toNat = some b ∧
      sameBytesBut (fun sp a => sp = .paybuf ∧ a = s.pay.len.toNat) s t) ∧
    (¬ s.pay.len.toNat < s.cfg.payMax →
      exec (.payPut b) s = .next { s with res := s.pay.len.setWidth 32, ok := false, rspValid := true })

/-- R101: a send whose worst-case frame exceeds TXBUF_SIZE is rejected before any state changes but the answer and the event. -/
def Obligations.OversizedSendIsRejected : Prop :=
  ∀ (s : State) (t : Byte), s.seq = .idle →
    let n := 2 + s.pay.len.toNat + 4
    s.cfg.txbufSize < n + 3 + n / 254 →
    exec (.protoSend t) s = .next { s with
      trace := s.trace ++ [.send t false], res := 0, ok := false, rspValid := true }

/-- R102, R103: PROTO_SEND, when no other agent steps meanwhile, builds the frame of R50 in ENCBUF, leaves its CRC in CRC32_ACC, and
appends the whole frame to TX when there is room; otherwise TX is unchanged and it answers OK = 0. PAYBUF is not changed. -/
def Obligations.ProtoSendSendsTheFrame : Prop :=
  ∀ (s : State) (t : Byte) (payload : List Byte), s.Good → s.seq = .idle → s.sched = [] →
    payload.length = s.pay.len.toNat → holdsBytes s .paybuf payload →
    (2 + payload.length + 4) + 3 + (2 + payload.length + 4) / 254 ≤ s.cfg.txbufSize →
    let body := [1#8, t] ++ payload
    let c := crc32 body 0xFFFFFFFF#32
    let f := [0#8] ++ cobs (body ++ le32 c) ++ [0#8]
    let fits := f.length ≤ s.tx.free s.cfg.nTx
    ∃ u, exec (.protoSend t) s = .next u ∧
      u.crc32 = c ∧ u.enc.phase = .closed ∧ u.enc.ovf = false ∧ u.enc.len.toNat = f.length ∧ holdsBytes u .encbuf f ∧
      (fits →
        u.tx.contents s.cfg.nTx = s.tx.contents s.cfg.nTx ++ f.map some ∧
        u = { s with
          crc32 := c, enc := u.enc
          tx := { s.tx with
            mem := u.tx.mem, w := (s.tx.w + f.length) % s.cfg.nTx, wg := gray ((s.tx.w + f.length) % s.cfg.nTx) }
          trace := s.trace ++ [.send t true], res := BitVec.ofNat 32 f.length, ok := true, rspValid := true } ∧
        sameBytesBut (fun sp a => sp = .encbuf ∨
          (sp = .txMem ∧ ∃ j, j < f.length ∧ a = (s.tx.w + j) % s.cfg.nTx)) s u) ∧
      (¬ fits →
        u = { s with
          crc32 := c, enc := u.enc, trace := s.trace ++ [.send t false], res := 0, ok := false, rspValid := true } ∧
        sameBytesBut (fun sp _ => sp = .encbuf) s u)

/-- R104, R105, R121, one micro-step of PROTO_POLL at a time. A turn of the drain: at RXCAND_SIZE bytes, or at a ring empty as seen,
the drain ends, and with it the command when nothing was popped, else the candidate is checked; otherwise the byte at the head is
popped and goes to the decoder (DEC_BEGIN first when it is the candidate's first byte), and the candidate is checked after a
delimiter. The check: the candidate is classified by the first test that holds, in the spec's order, and an accepted packet is
dispatched by its type (R106); CRC32_ACC changes only when it comes to the CRC test. -/
def Obligations.CandidateIsCheckedInOrder : Prop :=
  (∀ (s : State) (acc : Word) (k : Nat), s.seq = .drain acc k →
    (s.cfg.rxcandSize ≤ k ∨ s.rx.avail s.cfg.nRx = 0 →
      (k = 0 → microStep s = .ok { s with res := acc, ok := true, rspValid := true, seq := .idle }) ∧
      (0 < k → microStep s = .ok { s with seq := .check acc })) ∧
    (∀ x : Byte, k < s.cfg.rxcandSize → s.rx.avail s.cfg.nRx ≠ 0 → s.rx.r < s.cfg.nRx → s.byteAt .rxMem s.rx.r = some x →
      ∃ u v, (if k = 0 then exec .decBegin s else .next s) = .next u ∧ exec (.decPut x) u = .next v ∧
        microStep s = .ok { s with
          rx := { s.rx with r := (s.rx.r + 1) % s.cfg.nRx, rg := gray ((s.rx.r + 1) % s.cfg.nRx) }
          dec := v.dec
          seq := if x = 0 then .check acc else .drain acc (k + 1) })) ∧
  ∀ (s : State) (acc : Word) (p : List Byte), s.seq = .check acc →
    p.length = s.dec.len.toNat → holdsBytes s .decbuf p → p.length ≤ s.cfg.rxbufSize →
    let again := Seq.drain acc 0
    let r := crc32 p 0xFFFFFFFF#32
    microStep s = .ok
      (if s.dec.st = .err then { s with trace := s.trace ++ [.discard .decErr], seq := again }
      else if s.dec.st = .ovf then { s with trace := s.trace ++ [.discard .decOvf], seq := again }
      else if s.dec.st = .more then { s with trace := s.trace ++ [.discard .incomplete], seq := again }
      else if p.length < 2 then { s with trace := s.trace ++ [.discard .undersize], seq := again }
      else if r ≠ 0 then { s with crc32 := r, trace := s.trace ++ [.discard .crc], seq := again }
      else if p.head? ≠ some 1#8 then { s with crc32 := 0, trace := s.trace ++ [.discard .version], seq := again }
      else if p[1]? = some s.cfg.typeReset then
        { s with crc32 := 0, trace := s.trace ++ [.dispatch s.cfg.typeReset], halted := true, seq := .halted }
      else if p[1]? = some s.cfg.typeNopIn then
        { s with crc32 := 0, trace := s.trace ++ [.dispatch s.cfg.typeNopIn], seq := .drain (acc + 1) 0 }
      else { s with crc32 := 0, trace := s.trace ++ [.ignored (p.getD 1 0)], seq := .drain (acc + 1) 0 })

/-- R107, the empty ring: PROTO_POLL answers RES = 0, OK = 1 and touches nothing. -/
def Obligations.PollOfAnEmptyRing : Prop :=
  ∀ s : State, s.seq = .idle → s.rx.avail s.cfg.nRx = 0 →
    exec .protoPoll s = .next { s with res := 0, ok := true, rspValid := true }

/-- R107, R123: PROTO_POLL, when no other agent steps meanwhile, ends with OK = 1 and RX drained as CMD sees it, or halts the block
without an answer; PAYBUF, ENCBUF, TX, CRC-8 and the sensor are not touched either way. -/
def Obligations.PollEndsDrainedOrHalted : Prop :=
  ∀ s : State, s.Good → s.seq = .idle → s.sched = [] →
    ∃ t, exec .protoPoll s = .next t ∧
      t.pay = s.pay ∧ t.enc = s.enc ∧ t.tx = s.tx ∧ t.crc8 = s.crc8 ∧ t.sens = s.sens ∧ t.ill = s.ill ∧
      t.bus = s.bus ∧ t.cmds = s.cmds ∧
      ((t.seq = .idle ∧ t.halted = false ∧ t.ok = true ∧ t.rspValid = true ∧ t.rx.avail s.cfg.nRx = 0) ∨
        (t.seq = .halted ∧ t.halted = true ∧ t.ok = s.ok ∧ t.res = s.res ∧ t.rspValid = s.rspValid))

/-- R103 to R107 end to end: a frame that a send builds, seen whole in RX with nothing else, gives one UNDERSIZE discard and one
accepted packet; its decoded bytes stand in DECBUF and its residue is 0. -/
def Obligations.PolledFrameIsAccepted : Prop :=
  ∀ (s : State) (t : Byte) (payload : List Byte), s.Good → s.seq = .idle → s.sched = [] →
    t ≠ s.cfg.typeReset →
    s.rx.visible s.cfg.nRx = (frame (packet t payload)).map some →
    (cobs (packet t payload)).length + 1 ≤ s.cfg.rxcandSize → (packet t payload).length ≤ s.cfg.rxbufSize →
    ∃ u, exec .protoPoll s = .next u ∧
      u = { s with
        rx := { s.rx with r := s.rx.wv, rg := gray s.rx.wv }
        dec := u.dec, crc32 := 0
        trace := s.trace ++ [.discard .undersize, if t = s.cfg.typeNopIn then .dispatch t else .ignored t]
        res := 1, ok := true, rspValid := true } ∧
      u.dec.st = .done ∧ u.dec.len.toNat = (packet t payload).length ∧ holdsBytes u .decbuf (packet t payload)

/-- R106, R123: a RESET frame halts the block: HALTED is set, nothing is answered, and what follows it in RX stays there. -/
def Obligations.PolledResetHaltsTheBlock : Prop :=
  ∀ (s : State) (payload : List Byte) (rest : List (Option Byte)), s.Good → s.seq = .idle → s.sched = [] →
    s.rx.visible s.cfg.nRx = (frame (packet s.cfg.typeReset payload)).map some ++ rest →
    (cobs (packet s.cfg.typeReset payload)).length + 1 ≤ s.cfg.rxcandSize →
    (packet s.cfg.typeReset payload).length ≤ s.cfg.rxbufSize →
    ∃ u, exec .protoPoll s = .next u ∧ u.halted = true ∧ u.seq = .halted ∧ u.cmdReady = false ∧
      u.res = s.res ∧ u.ok = s.ok ∧ u.rspValid = s.rspValid ∧
      u.rx.visible s.cfg.nRx = rest ∧
      u.trace = s.trace ++ [.discard .undersize, .dispatch s.cfg.typeReset]

/-! ## Sensor and bus (44_sensor_bus.md) -/

/-- R108, R121: one wait step takes an answer that is there, else fails the transaction once `elapsed >= timeout`, else changes
nothing. -/
def Obligations.WaitStepTestsTheAnswerFirst : Prop :=
  ∀ (s : State) (x : Xfer) (ph : Phase) (todo : List Phase), s.seq = .wait x ph todo →
    (s.bus.rsp = none → s.cfg.busTimeoutMs ≤ s.clock - x.t0 →
      microStep s = .ok { s with bus := { s.bus with pend := none }, seq := .postStop x false }) ∧
    (s.bus.rsp = none → s.clock - x.t0 < s.cfg.busTimeoutMs → microStep s = .ok s) ∧
    (∀ r, s.bus.rsp = some r → ∃ p, microStep s = .ok { s with bus := { s.bus with pend := none, rsp := none }, seq := p } ∧
      (r = .nack → p = .postStop x false) ∧
      (r = .ack → ph.op ≠ .read → todo = [] → p = .postStop x true) ∧
      (r = .ack → ph.op ≠ .read → ∀ ph' todo', todo = ph' :: todo' → p = .request x ph' todo') ∧
      (∀ v, r = .data v → ph.op = .read → todo = [] → p = .postStop { x with got := x.got ++ [v] } true) ∧
      (∀ v, r = .data v → ph.op = .read → ∀ ph' todo', todo = ph' :: todo' →
        p = .request { x with got := x.got ++ [v] } ph' todo'))

/-- R111: the conversions are the exact integer formulas, no product wraps, both lie within the stated ranges, and a register holds
them unchanged. -/
def Obligations.ConversionsAreExact : Prop :=
  convT 0x6000 = 1904 ∧
  ∀ s : Half,
    17572 * s.toNat ≤ 1151581020 ∧
    convT s = (17572 * (s.toNat : Int)) / 65536 - 4685 ∧ -4685 ≤ convT s ∧ convT s ≤ 12886 ∧ (i32 (convT s)).toInt = convT s ∧
    convRh s = (12500 * (s.toNat : Int)) / 65536 - 600 ∧ -600 ≤ convRh s ∧ convRh s ≤ 11899 ∧
    (i32 (convRh s)).toInt = convRh s

/-- R113, before the dwell: SENS_STEP reads the clock, answers SENS_STATE and changes nothing. -/
def Obligations.SensStepBeforeTheDwell : Prop :=
  ∀ s : State, s.seq = .idle → s.clock - s.sens.tlast < s.sens.dwell →
    exec .sensStep s = .next { s with
      res := (sensStateBits s.sens.state).setWidth 32, ok := true, rspValid := true }

/-- R113, R109, R110 item 3: a SENS_STEP that acts with a timeout of 0, and that BUS has no time to answer, fails at once: the machine
is in Clear, the request is withdrawn, the stop is posted. -/
def Obligations.SensStepWithZeroTimeoutFailsAtOnce : Prop :=
  ∀ s : State, s.seq = .idle → s.sched = [] → s.bus.pend = none → s.bus.rsp = none →
    s.sens.dwell ≤ s.clock - s.sens.tlast → s.cfg.busTimeoutMs = 0 →
    exec .sensStep s = .next { s with
      sens := { s.sens with state := .clear, dwell := s.cfg.dwellClear, tlast := s.clock }
      bus := { pend := none, rsp := none, stop := true }
      res := 0x30, ok := true, rspValid := true }

/-- R113, R109: a SENS_STEP that acts, and that no other agent has stepped into, has sampled the clock, started the transaction of its
state and waits for its first answer; nothing else has changed and nothing is answered. -/
def Obligations.SensStepStartsItsTransaction : Prop :=
  ∀ s : State, s.seq = .idle → s.sched = [] → s.bus.rsp = none →
    s.sens.dwell ≤ s.clock - s.sens.tlast → 0 < s.cfg.busTimeoutMs →
    ∃ x ph todo, exec .sensStep s = .next { s with bus := { s.bus with pend := some ph }, seq := .wait x ph todo } ∧
      x.now = s.clock ∧ x.t0 = s.clock ∧ x.got = [] ∧
      ph.addr = s.cfg.sensorAddr.setWidth 7 ∧
      (s.sens.state = .clear → x.kind = .trigT ∧ ph.op = .startW ∧
        todo.map (fun p => (p.op, p.wdata)) = [(.write, s.cfg.cmdTrigT)]) ∧
      (s.sens.state = .readTemperature → x.kind = .readT ∧ ph.op = .startR ∧
        todo.map (fun p => (p.op, p.last)) = [(.read, false), (.read, false), (.read, true)]) ∧
      (s.sens.state = .readHumidity → x.kind = .readRh ∧ ph.op = .startR ∧
        todo.map (fun p => (p.op, p.last)) = [(.read, false), (.read, false), (.read, true)])

/-- R113, the Clear state: a trigger that BUS acknowledges phase by phase moves the machine to ReadTemperature. -/
def Obligations.ClearTriggersTheTemperature : Prop :=
  ∀ (s : State) (arg : Word) (cs : List Cmd), s.Good → s.seq = .idle → s.cmds = { op := 0x80, arg := arg } :: cs →
    s.bus.stop = false → s.sens.state = .clear → s.sens.dwell ≤ s.clock - s.sens.tlast →
    s.sched = [.cmd, .cmd, .cmd, .busAnswer .ack, .cmd, .cmd, .busAnswer .ack] →
    Host.Core.run Sys2Proof.core 5 s = .next { s with
      sens := { s.sens with state := .readTemperature, dwell := s.cfg.dwellT, tlast := s.clock }
      bus := { pend := none, rsp := none, stop := true }
      cmds := cs, sched := [], res := 0x11, ok := true, rspValid := true }

/-- R113, R112, the ReadTemperature state: a read whose check byte is right, then a humidity trigger that BUS acknowledges, store
the converted temperature and move to ReadHumidity; a wrong check byte reverts to Clear, with no trigger and SENS_TEMP kept; so does
a humidity trigger that fails after a good read, by a NACK or a timeout in either of its phases, with CRC8_ACC 0. -/
def Obligations.ReadTemperatureStoresACheckedReading : Prop :=
  ∀ (s : State) (arg : Word) (cs : List Cmd) (d0 d1 c : Byte), s.Good → s.seq = .idle →
    s.cmds = { op := 0x80, arg := arg } :: cs →
    s.bus.stop = false → s.sens.state = .readTemperature → s.sens.dwell ≤ s.clock - s.sens.tlast →
    (c = crc8 [d0, d1] →
      s.sched = [.cmd, .cmd, .cmd, .busAnswer .ack, .cmd, .cmd, .busAnswer (.data d0), .cmd, .cmd,
        .busAnswer (.data d1), .cmd, .cmd, .busAnswer (.data c), .cmd, .cmd, .cmd, .cmd, .busTakeStop,
        .busAnswer .ack, .cmd, .cmd, .busAnswer .ack] →
      Host.Core.run Sys2Proof.core 14 s = .next { s with
        sens := { s.sens with
          state := .readHumidity, dwell := s.cfg.dwellRh, tlast := s.clock, temp := i32 (convT (be16 d0 d1)) }
        bus := { pend := none, rsp := none, stop := true }
        crc8 := 0, cmds := cs, sched := [], res := 0x12, ok := true, rspValid := true }) ∧
    (c ≠ crc8 [d0, d1] →
      s.sched = [.cmd, .cmd, .cmd, .busAnswer .ack, .cmd, .cmd, .busAnswer (.data d0), .cmd, .cmd,
        .busAnswer (.data d1), .cmd, .cmd, .busAnswer (.data c)] →
      Host.Core.run Sys2Proof.core 9 s = .next { s with
        sens := { s.sens with state := .clear, dwell := s.cfg.dwellClear, tlast := s.clock }
        bus := { pend := none, rsp := none, stop := true }
        crc8 := crc8 [d0, d1, c], cmds := cs, sched := [], res := 0x30, ok := true, rspValid := true }) ∧
    (c = crc8 [d0, d1] → ∀ (trigger : List Agent) (n : Nat) (ms : Word),
      (trigger, n, ms) ∈ [
        ([.busAnswer .nack], 12, 0), ([.busAnswer .ack, .cmd, .cmd, .busAnswer .nack], 14, 0),
        ([.clk s.cfg.busTimeoutMs.toNat], 12, s.cfg.busTimeoutMs),
        ([.busAnswer .ack, .cmd, .cmd, .clk s.cfg.busTimeoutMs.toNat], 14, s.cfg.busTimeoutMs)] →
      s.sched = [.cmd, .cmd, .cmd, .busAnswer .ack, .cmd, .cmd, .busAnswer (.data d0), .cmd, .cmd,
        .busAnswer (.data d1), .cmd, .cmd, .busAnswer (.data c), .cmd, .cmd, .cmd, .cmd, .busTakeStop] ++ trigger →
      Host.Core.run Sys2Proof.core n s = .next { s with
        sens := { s.sens with state := .clear, dwell := s.cfg.dwellClear, tlast := s.clock }
        bus := { pend := none, rsp := none, stop := true }
        clock := s.clock + ms, crc8 := 0, cmds := cs, sched := [], res := 0x30, ok := true, rspValid := true })

/-- R113, R52, the ReadHumidity state: a checked reading stores the humidity, completes one measurement, and appends its
MEASUREMENTS frame to TX when all of it fits (RES 0xD0), else loses it (RES 0x50); a wrong check byte completes none: no event,
SENS_HUM, ENCBUF and TX kept. The machine returns to Clear every time. -/
def Obligations.ReadHumidityEmitsOneMeasurement : Prop :=
  ∀ (s : State) (arg : Word) (cs : List Cmd) (d0 d1 c : Byte), s.Good → s.seq = .idle →
    s.cmds = { op := 0x80, arg := arg } :: cs →
    s.bus.stop = false → s.sens.state = .readHumidity → s.sens.dwell ≤ s.clock - s.sens.tlast →
    s.sched = [.cmd, .cmd, .cmd, .busAnswer .ack, .cmd, .cmd, .busAnswer (.data d0), .cmd, .cmd,
      .busAnswer (.data d1), .cmd, .cmd, .busAnswer (.data c)] →
    (c ≠ crc8 [d0, d1] →
      Host.Core.run Sys2Proof.core 9 s = .next { s with
        sens := { s.sens with state := .clear, dwell := s.cfg.dwellClear, tlast := s.clock }
        bus := { pend := none, rsp := none, stop := true }
        crc8 := crc8 [d0, d1, c], cmds := cs, sched := [], res := 0x30, ok := true, rspValid := true }) ∧
    (c = crc8 [d0, d1] →
    let hum := i32 (convRh (be16 d0 d1))
    let f := frame (packet s.cfg.typeMeasurements (le32 s.sens.temp ++ le32 hum))
    ∃ u, Host.Core.run Sys2Proof.core 9 s = .next u ∧
      u.sens = { s.sens with state := .clear, dwell := s.cfg.dwellClear, tlast := s.clock, hum := hum } ∧
      u.bus = { pend := none, rsp := none, stop := true } ∧ u.crc8 = 0 ∧ u.seq = .idle ∧ u.cmds = cs ∧
      u.ok = true ∧ u.rspValid = true ∧ u.pay = s.pay ∧ u.rx = s.rx ∧ u.dec = s.dec ∧ u.ill = s.ill ∧ u.halted = false ∧
      holdsBytes u .encbuf f ∧ u.enc.len.toNat = 17 ∧
      (17 ≤ s.tx.free s.cfg.nTx →
        u.res = 0xD0 ∧ u.trace = s.trace ++ [.meas s.sens.temp hum true] ∧
        u.tx.contents s.cfg.nTx = s.tx.contents s.cfg.nTx ++ f.map some) ∧
      (s.tx.free s.cfg.nTx < 17 →
        u.res = 0x50 ∧ u.trace = s.trace ++ [.meas s.sens.temp hum false] ∧ u.tx = s.tx))

/-! ## System commands (45_system.md) -/

/-- R115, R117: NOP only answers; an illegal command changes nothing but STATUS.ILL and the answer. -/
def Obligations.NopAndIllegalCommands : Prop :=
  (∀ arg : Word, decodeCommand 0x00 arg = .nop ∧ ∀ op, reservedOp op = true → decodeCommand op arg = .illegal op) ∧
  ∀ (s : State) (op : Byte),
    exec .nop s = .next { s with res := 0, ok := true, rspValid := true } ∧
    exec (.illegal op) s = .next { s with ill := true, res := 0, ok := false, rspValid := true }

/-- R116, R27: CSR_RD answers the register its number names, each field at its bits, with the codes of R21, R22 and R24, and every
other bit 0, and changes nothing else; a reserved number sets STATUS.ILL and answers OK = 0. -/
def Obligations.CsrRdAnswersTheRegisterMap : Prop :=
  (∀ arg : Word, decodeCommand 0x01 arg = .csrRd (arg.setWidth 8)) ∧
  ∀ s : State,
    (∀ n : Byte, 0x12#8 < n →
      exec (.csrRd n) s = .next { s with ill := true, res := 0, ok := false, rspValid := true }) ∧
    (∀ n : Byte, n ≤ 0x12#8 → ∃ v : Word,
      exec (.csrRd n) s = .next { s with res := v, ok := true, rspValid := true } ∧
      (n = 0x00 → v = (BitVec.ofBool s.ill).setWidth 32) ∧
      (n = 0x01 → v.extractLsb' 0 8 = 1 ∧ v.extractLsb' 8 4 = BitVec.ofNat 4 s.cfg.kRx ∧
        v.extractLsb' 12 4 = BitVec.ofNat 4 s.cfg.kTx ∧ v.extractLsb' 16 16 = 0) ∧
      (n = 0x02 → v = BitVec.ofNat 32 (s.rx.r % s.cfg.nRx)) ∧ (n = 0x03 → v = BitVec.ofNat 32 (s.rx.wv % s.cfg.nRx)) ∧
      (n = 0x04 → v = BitVec.ofNat 32 (s.tx.w % s.cfg.nTx)) ∧ (n = 0x05 → v = BitVec.ofNat 32 (s.tx.rv % s.cfg.nTx)) ∧
      (n = 0x06 → v = s.crc32) ∧ (n = 0x07 → v = s.crc8.setWidth 32) ∧
      (n = 0x08 → v.extractLsb' 0 2 = (match s.enc.phase with | .idle => 0#2 | .opened => 1#2 | .closed => 2#2) ∧
        v.getLsbD 2 = s.enc.ovf ∧ v.extractLsb' 3 5 = 0 ∧
        v.extractLsb' 8 8 = s.enc.code ∧ v.extractLsb' 16 16 = 0) ∧
      (n = 0x09 → v = s.enc.len.setWidth 32) ∧ (n = 0x0A → v = s.enc.cp.setWidth 32) ∧
      (n = 0x0B → v.extractLsb' 0 2 = (match s.dec.st with | .more => 0#2 | .done => 1#2 | .err => 2#2 | .ovf => 3#2) ∧
        v.getLsbD 2 = s.dec.have_ ∧ v.extractLsb' 3 5 = 0 ∧
        v.extractLsb' 8 8 = s.dec.code ∧ v.extractLsb' 16 8 = s.dec.rem ∧ v.extractLsb' 24 8 = 0) ∧
      (n = 0x0C → v = s.dec.len.setWidth 32) ∧ (n = 0x0D → v = s.pay.len.setWidth 32) ∧
      (n = 0x0E → v = (match s.sens.state with | .clear => 0#32 | .readTemperature => 1#32 | .readHumidity => 2#32)) ∧
      (n = 0x0F → v = s.sens.tlast) ∧ (n = 0x10 → v = s.sens.dwell) ∧
      (n = 0x11 → v = s.sens.temp) ∧ (n = 0x12 → v = s.sens.hum))

/-! ## Pseudo-instructions (30_encoding.md) -/

/-- R61, `tx.write`: when no other agent steps meanwhile, the controller's TX_PUSHes append as many bytes of the string as TX has room
for, in order, stop at the first that finds no room, and answer the number appended; nothing but TX and the answer changes. That the
controller presents each command at once and first in the stream is the model's choice (log 16): the bound of one step for each
byte, and that the commands that were on the port are there again, rest on it. -/
def Obligations.TxWriteReturnsTheShortCount : Prop :=
  ∀ (s : State) (bs : List Byte), s.Good → s.seq = .idle → s.sched = [] →
    let k := min bs.length (s.tx.free s.cfg.nTx)
    let p := (Pseudo.txWrite bs).play bs.length s
    ∃ t, p.last = .next t ∧ p.ending = .finished ∧ (Pseudo.txWrite bs).result p.answers t = .count k ∧
      p.answers.length = min bs.length (s.tx.free s.cfg.nTx + 1) ∧
      t.tx.contents s.cfg.nTx = s.tx.contents s.cfg.nTx ++ (bs.take k).map some ∧
      t = { s with
        tx := { s.tx with mem := t.tx.mem, w := (s.tx.w + k) % s.cfg.nTx, wg := gray ((s.tx.w + k) % s.cfg.nTx) }
        res := t.res, ok := t.ok, rspValid := t.rspValid }

end Statements
end

