-- ==== Sys2Proof/Laws/State.lean ====
section
/-! SUPPORT. One lemma per field for each named update of the state, and for the updates of a ring: no proof needs to unfold one. -/

namespace Sys2Proof.Machine

/-! ### A command's answer writes RES, OK and rsp_valid. -/

@[simp] theorem State.respond_cfg (s : State) (v : Word) (o : Bool) : (s.respond v o).cfg = s.cfg := rfl
@[simp] theorem State.respond_rx (s : State) (v : Word) (o : Bool) : (s.respond v o).rx = s.rx := rfl
@[simp] theorem State.respond_tx (s : State) (v : Word) (o : Bool) : (s.respond v o).tx = s.tx := rfl
@[simp] theorem State.respond_crc32 (s : State) (v : Word) (o : Bool) : (s.respond v o).crc32 = s.crc32 := rfl
@[simp] theorem State.respond_crc8 (s : State) (v : Word) (o : Bool) : (s.respond v o).crc8 = s.crc8 := rfl
@[simp] theorem State.respond_enc (s : State) (v : Word) (o : Bool) : (s.respond v o).enc = s.enc := rfl
@[simp] theorem State.respond_dec (s : State) (v : Word) (o : Bool) : (s.respond v o).dec = s.dec := rfl
@[simp] theorem State.respond_pay (s : State) (v : Word) (o : Bool) : (s.respond v o).pay = s.pay := rfl
@[simp] theorem State.respond_sens (s : State) (v : Word) (o : Bool) : (s.respond v o).sens = s.sens := rfl
@[simp] theorem State.respond_ill (s : State) (v : Word) (o : Bool) : (s.respond v o).ill = s.ill := rfl
@[simp] theorem State.respond_halted (s : State) (v : Word) (o : Bool) : (s.respond v o).halted = s.halted := rfl
@[simp] theorem State.respond_res (s : State) (v : Word) (o : Bool) : (s.respond v o).res = v := rfl
@[simp] theorem State.respond_ok (s : State) (v : Word) (o : Bool) : (s.respond v o).ok = o := rfl
@[simp] theorem State.respond_rspValid (s : State) (v : Word) (o : Bool) : (s.respond v o).rspValid = true := rfl
@[simp] theorem State.respond_bus (s : State) (v : Word) (o : Bool) : (s.respond v o).bus = s.bus := rfl
@[simp] theorem State.respond_rxAccept (s : State) (v : Word) (o : Bool) : (s.respond v o).rxAccept = s.rxAccept := rfl
@[simp] theorem State.respond_txValid (s : State) (v : Word) (o : Bool) : (s.respond v o).txValid = s.txValid := rfl
@[simp] theorem State.respond_txData (s : State) (v : Word) (o : Bool) : (s.respond v o).txData = s.txData := rfl
@[simp] theorem State.respond_seq (s : State) (v : Word) (o : Bool) : (s.respond v o).seq = s.seq := rfl
@[simp] theorem State.respond_clock (s : State) (v : Word) (o : Bool) : (s.respond v o).clock = s.clock := rfl
@[simp] theorem State.respond_cmds (s : State) (v : Word) (o : Bool) : (s.respond v o).cmds = s.cmds := rfl
@[simp] theorem State.respond_sched (s : State) (v : Word) (o : Bool) : (s.respond v o).sched = s.sched := rfl
@[simp] theorem State.respond_trace (s : State) (v : Word) (o : Bool) : (s.respond v o).trace = s.trace := rfl

/-! ### The end of a macro command answers and leaves the sequencer idle. -/

@[simp] theorem State.finish_cfg (s : State) (v : Word) (o : Bool) : (s.finish v o).cfg = s.cfg := rfl
@[simp] theorem State.finish_rx (s : State) (v : Word) (o : Bool) : (s.finish v o).rx = s.rx := rfl
@[simp] theorem State.finish_tx (s : State) (v : Word) (o : Bool) : (s.finish v o).tx = s.tx := rfl
@[simp] theorem State.finish_crc32 (s : State) (v : Word) (o : Bool) : (s.finish v o).crc32 = s.crc32 := rfl
@[simp] theorem State.finish_crc8 (s : State) (v : Word) (o : Bool) : (s.finish v o).crc8 = s.crc8 := rfl
@[simp] theorem State.finish_enc (s : State) (v : Word) (o : Bool) : (s.finish v o).enc = s.enc := rfl
@[simp] theorem State.finish_dec (s : State) (v : Word) (o : Bool) : (s.finish v o).dec = s.dec := rfl
@[simp] theorem State.finish_pay (s : State) (v : Word) (o : Bool) : (s.finish v o).pay = s.pay := rfl
@[simp] theorem State.finish_sens (s : State) (v : Word) (o : Bool) : (s.finish v o).sens = s.sens := rfl
@[simp] theorem State.finish_ill (s : State) (v : Word) (o : Bool) : (s.finish v o).ill = s.ill := rfl
@[simp] theorem State.finish_halted (s : State) (v : Word) (o : Bool) : (s.finish v o).halted = s.halted := rfl
@[simp] theorem State.finish_res (s : State) (v : Word) (o : Bool) : (s.finish v o).res = v := rfl
@[simp] theorem State.finish_ok (s : State) (v : Word) (o : Bool) : (s.finish v o).ok = o := rfl
@[simp] theorem State.finish_rspValid (s : State) (v : Word) (o : Bool) : (s.finish v o).rspValid = true := rfl
@[simp] theorem State.finish_bus (s : State) (v : Word) (o : Bool) : (s.finish v o).bus = s.bus := rfl
@[simp] theorem State.finish_rxAccept (s : State) (v : Word) (o : Bool) : (s.finish v o).rxAccept = s.rxAccept := rfl
@[simp] theorem State.finish_txValid (s : State) (v : Word) (o : Bool) : (s.finish v o).txValid = s.txValid := rfl
@[simp] theorem State.finish_txData (s : State) (v : Word) (o : Bool) : (s.finish v o).txData = s.txData := rfl
@[simp] theorem State.finish_seq (s : State) (v : Word) (o : Bool) : (s.finish v o).seq = .idle := rfl
@[simp] theorem State.finish_clock (s : State) (v : Word) (o : Bool) : (s.finish v o).clock = s.clock := rfl
@[simp] theorem State.finish_cmds (s : State) (v : Word) (o : Bool) : (s.finish v o).cmds = s.cmds := rfl
@[simp] theorem State.finish_sched (s : State) (v : Word) (o : Bool) : (s.finish v o).sched = s.sched := rfl
@[simp] theorem State.finish_trace (s : State) (v : Word) (o : Bool) : (s.finish v o).trace = s.trace := rfl

/-! ### A move of the sequencer writes its position. -/

@[simp] theorem State.goto_cfg (s : State) (p : Seq) : (s.goto p).cfg = s.cfg := rfl
@[simp] theorem State.goto_rx (s : State) (p : Seq) : (s.goto p).rx = s.rx := rfl
@[simp] theorem State.goto_tx (s : State) (p : Seq) : (s.goto p).tx = s.tx := rfl
@[simp] theorem State.goto_crc32 (s : State) (p : Seq) : (s.goto p).crc32 = s.crc32 := rfl
@[simp] theorem State.goto_crc8 (s : State) (p : Seq) : (s.goto p).crc8 = s.crc8 := rfl
@[simp] theorem State.goto_enc (s : State) (p : Seq) : (s.goto p).enc = s.enc := rfl
@[simp] theorem State.goto_dec (s : State) (p : Seq) : (s.goto p).dec = s.dec := rfl
@[simp] theorem State.goto_pay (s : State) (p : Seq) : (s.goto p).pay = s.pay := rfl
@[simp] theorem State.goto_sens (s : State) (p : Seq) : (s.goto p).sens = s.sens := rfl
@[simp] theorem State.goto_ill (s : State) (p : Seq) : (s.goto p).ill = s.ill := rfl
@[simp] theorem State.goto_halted (s : State) (p : Seq) : (s.goto p).halted = s.halted := rfl
@[simp] theorem State.goto_res (s : State) (p : Seq) : (s.goto p).res = s.res := rfl
@[simp] theorem State.goto_ok (s : State) (p : Seq) : (s.goto p).ok = s.ok := rfl
@[simp] theorem State.goto_rspValid (s : State) (p : Seq) : (s.goto p).rspValid = s.rspValid := rfl
@[simp] theorem State.goto_bus (s : State) (p : Seq) : (s.goto p).bus = s.bus := rfl
@[simp] theorem State.goto_rxAccept (s : State) (p : Seq) : (s.goto p).rxAccept = s.rxAccept := rfl
@[simp] theorem State.goto_txValid (s : State) (p : Seq) : (s.goto p).txValid = s.txValid := rfl
@[simp] theorem State.goto_txData (s : State) (p : Seq) : (s.goto p).txData = s.txData := rfl
@[simp] theorem State.goto_seq (s : State) (p : Seq) : (s.goto p).seq = p := rfl
@[simp] theorem State.goto_clock (s : State) (p : Seq) : (s.goto p).clock = s.clock := rfl
@[simp] theorem State.goto_cmds (s : State) (p : Seq) : (s.goto p).cmds = s.cmds := rfl
@[simp] theorem State.goto_sched (s : State) (p : Seq) : (s.goto p).sched = s.sched := rfl
@[simp] theorem State.goto_trace (s : State) (p : Seq) : (s.goto p).trace = s.trace := rfl

/-! ### An event is appended to the trace. -/

@[simp] theorem State.emit_cfg (s : State) (e : Event) : (s.emit e).cfg = s.cfg := rfl
@[simp] theorem State.emit_rx (s : State) (e : Event) : (s.emit e).rx = s.rx := rfl
@[simp] theorem State.emit_tx (s : State) (e : Event) : (s.emit e).tx = s.tx := rfl
@[simp] theorem State.emit_crc32 (s : State) (e : Event) : (s.emit e).crc32 = s.crc32 := rfl
@[simp] theorem State.emit_crc8 (s : State) (e : Event) : (s.emit e).crc8 = s.crc8 := rfl
@[simp] theorem State.emit_enc (s : State) (e : Event) : (s.emit e).enc = s.enc := rfl
@[simp] theorem State.emit_dec (s : State) (e : Event) : (s.emit e).dec = s.dec := rfl
@[simp] theorem State.emit_pay (s : State) (e : Event) : (s.emit e).pay = s.pay := rfl
@[simp] theorem State.emit_sens (s : State) (e : Event) : (s.emit e).sens = s.sens := rfl
@[simp] theorem State.emit_ill (s : State) (e : Event) : (s.emit e).ill = s.ill := rfl
@[simp] theorem State.emit_halted (s : State) (e : Event) : (s.emit e).halted = s.halted := rfl
@[simp] theorem State.emit_res (s : State) (e : Event) : (s.emit e).res = s.res := rfl
@[simp] theorem State.emit_ok (s : State) (e : Event) : (s.emit e).ok = s.ok := rfl
@[simp] theorem State.emit_rspValid (s : State) (e : Event) : (s.emit e).rspValid = s.rspValid := rfl
@[simp] theorem State.emit_bus (s : State) (e : Event) : (s.emit e).bus = s.bus := rfl
@[simp] theorem State.emit_rxAccept (s : State) (e : Event) : (s.emit e).rxAccept = s.rxAccept := rfl
@[simp] theorem State.emit_txValid (s : State) (e : Event) : (s.emit e).txValid = s.txValid := rfl
@[simp] theorem State.emit_txData (s : State) (e : Event) : (s.emit e).txData = s.txData := rfl
@[simp] theorem State.emit_seq (s : State) (e : Event) : (s.emit e).seq = s.seq := rfl
@[simp] theorem State.emit_clock (s : State) (e : Event) : (s.emit e).clock = s.clock := rfl
@[simp] theorem State.emit_cmds (s : State) (e : Event) : (s.emit e).cmds = s.cmds := rfl
@[simp] theorem State.emit_sched (s : State) (e : Event) : (s.emit e).sched = s.sched := rfl
@[simp] theorem State.emit_trace (s : State) (e : Event) : (s.emit e).trace = s.trace ++ [e] := rfl

/-! ### `halt_reset()` sets HALTED and stops the sequencer. -/

@[simp] theorem haltReset_cfg (s : State) : (haltReset s).cfg = s.cfg := rfl
@[simp] theorem haltReset_rx (s : State) : (haltReset s).rx = s.rx := rfl
@[simp] theorem haltReset_tx (s : State) : (haltReset s).tx = s.tx := rfl
@[simp] theorem haltReset_crc32 (s : State) : (haltReset s).crc32 = s.crc32 := rfl
@[simp] theorem haltReset_crc8 (s : State) : (haltReset s).crc8 = s.crc8 := rfl
@[simp] theorem haltReset_enc (s : State) : (haltReset s).enc = s.enc := rfl
@[simp] theorem haltReset_dec (s : State) : (haltReset s).dec = s.dec := rfl
@[simp] theorem haltReset_pay (s : State) : (haltReset s).pay = s.pay := rfl
@[simp] theorem haltReset_sens (s : State) : (haltReset s).sens = s.sens := rfl
@[simp] theorem haltReset_ill (s : State) : (haltReset s).ill = s.ill := rfl
@[simp] theorem haltReset_halted (s : State) : (haltReset s).halted = true := rfl
@[simp] theorem haltReset_res (s : State) : (haltReset s).res = s.res := rfl
@[simp] theorem haltReset_ok (s : State) : (haltReset s).ok = s.ok := rfl
@[simp] theorem haltReset_rspValid (s : State) : (haltReset s).rspValid = s.rspValid := rfl
@[simp] theorem haltReset_bus (s : State) : (haltReset s).bus = s.bus := rfl
@[simp] theorem haltReset_rxAccept (s : State) : (haltReset s).rxAccept = s.rxAccept := rfl
@[simp] theorem haltReset_txValid (s : State) : (haltReset s).txValid = s.txValid := rfl
@[simp] theorem haltReset_txData (s : State) : (haltReset s).txData = s.txData := rfl
@[simp] theorem haltReset_seq (s : State) : (haltReset s).seq = .halted := rfl
@[simp] theorem haltReset_clock (s : State) : (haltReset s).clock = s.clock := rfl
@[simp] theorem haltReset_cmds (s : State) : (haltReset s).cmds = s.cmds := rfl
@[simp] theorem haltReset_sched (s : State) : (haltReset s).sched = s.sched := rfl
@[simp] theorem haltReset_trace (s : State) : (haltReset s).trace = s.trace := rfl

/-! ### An accepted command leaves the port; its response is awaited. -/

@[simp] theorem State.accept_cfg (s : State) : s.accept.cfg = s.cfg := rfl
@[simp] theorem State.accept_rx (s : State) : s.accept.rx = s.rx := rfl
@[simp] theorem State.accept_tx (s : State) : s.accept.tx = s.tx := rfl
@[simp] theorem State.accept_crc32 (s : State) : s.accept.crc32 = s.crc32 := rfl
@[simp] theorem State.accept_crc8 (s : State) : s.accept.crc8 = s.crc8 := rfl
@[simp] theorem State.accept_enc (s : State) : s.accept.enc = s.enc := rfl
@[simp] theorem State.accept_dec (s : State) : s.accept.dec = s.dec := rfl
@[simp] theorem State.accept_pay (s : State) : s.accept.pay = s.pay := rfl
@[simp] theorem State.accept_sens (s : State) : s.accept.sens = s.sens := rfl
@[simp] theorem State.accept_ill (s : State) : s.accept.ill = s.ill := rfl
@[simp] theorem State.accept_halted (s : State) : s.accept.halted = s.halted := rfl
@[simp] theorem State.accept_res (s : State) : s.accept.res = s.res := rfl
@[simp] theorem State.accept_ok (s : State) : s.accept.ok = s.ok := rfl
@[simp] theorem State.accept_rspValid (s : State) : s.accept.rspValid = false := rfl
@[simp] theorem State.accept_bus (s : State) : s.accept.bus = s.bus := rfl
@[simp] theorem State.accept_rxAccept (s : State) : s.accept.rxAccept = s.rxAccept := rfl
@[simp] theorem State.accept_txValid (s : State) : s.accept.txValid = s.txValid := rfl
@[simp] theorem State.accept_txData (s : State) : s.accept.txData = s.txData := rfl
@[simp] theorem State.accept_seq (s : State) : s.accept.seq = s.seq := rfl
@[simp] theorem State.accept_clock (s : State) : s.accept.clock = s.clock := rfl
@[simp] theorem State.accept_cmds (s : State) : s.accept.cmds = s.cmds.tail := rfl
@[simp] theorem State.accept_sched (s : State) : s.accept.sched = s.sched := rfl
@[simp] theorem State.accept_trace (s : State) : s.accept.trace = s.trace := rfl

/-! ### The illegal outcome sets STATUS.ILL and answers OK = 0. -/

@[simp] theorem illegalOutcome_cfg (s : State) : (illegalOutcome s).cfg = s.cfg := rfl
@[simp] theorem illegalOutcome_rx (s : State) : (illegalOutcome s).rx = s.rx := rfl
@[simp] theorem illegalOutcome_tx (s : State) : (illegalOutcome s).tx = s.tx := rfl
@[simp] theorem illegalOutcome_crc32 (s : State) : (illegalOutcome s).crc32 = s.crc32 := rfl
@[simp] theorem illegalOutcome_crc8 (s : State) : (illegalOutcome s).crc8 = s.crc8 := rfl
@[simp] theorem illegalOutcome_enc (s : State) : (illegalOutcome s).enc = s.enc := rfl
@[simp] theorem illegalOutcome_dec (s : State) : (illegalOutcome s).dec = s.dec := rfl
@[simp] theorem illegalOutcome_pay (s : State) : (illegalOutcome s).pay = s.pay := rfl
@[simp] theorem illegalOutcome_sens (s : State) : (illegalOutcome s).sens = s.sens := rfl
@[simp] theorem illegalOutcome_ill (s : State) : (illegalOutcome s).ill = true := rfl
@[simp] theorem illegalOutcome_halted (s : State) : (illegalOutcome s).halted = s.halted := rfl
@[simp] theorem illegalOutcome_res (s : State) : (illegalOutcome s).res = 0 := rfl
@[simp] theorem illegalOutcome_ok (s : State) : (illegalOutcome s).ok = false := rfl
@[simp] theorem illegalOutcome_rspValid (s : State) : (illegalOutcome s).rspValid = true := rfl
@[simp] theorem illegalOutcome_bus (s : State) : (illegalOutcome s).bus = s.bus := rfl
@[simp] theorem illegalOutcome_rxAccept (s : State) : (illegalOutcome s).rxAccept = s.rxAccept := rfl
@[simp] theorem illegalOutcome_txValid (s : State) : (illegalOutcome s).txValid = s.txValid := rfl
@[simp] theorem illegalOutcome_txData (s : State) : (illegalOutcome s).txData = s.txData := rfl
@[simp] theorem illegalOutcome_seq (s : State) : (illegalOutcome s).seq = s.seq := rfl
@[simp] theorem illegalOutcome_clock (s : State) : (illegalOutcome s).clock = s.clock := rfl
@[simp] theorem illegalOutcome_cmds (s : State) : (illegalOutcome s).cmds = s.cmds := rfl
@[simp] theorem illegalOutcome_sched (s : State) : (illegalOutcome s).sched = s.sched := rfl
@[simp] theorem illegalOutcome_trace (s : State) : (illegalOutcome s).trace = s.trace := rfl

/-! ### Reset keeps what is not the block's, and every register takes its reset value. -/

@[simp] theorem resetEvent_cfg (s : State) : (resetEvent s).cfg = s.cfg := rfl
@[simp] theorem resetEvent_rx (s : State) : (resetEvent s).rx = Ring.reset := rfl
@[simp] theorem resetEvent_tx (s : State) : (resetEvent s).tx = Ring.reset := rfl
@[simp] theorem resetEvent_crc32 (s : State) : (resetEvent s).crc32 = 0xFFFFFFFF := rfl
@[simp] theorem resetEvent_crc8 (s : State) : (resetEvent s).crc8 = 0 := rfl
@[simp] theorem resetEvent_enc (s : State) : (resetEvent s).enc = Enc.reset := rfl
@[simp] theorem resetEvent_dec (s : State) : (resetEvent s).dec = Dec.reset := rfl
@[simp] theorem resetEvent_pay (s : State) : (resetEvent s).pay = { buf := [], len := 0 } := rfl
@[simp] theorem resetEvent_sens (s : State) : (resetEvent s).sens = Sens.reset s.cfg := rfl
@[simp] theorem resetEvent_ill (s : State) : (resetEvent s).ill = false := rfl
@[simp] theorem resetEvent_halted (s : State) : (resetEvent s).halted = false := rfl
@[simp] theorem resetEvent_res (s : State) : (resetEvent s).res = 0 := rfl
@[simp] theorem resetEvent_ok (s : State) : (resetEvent s).ok = false := rfl
@[simp] theorem resetEvent_rspValid (s : State) : (resetEvent s).rspValid = false := rfl
@[simp] theorem resetEvent_bus (s : State) : (resetEvent s).bus = Bus.reset := rfl
@[simp] theorem resetEvent_rxAccept (s : State) : (resetEvent s).rxAccept = false := rfl
@[simp] theorem resetEvent_txValid (s : State) : (resetEvent s).txValid = false := rfl
@[simp] theorem resetEvent_txData (s : State) : (resetEvent s).txData = 0 := rfl
@[simp] theorem resetEvent_seq (s : State) : (resetEvent s).seq = .idle := rfl
@[simp] theorem resetEvent_clock (s : State) : (resetEvent s).clock = s.clock := rfl
@[simp] theorem resetEvent_cmds (s : State) : (resetEvent s).cmds = s.cmds := rfl
@[simp] theorem resetEvent_sched (s : State) : (resetEvent s).sched = s.sched := rfl
@[simp] theorem resetEvent_trace (s : State) : (resetEvent s).trace = s.trace := rfl

/-! ### A push writes the slot at W and advances W with its gray copy. -/

@[simp] theorem Ring.push_mem (n : Nat) (q : Ring) (b : Byte) : (q.push n b).mem = q.mem.write (q.w % n) b := rfl
@[simp] theorem Ring.push_w (n : Nat) (q : Ring) (b : Byte) : (q.push n b).w = (q.w + 1) % n := rfl
@[simp] theorem Ring.push_r (n : Nat) (q : Ring) (b : Byte) : (q.push n b).r = q.r := rfl
@[simp] theorem Ring.push_wg (n : Nat) (q : Ring) (b : Byte) : (q.push n b).wg = gray ((q.w + 1) % n) := rfl
@[simp] theorem Ring.push_rg (n : Nat) (q : Ring) (b : Byte) : (q.push n b).rg = q.rg := rfl
@[simp] theorem Ring.push_wv (n : Nat) (q : Ring) (b : Byte) : (q.push n b).wv = q.wv := rfl
@[simp] theorem Ring.push_rv (n : Nat) (q : Ring) (b : Byte) : (q.push n b).rv = q.rv := rfl

/-! ### A consumer's advance moves R with its gray copy. -/

@[simp] theorem Ring.advance_mem (n : Nat) (q : Ring) : (q.advance n).mem = q.mem := rfl
@[simp] theorem Ring.advance_w (n : Nat) (q : Ring) : (q.advance n).w = q.w := rfl
@[simp] theorem Ring.advance_r (n : Nat) (q : Ring) : (q.advance n).r = (q.r + 1) % n := rfl
@[simp] theorem Ring.advance_wg (n : Nat) (q : Ring) : (q.advance n).wg = q.wg := rfl
@[simp] theorem Ring.advance_rg (n : Nat) (q : Ring) : (q.advance n).rg = gray ((q.r + 1) % n) := rfl
@[simp] theorem Ring.advance_wv (n : Nat) (q : Ring) : (q.advance n).wv = q.wv := rfl
@[simp] theorem Ring.advance_rv (n : Nat) (q : Ring) : (q.advance n).rv = q.rv := rfl

end Sys2Proof.Machine
end

