-- ==== Sys2Proof/Laws/Memory.lean ====
section
/-! SUPPORT. Byte spaces: read after write, the canonical form, and what each of the named reads and writes can answer. -/

namespace Sys2Proof.Machine

/-! ### Reads after a write -/

@[simp] theorem Memory.read_nil (i : Nat) : Memory.read [] i = none := rfl

theorem Memory.read_write_self (m : Memory) (i : Nat) (b : Byte) : (m.write i b).read i = some b := by
  induction m with
  | nil => simp [Memory.write, Memory.read]
  | cons c t ih =>
    obtain ⟨a, v⟩ := c
    simp only [Memory.write]
    split
    · simp [Memory.read]
    · split
      · simp [Memory.read]
      · next h => simp [Memory.read, Ne.symm h, ih]

theorem Memory.read_write_other (m : Memory) (i j : Nat) (b : Byte) (h : j ≠ i) : (m.write i b).read j = m.read j := by
  induction m with
  | nil => simp [Memory.write, Memory.read, Ne.symm h]
  | cons c t ih =>
    obtain ⟨a, v⟩ := c
    simp only [Memory.write]
    split
    · simp [Memory.read, Ne.symm h]
    · split
      · next he => subst he; simp [Memory.read, Ne.symm h]
      · simp [Memory.read, ih]

/-- What one write does to every read. -/
theorem Memory.read_write (m : Memory) (i j : Nat) (b : Byte) :
    (m.write i b).read j = if j = i then some b else m.read j := by
  split
  · next h => subst h; exact m.read_write_self j b
  · next h => exact m.read_write_other i j b h

/-- A written byte stays written. -/
theorem Memory.read_isSome_write (m : Memory) (i j : Nat) (b : Byte) (h : (m.read j).isSome = true) :
    ((m.write i b).read j).isSome = true := by
  rw [Memory.read_write]; split <;> simp_all

/-! ### The canonical form -/

/-- A write adds no cell but its own. -/
theorem Memory.mem_write {m : Memory} {i : Nat} {b : Byte} {c : Host.Cell} (h : c ∈ m.write i b) : c = (i, b) ∨ c ∈ m := by
  induction m with
  | nil => simpa [Memory.write] using h
  | cons d t ih =>
    obtain ⟨a, v⟩ := d
    simp only [Memory.write] at h
    split at h
    · simpa using h
    · split at h
      · simp only [List.mem_cons] at h ⊢; tauto
      · simp only [List.mem_cons] at h ⊢
        rcases h with h | h
        · exact .inr (.inl h)
        · rcases ih h with h | h
          · exact .inl h
          · exact .inr (.inr h)

/-- A write keeps the canonical form. -/
theorem Memory.wf_write {m : Memory} (h : m.wf) (i : Nat) (b : Byte) : (m.write i b).wf := by
  induction m with
  | nil => simp [Memory.write, Memory.wf]
  | cons c t ih =>
    obtain ⟨a, v⟩ := c
    simp only [Memory.wf, List.map_cons, List.pairwise_cons, List.mem_map, forall_exists_index, and_imp,
      forall_apply_eq_imp_iff₂] at h ih ⊢
    simp only [Memory.write]
    split
    · next hi =>
      refine List.pairwise_cons.2 ⟨fun x hx => ?_, List.pairwise_cons.2 ⟨fun x hx => ?_, h.2⟩⟩
      · rcases List.mem_cons.1 hx with rfl | hx
        · exact hi
        · obtain ⟨y, hy, rfl⟩ := List.mem_map.1 hx; exact Nat.lt_trans hi (h.1 y hy)
      · obtain ⟨y, hy, rfl⟩ := List.mem_map.1 hx; exact h.1 y hy
    · split
      · next he => subst he; exact List.pairwise_cons.2 ⟨fun x hx => by
          obtain ⟨y, hy, rfl⟩ := List.mem_map.1 hx; exact h.1 y hy, h.2⟩
      · next hlt hne =>
        refine List.pairwise_cons.2 ⟨fun x hx => ?_, ih h.2⟩
        obtain ⟨y, hy, rfl⟩ := List.mem_map.1 hx
        rcases Memory.mem_write hy with rfl | hy
        · show a < i; omega
        · exact h.1 y hy

/-- A write inside a space keeps every index inside it. -/
theorem Memory.indices_write {m : Memory} {size i : Nat} (h : ∀ c ∈ m, c.1 < size) (hi : i < size) (b : Byte) :
    ∀ c ∈ m.write i b, c.1 < size := by
  intro c hc
  rcases Memory.mem_write hc with rfl | hc
  · exact hi
  · exact h c hc

/-- Below its first index a memory lists nothing. -/
theorem Memory.read_lt {m : Memory} {a i : Nat} (h : ∀ c ∈ m, a < c.1) (hi : i ≤ a) : m.read i = none := by
  induction m with
  | nil => rfl
  | cons c t ih =>
    obtain ⟨x, v⟩ := c
    have hx : a < x := h (x, v) (by simp)
    have hne : ¬ x = i := by omega
    simp only [Memory.read, hne, if_false]
    exact ih fun c hc => h c (by simp [hc])

/-- Two memories in canonical form that read alike are the same data. -/
theorem Memory.ext_read {m m' : Memory} (h : m.wf) (h' : m'.wf) (e : ∀ i, m.read i = m'.read i) : m = m' := by
  induction m generalizing m' with
  | nil =>
    cases m' with
    | nil => rfl
    | cons c t => have := e c.1; simp [Memory.read] at this
  | cons c t ih =>
    cases m' with
    | nil => have := e c.1; simp [Memory.read] at this
    | cons c' t' =>
      obtain ⟨a, v⟩ := c
      obtain ⟨a', v'⟩ := c'
      have hk : ∀ d ∈ t, a < d.1 := fun d hd => (List.pairwise_cons.1 h).1 d.1 (List.mem_map_of_mem hd)
      have hk' : ∀ d ∈ t', a' < d.1 := fun d hd => (List.pairwise_cons.1 h').1 d.1 (List.mem_map_of_mem hd)
      have haa : a = a' := by
        rcases Nat.lt_trichotomy a a' with hlt | rfl | hlt
        · have := e a
          simp [Memory.read, Nat.ne_of_gt hlt, Memory.read_lt hk' (Nat.le_of_lt hlt)] at this
        · rfl
        · have := e a'
          simp [Memory.read, Nat.ne_of_gt hlt, Memory.read_lt hk (Nat.le_of_lt hlt)] at this
      subst haa
      have hv : v = v' := by have := e a; simpa [Memory.read] using this
      subst hv
      congr 1
      refine ih (List.pairwise_cons.1 h).2 (List.pairwise_cons.1 h').2 fun i => ?_
      by_cases hi : a = i
      · subst hi; rw [Memory.read_lt hk (Nat.le_refl _), Memory.read_lt hk' (Nat.le_refl _)]
      · simpa [Memory.read, hi] using e i

/-- Every byte space is in canonical form after reset. -/
theorem reset_wf (c : Config) (sp : Space) : ((State.resetIn c).space sp).wf := by
  cases sp <;> simp [State.space, State.resetIn, Ring.reset, Enc.reset, Dec.reset, Memory.wf]

/-- `State.reset` is in canonical form. -/
theorem state_reset_wf (sp : Space) : (State.reset.space sp).wf := reset_wf Config.vectors sp

/-! ### The accesses -/

/-- `readByte` answers exactly a written byte inside the space. -/
theorem readByte_ok {sp : Space} {size i : Nat} {m : Memory} {b : Byte} :
    readByte sp size m i = .ok b ↔ i < size ∧ m.read i = some b := by
  unfold readByte
  by_cases h : i < size <;> cases hr : m.read i <;> simp [h]

/-- Everything `writeByte` can answer. -/
theorem writeByte_ok {sp : Space} {size i : Nat} {m m' : Memory} {b : Byte} :
    writeByte sp size m i b = .ok m' ↔ i < size ∧ m' = m.write i b := by
  unfold writeByte
  by_cases h : i < size <;> simp [h, eq_comm]

/-- A checked write keeps the canonical form. -/
theorem writeByte_wf {sp : Space} {size i : Nat} {m m' : Memory} {b : Byte} (hm : m.wf)
    (h : writeByte sp size m i b = .ok m') : m'.wf := by
  obtain ⟨_, rfl⟩ := writeByte_ok.1 h; exact Memory.wf_write hm i b

/-- Reading a string that stands in the space gives the string. -/
theorem readBytes_ok {sp : Space} {size : Nat} {m : Memory} (bs : List Byte) (i : Nat)
    (h : ∀ k (hk : k < bs.length), i + k < size ∧ m.read (i + k) = some bs[k]) :
    readBytes sp size m i bs.length = .ok bs := by
  induction bs generalizing i with
  | nil => rfl
  | cons b t ih =>
    have h0 := h 0 (by simp)
    have ht := ih (i + 1) fun k hk => by
      have := h (k + 1) (by simpa using hk)
      simpa [Nat.add_assoc, Nat.add_comm 1 k] using this
    have hb : readByte sp size m i = .ok b := readByte_ok.2 (by simpa using h0)
    show (do let b ← readByte sp size m i; let rest ← readBytes sp size m (i + 1) t.length; .ok (b :: rest)) = _
    simp [hb, ht, bind, Except.bind]

/-- What a read of `n` bytes answers has `n` bytes, each the one the space holds. -/
theorem readBytes_length {sp : Space} {size : Nat} {m : Memory} (n i : Nat) {bs : List Byte}
    (h : readBytes sp size m i n = .ok bs) : bs.length = n := by
  induction n generalizing i bs with
  | zero => simp only [readBytes, Except.ok.injEq] at h; simp [← h]
  | succ n ih =>
    simp only [readBytes, bind, Except.bind] at h
    split at h
    · exact absurd h (by simp)
    · next b hb =>
      split at h
      · exact absurd h (by simp)
      · next rest hr =>
        simp only [Except.ok.injEq] at h
        simp [← h, ih (i + 1) hr]

end Sys2Proof.Machine
end

