-- ==== Sys2Proof/Laws/Units.lean ====
section
/-! SUPPORT. What each shared operation of the encoder, the decoder, the payload buffer and the CRC unit can do. -/

namespace Sys2Proof.Machine

/-! ### Encoder -/

/-- `alloc()` gives the next index, or sets ENC_OVF. -/
theorem Enc.alloc_eq (size : Nat) (e : Enc) :
    e.alloc size = if size ≤ e.len.toNat then (none, { e with ovf := true }) else (some e.len.toNat, { e with len := e.len + 1 }) :=
  rfl

/-- A code byte is written inside ENCBUF, and nothing else of the encoder changes. -/
theorem Enc.writeCode_ok {size : Nat} {e e' : Enc} {c : Byte} :
    e.writeCode size c = .ok e' ↔ e.cp.toNat < size ∧ e' = { e with buf := e.buf.write e.cp.toNat c } := by
  unfold Enc.writeCode writeByte
  by_cases h : e.cp.toNat < size <;> simp [h, bind, Except.bind, eq_comm]

/-- Opening a block reserves the next index as its code slot, or sets ENC_OVF. -/
theorem Enc.openBlock_eq (size : Nat) (e : Enc) :
    e.openBlock size =
      if size ≤ e.len.toNat then { e with ovf := true }
      else { e with
        buf := e.buf.write e.len.toNat 0, len := e.len + 1, cp := BitVec.ofNat 16 e.len.toNat, code := 1 } := by
  by_cases h : size ≤ e.len.toNat <;> simp [Enc.openBlock, Enc.alloc, h]

/-- The trailing delimiter takes the next index, or sets ENC_OVF. -/
theorem Enc.delimit_eq (size : Nat) (e : Enc) :
    e.delimit size =
      if size ≤ e.len.toNat then { e with ovf := true }
      else { e with buf := e.buf.write e.len.toNat 0, len := e.len + 1 } := by
  by_cases h : size ≤ e.len.toNat <;> simp [Enc.delimit, Enc.alloc, h]

/-- ENC_BEGIN's effects, in a buffer of two bytes or more. -/
theorem Enc.start_eq {size : Nat} (e : Enc) (h : 2 ≤ size) :
    e.start size = .ok { buf := (e.buf.write 0 0).write 1 0, phase := .opened, ovf := false, len := 2, cp := 1, code := 1 } := by
  have h0 : 0 < size := by omega
  have h1 : 1 < size := by omega
  simp [Enc.start, writeByte, h0, h1, bind, Except.bind]

/-- An encoder that does not accept the byte stays as it is. -/
theorem Enc.put_ignored {size : Nat} {e : Enc} (h : e.accepts = false) (b : Byte) : e.put size b = .ok e := by
  simp [Enc.put, h]

/-- A data byte: it does not fit, or it is stored, and the 254th of a block closes the block. -/
theorem Enc.put_data {size : Nat} {e : Enc} (h : e.accepts = true) {b : Byte} (hb : b ≠ 0) :
    e.put size b =
      if size ≤ e.len.toNat then .ok { e with ovf := true }
      else
        let e1 := { e with buf := e.buf.write e.len.toNat b, len := e.len + 1, code := e.code + 1 }
        if e.code + 1 = 0xFF#8 then (e1.writeCode size 0xFF).map (Enc.openBlock size) else .ok e1 := by
  simp only [Enc.put, h, if_true, hb, if_false, Enc.putData, Enc.alloc]
  split
  · next heq => split at heq <;> simp_all
  · next heq =>
    split at heq
    · simp at heq
    · next hs =>
      simp only [Prod.mk.injEq, Option.some.injEq] at heq
      obtain ⟨rfl, rfl⟩ := heq
      simp only [hs, if_false]
      split <;> rfl

/-- A zero byte closes the block and opens the next one. -/
theorem Enc.put_zero {size : Nat} {e : Enc} (h : e.accepts = true) :
    e.put size 0 = (e.writeCode size e.code).map (Enc.openBlock size) := by
  simp only [Enc.put, h, if_true, Enc.putZero]; rfl

/-- Feeding a string is feeding its parts. -/
theorem Enc.putAll_append (size : Nat) (a b : List Byte) (e : Enc) :
    Enc.putAll size e (a ++ b) = (Enc.putAll size e a).bind fun e' => Enc.putAll size e' b := by
  induction a generalizing e with
  | nil => rfl
  | cons x t ih =>
    show (e.put size x).bind (fun e' => Enc.putAll size e' (t ++ b)) =
      ((e.put size x).bind fun e' => Enc.putAll size e' t).bind fun e' => Enc.putAll size e' b
    cases e.put size x with
    | error f => rfl
    | ok e' => exact ih e'

/-! ### Decoder -/

/-- A terminal decoder ignores the byte. -/
theorem Dec.put_terminal {d : Dec} (h : d.st ≠ .more) (size : Nat) (x : Byte) : d.put size x = d := by simp [Dec.put, h]

/-- Whatever a decoder is fed, DECBUF keeps its canonical form. -/
theorem Dec.put_wf {size : Nat} {d : Dec} (h : d.buf.wf) (x : Byte) : (d.put size x).buf.wf := by
  have emit : ∀ (d : Dec) (v : Byte), d.buf.wf → (d.emitByte size v).buf.wf := by
    intro d v h
    simp only [Dec.emitByte]
    split
    · exact h
    · exact Memory.wf_write h _ _
  unfold Dec.put
  split
  · split
    · exact h
    · split
      · have h1 : (if (d.have_ && d.code ≠ 0xFF#8) = true then d.emitByte size 0 else d).buf.wf := by
          split
          · exact emit _ _ h
          · exact h
        have code : ∀ d1 : Dec, d1.buf.wf →
            (if d1.st = .more then { d1 with code := x, rem := x - 1, have_ := true } else d1).buf.wf := by
          intro d1 h1; split <;> exact h1
        exact code _ h1
      · have data : ∀ d1 : Dec, d1.buf.wf → (if d1.st = .more then { d1 with rem := d1.rem - 1 } else d1).buf.wf := by
          intro d1 h1; split <;> exact h1
        exact data _ (emit _ _ h)
  · exact h

/-! ### Encoder: the canonical form -/

theorem Enc.openBlock_wf {size : Nat} {e : Enc} (h : e.buf.wf) : (e.openBlock size).buf.wf := by
  rw [Enc.openBlock_eq]; split
  · exact h
  · exact Memory.wf_write h _ _

theorem Enc.writeCode_wf {size : Nat} {e e' : Enc} {c : Byte} (h : e.buf.wf) (he : e.writeCode size c = .ok e') : e'.buf.wf := by
  obtain ⟨_, rfl⟩ := Enc.writeCode_ok.1 he; exact Memory.wf_write h _ _

theorem Enc.put_wf {size : Nat} {e e' : Enc} {b : Byte} (h : e.buf.wf) (he : e.put size b = .ok e') : e'.buf.wf := by
  by_cases ha : e.accepts = true
  · by_cases hb : b = 0
    · subst hb
      rw [Enc.put_zero ha] at he
      cases hw : e.writeCode size e.code with
      | error f => simp [hw, Except.map] at he
      | ok e1 =>
        simp only [hw, Except.map, Except.ok.injEq] at he
        subst he; exact Enc.openBlock_wf (Enc.writeCode_wf h hw)
    · rw [Enc.put_data ha hb] at he
      split at he
      · simp only [Except.ok.injEq] at he; subst he; exact h
      · dsimp only at he
        split at he
        · generalize hw : Enc.writeCode size _ _ = w at he
          cases w with
          | error f => simp [Except.map] at he
          | ok e1 =>
            simp only [Except.map, Except.ok.injEq] at he
            subst he; exact Enc.openBlock_wf (Enc.writeCode_wf (Memory.wf_write h _ _) hw)
        · simp only [Except.ok.injEq] at he; subst he; exact Memory.wf_write h _ _
  · rw [Enc.put_ignored (by simpa using ha)] at he
    simp only [Except.ok.injEq] at he; subst he; exact h

theorem Enc.close_wf {size : Nat} {e e' : Enc} (h : e.buf.wf) (he : e.close size = .ok e') : e'.buf.wf := by
  unfold Enc.close at he
  split at he
  · split at he
    · simp only [Except.ok.injEq] at he; subst he; exact h
    · simp only [bind, Except.bind] at he
      split at he
      · exact absurd he (by simp)
      · next e1 hw =>
        simp only [Except.ok.injEq] at he; subst he
        have h1 := Enc.writeCode_wf h hw
        show (e1.delimit size).buf.wf
        rw [Enc.delimit_eq]; split
        · exact h1
        · exact Memory.wf_write h1 _ _
  · simp only [Except.ok.injEq] at he; subst he; exact h

theorem Enc.start_wf {size : Nat} {e e' : Enc} (h : e.buf.wf) (he : e.start size = .ok e') : e'.buf.wf := by
  simp only [Enc.start, bind, Except.bind] at he
  split at he
  · exact absurd he (by simp)
  · next b0 h0 =>
    split at he
    · exact absurd he (by simp)
    · next b1 h1 =>
      simp only [Except.ok.injEq] at he; subst he
      exact writeByte_wf (writeByte_wf h h0) h1

theorem Enc.putAll_wf {size : Nat} (bs : List Byte) {e e' : Enc} (h : e.buf.wf) (he : Enc.putAll size e bs = .ok e') :
    e'.buf.wf := by
  induction bs generalizing e with
  | nil => simp only [Enc.putAll, Except.ok.injEq] at he; subst he; exact h
  | cons b t ih =>
    simp only [Enc.putAll, bind, Except.bind] at he
    split at he
    · exact absurd he (by simp)
    · next e1 h1 => exact ih (Enc.put_wf h h1) he

theorem buildFrame_wf {size : Nat} {t : Byte} {payload : List Byte} {e e' : Enc} (h : e.buf.wf)
    (he : buildFrame size t payload e = .ok e') : e'.buf.wf := by
  simp only [buildFrame, bind, Except.bind] at he
  split at he
  · exact absurd he (by simp)
  · next e1 h1 =>
    split at he
    · exact absurd he (by simp)
    · next e2 h2 => exact Enc.close_wf (Enc.putAll_wf _ (Enc.start_wf h h1) h2) he

/-! ### Payload buffer and rings: the canonical form -/

theorem Pay.append_wf {p : Pay} (h : p.buf.wf) (b : Byte) : (p.append b).buf.wf := Memory.wf_write h _ _

theorem Ring.push_wf {q : Ring} (h : q.mem.wf) (n : Nat) (b : Byte) : (q.push n b).mem.wf := Memory.wf_write h _ _

/-! ### CRC -/

/-- Chaining is exact (41_crc.md R75). -/
theorem crc32_append (a b : List Byte) (seed : Word) : crc32 (a ++ b) seed = crc32 b (crc32 a seed) := by
  simp [crc32, List.foldl_append]

@[simp] theorem crc32_nil (seed : Word) : crc32 [] seed = seed := rfl

@[simp] theorem crc8_nil : crc8 [] = 0 := rfl

end Sys2Proof.Machine
end

