-- ==== Sys2Proof/Laws/Sequencer.lean ====
section
/-! SUPPORT. The sequencer: what one micro-step can do, and how a property of every micro-step becomes one of every turn of CMD. -/

namespace Sys2Proof.Machine

/-! ### Turns of CMD -/

/-- Without a command in progress CMD's loop does nothing. -/
theorem runMicro_idle {s : State} (h : s.seq.running = false) (fuel : Nat) : runMicro fuel s = .next s := by
  cases fuel <;> simp [runMicro, h]

theorem resume_idle {s : State} (h : s.seq.running = false) : resume s = .next s := runMicro_idle h _

/-- With an empty schedule, one micro-step of a command that does not wait. -/
theorem runMicro_step {s s' : State} (hr : s.seq.running = true) (hs : s.sched = []) (hb : s.blocked = false)
    (h : microStep s = .ok s') (fuel : Nat) : runMicro (fuel + 1) s = runMicro fuel s' := by
  simp [runMicro, hr, hs, hb, h]

/-- With an empty schedule, a command that waits on the bus stays where it is. -/
theorem runMicro_blocked {s : State} (hs : s.sched = []) (hb : s.blocked = true) (fuel : Nat) : runMicro fuel s = .next s := by
  cases fuel with
  | zero => rfl
  | succ n => by_cases hr : s.seq.running = true <;> simp [runMicro, hr, hs, hb]

/-- One entry of the schedule that is CMD's. -/
theorem runMicro_cmd {s s' : State} {rest : List Agent} (hr : s.seq.running = true) (hs : s.sched = .cmd :: rest)
    (h : microStep { s with sched := rest } = .ok s') (fuel : Nat) : runMicro (fuel + 1) s = runMicro fuel s' := by
  simp [runMicro, hr, hs, h]

/-- A turn of CMD ends where another agent is due. -/
theorem runMicro_yield {s : State} {a : Agent} {rest : List Agent} (hs : s.sched = a :: rest) (ha : a ≠ .cmd) (fuel : Nat) :
    runMicro fuel s = .next s := by
  cases fuel with
  | zero => rfl
  | succ n =>
    by_cases hr : s.seq.running = true
    · cases a <;> first | exact absurd rfl ha | simp [runMicro, hr, hs]
    · simp [runMicro, hr]

/-- A property that every micro-step keeps, and that does not look at the schedule, is kept by CMD's loop. -/
theorem runMicro_keeps {P : State → Prop} (hd : ∀ s rest, P s → P { s with sched := rest })
    (hm : ∀ s s', P s → microStep s = .ok s' → P s') (fuel : Nat) {s t : State} (hs : P s)
    (h : runMicro fuel s = .next t) : P t := by
  induction fuel generalizing s with
  | zero => simp only [runMicro, Host.Outcome.next.injEq] at h; exact h ▸ hs
  | succ n ih =>
    simp only [runMicro] at h
    split at h
    · split at h
      · split at h
        · simp only [Host.Outcome.next.injEq] at h; exact h ▸ hs
        · split at h
          · next heq => exact ih (hm _ _ hs heq) h
          · exact absurd h (by simp)
      · split at h
        · next heq => exact ih (hm _ _ (hd _ _ hs) heq) h
        · exact absurd h (by simp)
      · simp only [Host.Outcome.next.injEq] at h; exact h ▸ hs
    · simp only [Host.Outcome.next.injEq] at h; exact h ▸ hs

/-- CMD's loop never refuses. -/
theorem runMicro_not_refused (fuel : Nat) (s : State) (r : Refusal) : runMicro fuel s ≠ .refused r := by
  induction fuel generalizing s with
  | zero => simp [runMicro]
  | succ n ih =>
    intro h
    simp only [runMicro] at h
    split at h
    · split at h
      · split at h
        · exact absurd h (by simp)
        · split at h
          · exact ih _ h
          · exact absurd h (by simp)
      · split at h
        · exact ih _ h
        · exact absurd h (by simp)
      · exact absurd h (by simp)
    · exact absurd h (by simp)

/-- A macro command's acceptance keeps what every micro-step keeps. -/
theorem launch_keeps {P : State → Prop} (hd : ∀ s rest, P s → P { s with sched := rest })
    (hm : ∀ s s', P s → microStep s = .ok s' → P s') {p : Seq} {s t : State} (hs : P (s.goto p))
    (h : launch p s = .next t) : P t := by
  unfold launch at h
  split at h
  · next heq => exact runMicro_keeps hd hm _ (hm _ _ hs heq) h
  · exact absurd h (by simp)

/-! ### What a micro-step can do -/

/-- A send either is rejected, or leaves a frame in ENCBUF and its CRC in CRC32_ACC, with TX_COMMIT's effects next. -/
theorem sendFrame_ok {after : After} {t : Byte} {m : Nat} {src : Except Fault (List Byte)} {s s' : State}
    (h : sendFrame after t m src s = .ok s') :
    (s.cfg.txbufSize < frameMax (packetLength m) ∧ s' = commitDone after false 0 s) ∨
    (¬ s.cfg.txbufSize < frameMax (packetLength m) ∧ ∃ payload e, src = .ok payload ∧
      buildFrame s.cfg.txbufSize t payload s.enc = .ok e ∧
      s' = { s with crc32 := crc32 (packetBody t payload) crc32Seed, enc := e }.goto (.room after)) := by
  unfold sendFrame at h
  split at h
  · next hs => simp only [Except.ok.injEq] at h; exact .inl ⟨hs, h.symm⟩
  · next hs =>
    simp only [bind, Except.bind] at h
    split at h
    · exact absurd h (by simp)
    · next p =>
      split at h
      · exact absurd h (by simp)
      · next e he =>
        simp only [Except.ok.injEq] at h
        exact .inr ⟨hs, p, e, rfl, he, h.symm⟩

/-- One turn of TX_COMMIT's loop pushes the next byte of ENCBUF, or ends the command. -/
theorem commitStep_ok {after : After} {j len : Nat} {s s' : State} (h : commitStep after j len s = .ok s') :
    (j < len ∧ ∃ b, j < s.cfg.txbufSize ∧ s.enc.buf.read j = some b ∧
      s' = { s with tx := s.tx.push s.cfg.nTx b }.goto (.commit after (j + 1) len)) ∨
    (len ≤ j ∧ s' = commitDone after true (zextNat len) s) := by
  unfold commitStep at h
  split at h
  · next hj =>
    simp only [bind, Except.bind] at h
    split at h
    · exact absurd h (by simp)
    · next b hb =>
      simp only [Except.ok.injEq] at h
      exact .inl ⟨hj, b, (readByte_ok.1 hb).1, (readByte_ok.1 hb).2, h.symm⟩
  · next hj => simp only [Except.ok.injEq] at h; exact .inr ⟨by omega, h.symm⟩

/-- One turn of the drain pops the byte at the head of RX into the decoder, or ends the drain. -/
theorem drainStep_ok {acc : Word} {k : Nat} {s s' : State} (h : drainStep acc k s = .ok s') :
    ((s.cfg.rxcandSize ≤ k ∨ s.rx.avail s.cfg.nRx = 0) ∧ s' = if k = 0 then s.finish acc true else s.goto (.check acc)) ∨
    (¬ (s.cfg.rxcandSize ≤ k ∨ s.rx.avail s.cfg.nRx = 0) ∧ ∃ x, s.rx.peek .rxMem s.cfg.nRx 0 = .ok x ∧
      s' = { s with
          rx := s.rx.advance s.cfg.nRx
          dec := (if k = 0 then s.dec.start else s.dec).put s.cfg.rxbufSize x }.goto
        (if x = 0 then .check acc else .drain acc (k + 1))) := by
  unfold drainStep at h
  split at h
  · next hc => simp only [Except.ok.injEq] at h; exact .inl ⟨hc, h.symm⟩
  · next hc =>
    simp only [bind, Except.bind] at h
    split at h
    · exact absurd h (by simp)
    · next x hx => simp only [Except.ok.injEq] at h; exact .inr ⟨hc, x, hx, h.symm⟩

/-- A check either discards the candidate for what the decoder says of it, or tests the decoded packet. -/
theorem checkStep_ok {acc : Word} {s s' : State} (h : checkStep acc s = .ok s') :
    (∃ code, s' = discardCandidate code acc s) ∨
    ∃ p, readBytes .decbuf s.cfg.rxbufSize s.dec.buf 0 s.dec.len.toNat = .ok p ∧ s' = checkPacket p acc s := by
  unfold checkStep at h
  split at h
  · simp only [Except.ok.injEq] at h; exact .inl ⟨_, h.symm⟩
  · simp only [Except.ok.injEq] at h; exact .inl ⟨_, h.symm⟩
  · simp only [Except.ok.injEq] at h; exact .inl ⟨_, h.symm⟩
  · split at h
    · simp only [Except.ok.injEq] at h; exact .inl ⟨_, h.symm⟩
    · simp only [bind, Except.bind] at h
      split at h
      · exact absurd h (by simp)
      · next p hp => simp only [Except.ok.injEq] at h; exact .inr ⟨p, hp, h.symm⟩

/-- A wait step takes the answer, times out, or changes nothing. -/
theorem waitStep_cases (x : Xfer) (ph : Phase) (todo : List Phase) (s : State) :
    (∃ r, s.bus.rsp = some r ∧
      waitStep x ph todo s = { s with bus := { s.bus with pend := none, rsp := none } }.goto (afterAnswer x ph todo r)) ∨
    (s.bus.rsp = none ∧ timedOut x s = true ∧
      waitStep x ph todo s = { s with bus := { s.bus with pend := none } }.goto (.postStop x false)) ∨
    (s.bus.rsp = none ∧ timedOut x s = false ∧ waitStep x ph todo s = s) := by
  unfold waitStep
  cases hr : s.bus.rsp with
  | some r => exact .inl ⟨r, rfl, rfl⟩
  | none => by_cases ht : timedOut x s = true <;> simp [ht]

/-! ### What no micro-step changes -/

/-- Two states agree on everything but what CMD's micro-steps write. -/
abbrev sameOutside (s t : State) : Prop :=
  t.cfg = s.cfg ∧ t.clock = s.clock ∧ t.rx.mem = s.rx.mem ∧ t.rx.w = s.rx.w ∧ t.rx.wg = s.rx.wg ∧
  t.rx.wv = s.rx.wv ∧ t.rx.rv = s.rx.rv ∧ t.tx.r = s.tx.r ∧ t.tx.rg = s.tx.rg ∧ t.tx.wv = s.tx.wv ∧
  t.tx.rv = s.tx.rv ∧ t.rxAccept = s.rxAccept ∧ t.txValid = s.txValid ∧ t.txData = s.txData ∧
  t.pay = s.pay ∧ t.ill = s.ill ∧ t.cmds = s.cmds ∧ t.sched = s.sched

theorem commitDone_outside (after : After) (ok : Bool) (len : Word) (s : State) : sameOutside s (commitDone after ok len s) := by
  cases after <;> simp [sameOutside, commitDone, measurementDone, sensDone]

theorem sendFrame_outside {after : After} {t : Byte} {m : Nat} {src : Except Fault (List Byte)} {s s' : State}
    (h : sendFrame after t m src s = .ok s') : sameOutside s s' := by
  rcases sendFrame_ok h with ⟨_, rfl⟩ | ⟨_, p, e, _, _, rfl⟩
  · exact commitDone_outside _ _ _ _
  · simp [sameOutside]

theorem checkPacket_outside (p : List Byte) (acc : Word) (s : State) : sameOutside s (checkPacket p acc s) := by
  simp only [checkPacket, discardCandidate, dispatch]
  split
  · simp [sameOutside]
  · split
    · simp [sameOutside]
    · split
      · simp [sameOutside]
      · split <;> simp [sameOutside]

theorem xferDone_outside {x : Xfer} {ok : Bool} {s s' : State} (h : xferDone x ok s = .ok s') : sameOutside s s' := by
  unfold xferDone at h
  split at h
  · split at h <;> simp only [Except.ok.injEq] at h <;> subst h <;> simp [sameOutside, sensDone, sensFail]
  · split at h
    · dsimp only at h
      split at h <;> simp only [Except.ok.injEq] at h <;> subst h <;> simp [sameOutside, sensDone, sensFail]
    · simp only [Except.ok.injEq] at h; subst h; simp [sameOutside, sensDone, sensFail]
  · split at h <;> simp only [Except.ok.injEq] at h <;> subst h <;> simp [sameOutside, sensDone, sensFail]
  · split at h
    · dsimp only at h
      split at h
      · have := sendFrame_outside h; exact this
      · simp only [Except.ok.injEq] at h; subst h; simp [sameOutside, sensDone, sensFail]
    · simp only [Except.ok.injEq] at h; subst h; simp [sameOutside, sensDone, sensFail]

/-- No micro-step writes another domain's registers, the payload buffer, STATUS.ILL, the commands or the schedule. -/
theorem microStep_outside {s s' : State} (h : microStep s = .ok s') : sameOutside s s' := by
  unfold microStep at h
  split at h
  · simp only [Except.ok.injEq] at h; subst h; simp [sameOutside]
  · simp only [Except.ok.injEq] at h; subst h
    unfold roomStep
    split
    · exact commitDone_outside _ _ _ _
    · split
      · exact commitDone_outside _ _ _ _
      · simp [sameOutside]
  · rcases commitStep_ok h with ⟨_, b, _, _, rfl⟩ | ⟨_, rfl⟩
    · simp [sameOutside]
    · exact commitDone_outside _ _ _ _
  · rcases drainStep_ok h with ⟨_, rfl⟩ | ⟨_, x, _, rfl⟩
    · split <;> simp [sameOutside]
    · simp [sameOutside]
  · rcases checkStep_ok h with ⟨c, rfl⟩ | ⟨p, _, rfl⟩
    · simp [sameOutside, discardCandidate]
    · exact checkPacket_outside _ _ _
  · simp only [Except.ok.injEq] at h; subst h
    unfold sampleStep
    split <;> simp [sameOutside]
  · simp only [Except.ok.injEq] at h; subst h; simp [sameOutside, xferStartStep]
  · simp only [Except.ok.injEq] at h; subst h; simp [sameOutside, requestStep]
  · next x ph todo _ =>
    simp only [Except.ok.injEq] at h; subst h
    rcases waitStep_cases x ph todo s with ⟨r, _, e⟩ | ⟨_, _, e⟩ | ⟨_, _, e⟩ <;> rw [e] <;> simp [sameOutside]
  · unfold postStopStep at h; have := xferDone_outside h; exact this
  · simp only [Except.ok.injEq] at h; subst h; simp [sameOutside]

end Sys2Proof.Machine
end

