-- ==== Sys2Proof/Laws/Fairness.lean ====
section
/-! SUPPORT. What the fairness of 70_reset_and_hazards.md R134 is strong enough for: in a fair run every SENS_STEP completes, so
every bus timeout is reached. The measure counts the micro-steps that SENS_STEP has still to take. -/

namespace Sys2Proof.Machine

/-! ### The micro-steps a SENS_STEP has still to take -/

/-- A transaction that another one may follow counts more. -/
def kindLeft : XferKind → Nat
  | .trigT => 70000
  | .readT => 70200
  | .trigRh _ => 70000
  | .readRh => 70000

/-- More than the micro-steps left at a position inside SENS_STEP, wait steps that change nothing apart; `none` elsewhere. -/
def sensLeft : Seq → Option Nat
  | .sample => some 80000
  | .xferStart x => some (kindLeft x.kind + 50)
  | .request x _ todo => some (kindLeft x.kind + 3 + 3 * todo.length)
  | .wait x _ todo => some (kindLeft x.kind + 2 + 3 * todo.length)
  | .postStop x _ => some (kindLeft x.kind + 1)
  | .room (.measurement _) => some 65538
  | .commit (.measurement _) j len => some (len - j + 1)
  | _ => none

/-- A position of SENS_STEP with fewer than `n` micro-steps to come, or the end. -/
def sensBelow (n : Nat) (p : Seq) : Prop :=
  p = .idle ∨ ∃ n', sensLeft p = some n' ∧ n' < n

/-- CMD waits on a phase that has neither been answered nor timed out. -/
def sensWaits (s : State) : Prop :=
  ∃ x ph todo, s.seq = .wait x ph todo ∧ s.bus.rsp = none ∧ timedOut x s = false

theorem sensLeft_running {p : Seq} {n : Nat} (h : sensLeft p = some n) : p.running = true := by
  cases p <;> simp_all [sensLeft, Seq.running]

/-- A position that goes on to the phases `todo`, or to the stop. -/
theorem nextPhase_below {x : Xfer} (todo : List Phase) {n : Nat}
    (hn : kindLeft x.kind + 3 * todo.length + 1 < n) : sensBelow n (nextPhase x todo) := by
  cases todo with
  | nil => exact .inr ⟨_, rfl, by simpa using hn⟩
  | cons ph todo =>
    exact .inr ⟨_, rfl, by simp only [List.length_cons] at hn; omega⟩

theorem afterAnswer_below {x : Xfer} (ph : Phase) (todo : List Phase) (r : BusAnswer) {n : Nat}
    (hn : kindLeft x.kind + 3 * todo.length + 1 < n) : sensBelow n (afterAnswer x ph todo r) := by
  have hstop : sensBelow n (.postStop x false) :=
    .inr ⟨_, rfl, by omega⟩
  unfold afterAnswer
  split
  · exact nextPhase_below (x := { x with got := x.got ++ [_] }) todo hn
  · exact nextPhase_below todo hn
  · exact nextPhase_below todo hn
  · exact nextPhase_below todo hn
  · exact hstop

theorem measurement_below {now : Word} {t : Byte} {m : Nat} {src : Except Fault (List Byte)} {s s' : State}
    {n : Nat} (hn : 65538 < n) (h : sendFrame (.measurement now) t m src s = .ok s') : sensBelow n s'.seq := by
  rcases sendFrame_ok h with ⟨_, rfl⟩ | ⟨_, p, e, _, _, rfl⟩
  · exact .inl rfl
  · exact .inr ⟨65538, rfl, hn⟩

theorem xferDone_below {x : Xfer} {ok : Bool} {s s' : State} (h : xferDone x ok s = .ok s') :
    sensBelow (kindLeft x.kind + 1) s'.seq := by
  obtain ⟨kind, now, t0, got⟩ := x
  unfold xferDone at h
  cases kind with
  | trigT => dsimp only at h; split at h <;> simp only [Except.ok.injEq] at h <;> subst h <;> exact .inl rfl
  | readT =>
    dsimp only at h
    split at h
    · split at h <;> simp only [Except.ok.injEq] at h <;> subst h
      · exact .inr ⟨70050, rfl, by simp [kindLeft]⟩
      · exact .inl rfl
    · simp only [Except.ok.injEq] at h; subst h; exact .inl rfl
  | trigRh code => dsimp only at h; split at h <;> simp only [Except.ok.injEq] at h <;> subst h <;> exact .inl rfl
  | readRh =>
    dsimp only at h
    split at h
    · split at h
      · exact measurement_below (by simp [kindLeft]) h
      · simp only [Except.ok.injEq] at h; subst h; exact .inl rfl
    · simp only [Except.ok.injEq] at h; subst h; exact .inl rfl

/-- Every micro-step of SENS_STEP brings its end nearer, but for a wait step that finds no answer and no timeout. -/
theorem sens_micro {s s' : State} {n : Nat} (hl : sensLeft s.seq = some n) (h : microStep s = .ok s') :
    sensBelow n s'.seq ∨ (sensWaits s ∧ s' = s) := by
  unfold microStep at h
  split at h <;> rename_i hs <;> rw [hs] at hl
  · simp [sensLeft] at hl
  · next after =>
    cases after <;> simp only [sensLeft, Option.some.injEq, reduceCtorEq] at hl
    simp only [Except.ok.injEq] at h; subst h; subst hl
    unfold roomStep
    left
    split
    · exact .inl rfl
    · split
      · exact .inl rfl
      · exact .inr ⟨_, rfl, by have := s.enc.len.isLt; omega⟩
  · next after j len =>
    cases after <;> simp only [sensLeft, Option.some.injEq, reduceCtorEq] at hl
    subst hl
    left
    rcases commitStep_ok h with ⟨hj, b, _, _, rfl⟩ | ⟨_, rfl⟩
    · exact .inr ⟨_, rfl, by omega⟩
    · exact .inl rfl
  · simp [sensLeft] at hl
  · simp [sensLeft] at hl
  · simp only [Except.ok.injEq] at h; subst h
    simp only [sensLeft, Option.some.injEq] at hl; subst hl
    left
    unfold sampleStep
    split
    · exact .inl rfl
    · refine .inr ⟨_, rfl, ?_⟩
      cases s.sens.state <;> simp [kindLeft]
  · next x =>
    simp only [Except.ok.injEq] at h; subst h
    simp only [sensLeft, Option.some.injEq] at hl; subst hl
    left
    refine nextPhase_below (x := { x with t0 := s.clock, got := [] }) _ ?_
    cases x.kind <;> simp [XferKind.phases, xferPhases, readPhases]
  · next x ph todo =>
    simp only [Except.ok.injEq] at h; subst h
    simp only [sensLeft, Option.some.injEq] at hl; subst hl
    exact .inl (.inr ⟨_, rfl, by omega⟩)
  · next x ph todo =>
    simp only [Except.ok.injEq] at h; subst h
    simp only [sensLeft, Option.some.injEq] at hl; subst hl
    rcases waitStep_cases x ph todo s with ⟨r, _, e⟩ | ⟨_, _, e⟩ | ⟨h1, h2, e⟩ <;> rw [e]
    · exact .inl (afterAnswer_below _ _ _ (by omega))
    · exact .inl (.inr ⟨_, rfl, by omega⟩)
    · exact .inr ⟨⟨x, ph, todo, hs, h1, h2⟩, rfl⟩
  · simp only [sensLeft, Option.some.injEq] at hl; subst hl
    exact .inl (xferDone_below h)
  · simp [sensLeft] at hl

/-! ### Turns and runs -/

/-- At `p` SENS_STEP is where it was, or nearer its end. -/
def sensOnward (p₀ : Seq) (n : Nat) (p : Seq) : Prop :=
  sensBelow n p ∨ (p = p₀ ∧ sensLeft p = some n)

/-- CMD's loop never takes SENS_STEP back. -/
theorem sens_runMicro {s t : State} {p₀ : Seq} {n : Nat} (ho : sensOnward p₀ n s.seq) (fuel : Nat)
    (h : runMicro fuel s = .next t) : sensOnward p₀ n t.seq := by
  refine runMicro_keeps (P := fun u => sensOnward p₀ n u.seq) (fun _ _ hu => hu) ?_ fuel ho h
  rintro u u' hu hm
  rcases hu with (hi | ⟨n', hl, hn⟩) | ⟨he, hl⟩
  · unfold microStep at hm
    rw [hi] at hm
    simp only [Except.ok.injEq] at hm
    subst hm
    exact .inl (.inl hi)
  · rcases sens_micro hl hm with (hi | ⟨m, h1, h2⟩) | ⟨_, rfl⟩
    · exact .inl (.inl hi)
    · exact .inl (.inr ⟨m, h1, by omega⟩)
    · exact .inl (.inr ⟨n', hl, hn⟩)
  · rcases sens_micro hl hm with hb | ⟨_, rfl⟩
    · exact .inl hb
    · exact .inr ⟨he, hl⟩

/-- A turn of CMD at which it does not wait in vain brings the end nearer. -/
theorem sens_resume {s t : State} {n : Nat} (hl : sensLeft s.seq = some n) (hturn : cmdTurn s) (hw : ¬ sensWaits s)
    (h : resume s = .next t) : sensBelow n t.seq := by
  have hr := sensLeft_running hl
  have hb : s.blocked = false := by
    unfold State.blocked
    split
    · next x ph todo hs =>
      rw [← Bool.not_eq_true]
      intro hbl
      simp only [Bool.and_eq_true, Option.isNone_iff_eq_none, Bool.not_eq_true'] at hbl
      exact hw ⟨x, ph, todo, hs, hbl.1, hbl.2⟩
    · rfl
  have go : ∀ (s₁ s₂ : State) (fuel : Nat), s₁.seq = s.seq → s₁.clock = s.clock → s₁.bus = s.bus → s₁.cfg = s.cfg →
      microStep s₁ = .ok s₂ → runMicro fuel s₂ = .next t → sensBelow n t.seq := by
    intro s₁ s₂ fuel e1 e2 e3 e4 hm hrun
    have hbelow : sensBelow n s₂.seq := by
      rcases sens_micro (e1 ▸ hl) hm with hb | ⟨⟨x, ph, todo, h1, h2, h3⟩, _⟩
      · exact hb
      · exact absurd ⟨x, ph, todo, e1 ▸ h1, e3 ▸ h2, by simpa only [timedOut, e2, e4] using h3⟩ hw
    rcases sens_runMicro (p₀ := .halted) (.inl hbelow) fuel hrun with hb | ⟨he, hl'⟩
    · exact hb
    · rw [he] at hl'; simp [sensLeft] at hl'
  unfold resume microFuel at h
  rw [show 262144 + s.sched.length = (262143 + s.sched.length) + 1 by omega] at h
  rcases hsch : s.sched with _ | ⟨a, rest⟩
  · rcases hm : microStep s with f | s₂
    · simp [runMicro, hr, hsch, hb, hm] at h
    · rw [runMicro_step hr hsch hb hm] at h
      exact go s s₂ _ rfl rfl rfl rfl hm h
  · have ha : a = .cmd := by simpa [cmdTurn, hsch] using hturn
    subst ha
    rcases hm : microStep { s with sched := rest } with f | s₂
    · simp [runMicro, hr, hsch, hm] at h
    · rw [runMicro_cmd hr hsch hm] at h
      exact go { s with sched := rest } s₂ _ rfl rfl rfl rfl hm h

/-- A step of the machine is a turn of CMD in the command in progress, or leaves the sequencer where it is, or resets it. -/
theorem step_seq {s t : State} (hr : s.seq.running = true) (h : step s = .next t) :
    (cmdTurn s ∧ resume s = .next t) ∨ (¬ cmdTurn s ∧ (t.seq = s.seq ∨ t.seq = .idle)) := by
  unfold step at h
  split at h
  · unfold agentTurn at h
    rcases hs : s.sched with _ | ⟨a, rest⟩
    · rw [hs] at h; simp only [hr, if_true] at h; exact .inl ⟨.inl (by simp [hs]), h⟩
    · rw [hs] at h
      cases a with
      | cmd => simp only [hr, if_true] at h; exact .inl ⟨.inr (by simp [hs]), h⟩
      | lrx b =>
        simp only [handshake, decode, exec, execLrxPush] at h
        right
        split at h <;> simp only [Host.Outcome.next.injEq] at h <;> subst h <;> simp [cmdTurn, hs]
      | ltx =>
        simp only [handshake, decode, exec, execLtxPop] at h
        refine .inr ⟨by simp [cmdTurn, hs], .inl ?_⟩
        split at h
        · generalize hp : Ring.peek _ _ _ _ = o at h
          rcases o with f | b <;> simp only [outcomeOf, bind, Except.bind, Host.Outcome.next.injEq, reduceCtorEq] at h
          subst h; rfl
        · simp only [Host.Outcome.next.injEq] at h; subst h; rfl
      | sync v x =>
        simp only [Host.Outcome.next.injEq] at h; subst h
        refine .inr ⟨by simp [cmdTurn, hs], .inl ?_⟩
        cases v <;> simp only [syncStep] <;> split <;> rfl
      | busAnswer r =>
        simp only [Host.Outcome.next.injEq] at h; subst h
        refine .inr ⟨by simp [cmdTurn, hs], .inl ?_⟩
        unfold busAnswerStep; split <;> rfl
      | busTakeStop => simp only [Host.Outcome.next.injEq] at h; subst h; exact .inr ⟨by simp [cmdTurn, hs], .inl rfl⟩
      | clk d => simp only [Host.Outcome.next.injEq] at h; subst h; exact .inr ⟨by simp [cmdTurn, hs], .inl rfl⟩
      | rst => simp only [Host.Outcome.next.injEq] at h; subst h; exact .inr ⟨by simp [cmdTurn, hs], .inr rfl⟩
  · exact absurd h (by simp)

/-- Along a run SENS_STEP ends, or is where it was or nearer its end. -/
theorem sens_run {st : Nat → State} {more : Nat → List Agent} (hrun : IsRun st more) {k n : Nat}
    (hl : sensLeft (st k).seq = some n) (d : Nat) :
    (∃ m, k ≤ m ∧ (st m).seq = .idle) ∨ sensOnward (st k).seq n (st (k + d)).seq := by
  induction d with
  | zero => exact .inr (.inr ⟨rfl, hl⟩)
  | succ d ih =>
    rcases ih with hi | ho
    · exact .inl hi
    by_cases hidle : (st (k + d)).seq = .idle
    · exact .inl ⟨k + d, by omega, hidle⟩
    obtain ⟨t, ht, hst⟩ := hrun (k + d)
    have hseq : (st (k + (d + 1))).seq = t.seq := by rw [← Nat.add_assoc, hst]
    have hr : (st (k + d)).seq.running = true := by
      rcases ho with (hi | ⟨n', hl', _⟩) | ⟨_, hl'⟩
      · exact absurd hi hidle
      · exact sensLeft_running hl'
      · exact sensLeft_running hl'
    rcases step_seq hr ht with ⟨_, hres⟩ | ⟨_, he | he⟩
    · exact .inr (hseq ▸ sens_runMicro ho _ hres)
    · rw [hseq, he]; exact .inr ho
    · exact .inl ⟨k + (d + 1), by omega, hseq ▸ he⟩

/-- In a fair run CMD has a turn at which SENS_STEP, if it is still where it was, does not wait in vain. -/
theorem fair_turn {st : Nat → State} (hf : Fair st) (k : Nat) :
    ∃ m, k ≤ m ∧ ((st m).seq.running = false ∨ (st m).seq ≠ (st k).seq ∨ (cmdTurn (st m) ∧ ¬ sensWaits (st m))) := by
  by_cases hw : ∃ x ph todo, (st k).seq = .wait x ph todo
  · obtain ⟨x, ph, todo, hs⟩ := hw
    obtain ⟨m, hm, hne | ⟨hturn, htime⟩⟩ := hf.2.2.2 k x ph todo hs
    · exact ⟨m, hm, .inr (.inl hne)⟩
    · by_cases he : (st m).seq = (st k).seq
      · refine ⟨m, hm, .inr (.inr ⟨hturn, ?_⟩)⟩
        rintro ⟨x', ph', todo', h1, _, h3⟩
        obtain ⟨rfl, -, -⟩ : x' = x ∧ ph' = ph ∧ todo' = todo := by simpa using (h1.symm.trans (he.trans hs))
        rw [htime] at h3
        exact absurd h3 (by simp)
      · exact ⟨m, hm, .inr (.inl he)⟩
  · obtain ⟨m, hm, hr | hturn⟩ := hf.1 k
    · exact ⟨m, hm, .inl hr⟩
    · by_cases he : (st m).seq = (st k).seq
      · exact ⟨m, hm, .inr (.inr ⟨hturn, fun ⟨x, ph, todo, h1, _⟩ => hw ⟨x, ph, todo, he ▸ h1⟩⟩)⟩
      · exact ⟨m, hm, .inr (.inl he)⟩

/-- "every SENS_STEP completes" (70_reset_and_hazards.md R134): in a fair run a SENS_STEP in progress ends, whatever BUS does. -/
theorem fair_sensStep_completes {st : Nat → State} {more : Nat → List Agent} (hrun : IsRun st more) (hf : Fair st) (n : Nat) :
    ∀ k, sensLeft (st k).seq = some n → ∃ m, k ≤ m ∧ (st m).seq = .idle := by
  induction n using Nat.strongRecOn with
  | ind n ih =>
    intro k hl
    have finish : ∀ m', k ≤ m' → sensBelow n (st m').seq → ∃ m, k ≤ m ∧ (st m).seq = .idle := by
      rintro m' hm' (hi | ⟨n', h1, h2⟩)
      · exact ⟨m', hm', hi⟩
      · obtain ⟨m'', h4, h5⟩ := ih n' h2 m' h1
        exact ⟨m'', by omega, h5⟩
    obtain ⟨m, hkm, hturn⟩ := fair_turn hf k
    obtain ⟨d, rfl⟩ : ∃ d, m = k + d := ⟨m - k, by omega⟩
    rcases sens_run hrun hl d with hi | hb | ⟨he, hl'⟩
    · exact hi
    · exact finish _ hkm hb
    · have hr := sensLeft_running hl'
      rcases hturn with hno | hne | ⟨hturn, hw⟩
      · rw [hr] at hno; exact absurd hno (by simp)
      · exact absurd he hne
      · obtain ⟨t, ht, hst⟩ := hrun (k + d)
        rcases step_seq hr ht with ⟨_, hres⟩ | ⟨hno, _⟩
        · have hseq : (st (k + d + 1)).seq = t.seq := by rw [hst]
          exact finish (k + d + 1) (by omega) (hseq ▸ sens_resume hl' hturn hw hres)
        · exact absurd hturn hno

end Sys2Proof.Machine
end

