-- ==== Sys2Proof/Laws/PerInstr.lean ====
section
/-! SUPPORT. Statements made instruction by instruction: of every command's port word, the ARG bits its form does not name are
driven 0 (30_encoding.md R56, R60). -/

namespace Sys2Proof.Laws

/-- The ARG an instruction is encoded with fits the width its form names. -/
def ArgWithinForm.Statement (i : Instr) : Prop :=
  ∀ (op : Byte) (arg : Word), encode i = .command op arg → arg.toNat < 2 ^ argBits i

theorem ArgWithinForm.nop : ArgWithinForm.Statement .nop := by
  intro _ _ h; cases h; decide

theorem ArgWithinForm.csrRd (n : Byte) : ArgWithinForm.Statement (.csrRd n) := by
  intro _ _ h; cases h; have := n.isLt; simp [argBits]; omega

theorem ArgWithinForm.rxAvail : ArgWithinForm.Statement .rxAvail := by
  intro _ _ h; cases h; decide

theorem ArgWithinForm.rxPeek (i : Half) : ArgWithinForm.Statement (.rxPeek i) := by
  intro _ _ h; cases h; have := i.isLt; simp [argBits]; omega

theorem ArgWithinForm.rxPop : ArgWithinForm.Statement .rxPop := by
  intro _ _ h; cases h; decide

theorem ArgWithinForm.txFree : ArgWithinForm.Statement .txFree := by
  intro _ _ h; cases h; decide

theorem ArgWithinForm.txPush (b : Byte) : ArgWithinForm.Statement (.txPush b) := by
  intro _ _ h; cases h; have := b.isLt; simp [argBits]; omega

theorem ArgWithinForm.txCommit : ArgWithinForm.Statement .txCommit := by
  intro _ _ h; cases h; decide

theorem ArgWithinForm.crc32Seed (v : Word) : ArgWithinForm.Statement (.crc32Seed v) := by
  intro _ _ h; cases h; have := v.isLt; simp [argBits]; omega

theorem ArgWithinForm.crc32Put (b : Byte) : ArgWithinForm.Statement (.crc32Put b) := by
  intro _ _ h; cases h; have := b.isLt; simp [argBits]; omega

theorem ArgWithinForm.crc32Rd : ArgWithinForm.Statement .crc32Rd := by
  intro _ _ h; cases h; decide

theorem ArgWithinForm.crc8Init : ArgWithinForm.Statement .crc8Init := by
  intro _ _ h; cases h; decide

theorem ArgWithinForm.crc8Put (b : Byte) : ArgWithinForm.Statement (.crc8Put b) := by
  intro _ _ h; cases h; have := b.isLt; simp [argBits]; omega

theorem ArgWithinForm.crc8Rd : ArgWithinForm.Statement .crc8Rd := by
  intro _ _ h; cases h; decide

theorem ArgWithinForm.encBegin : ArgWithinForm.Statement .encBegin := by
  intro _ _ h; cases h; decide

theorem ArgWithinForm.encPut (b : Byte) : ArgWithinForm.Statement (.encPut b) := by
  intro _ _ h; cases h; have := b.isLt; simp [argBits]; omega

theorem ArgWithinForm.encEnd : ArgWithinForm.Statement .encEnd := by
  intro _ _ h; cases h; decide

theorem ArgWithinForm.encRd (i : Half) : ArgWithinForm.Statement (.encRd i) := by
  intro _ _ h; cases h; have := i.isLt; simp [argBits]; omega

theorem ArgWithinForm.decBegin : ArgWithinForm.Statement .decBegin := by
  intro _ _ h; cases h; decide

theorem ArgWithinForm.decPut (x : Byte) : ArgWithinForm.Statement (.decPut x) := by
  intro _ _ h; cases h; have := x.isLt; simp [argBits]; omega

theorem ArgWithinForm.decRd (i : Half) : ArgWithinForm.Statement (.decRd i) := by
  intro _ _ h; cases h; have := i.isLt; simp [argBits]; omega

theorem ArgWithinForm.payClr : ArgWithinForm.Statement .payClr := by
  intro _ _ h; cases h; decide

theorem ArgWithinForm.payPut (b : Byte) : ArgWithinForm.Statement (.payPut b) := by
  intro _ _ h; cases h; have := b.isLt; simp [argBits]; omega

theorem ArgWithinForm.protoSend (t : Byte) : ArgWithinForm.Statement (.protoSend t) := by
  intro _ _ h; cases h; have := t.isLt; simp [argBits]; omega

theorem ArgWithinForm.protoPoll : ArgWithinForm.Statement .protoPoll := by
  intro _ _ h; cases h; decide

theorem ArgWithinForm.sensStep : ArgWithinForm.Statement .sensStep := by
  intro _ _ h; cases h; decide

theorem ArgWithinForm.lrxPush (b : Byte) : ArgWithinForm.Statement (.lrxPush b) := by
  intro _ _ h; simp [encode] at h

theorem ArgWithinForm.ltxPop : ArgWithinForm.Statement .ltxPop := by
  intro _ _ h; simp [encode] at h

theorem ArgWithinForm.illegal (op : Byte) : ArgWithinForm.Statement (.illegal op) := by
  intro _ _ h; cases h; simp [argBits]

end Sys2Proof.Laws
end

