-- ==== Sys2Proof/Laws/Pseudo.lean ====
section
/-! SUPPORT. The controller of the pseudo-instructions: what presenting a command changes, and what a program's run can do. -/

namespace Sys2Proof.Machine

@[simp] theorem offer_nil (s : State) : offer [] s = s := rfl

/-- Presenting a command puts it on the command port and changes nothing else. -/
theorem offer_cmds (is : List Instr) (s : State) : offer is s = { s with cmds := (offer is s).cmds } := by
  unfold offer
  split <;> rfl

/-- A command whose port word is a command of the command port is the next one CMD accepts. -/
theorem offer_command {i : Instr} {op : Byte} {arg : Word} (h : encode i = .command op arg) (is : List Instr) (s : State) :
    offer (i :: is) s = { s with cmds := { op := op, arg := arg } :: s.cmds } := by
  simp [offer, h]

@[simp] theorem play_nil (goOn : Answer → Bool) (n : Nat) (acc : Bool) (got : List Answer) (s : State) :
    play goOn n acc [] got s = { answers := got, ending := .finished, last := .next s } := by
  cases n <;> rfl

/-- A command that a step takes off the port and answers: the next one is presented, or the program stops at the answer. -/
theorem play_answered {goOn : Answer → Bool} {i : Instr} {is : List Instr} {got : List Answer} {s t : State} (n : Nat)
    (h : step s = .next t) (hc : t.cmds.length < s.cmds.length) (hr : t.rspValid = true) :
    play goOn (n + 1) false (i :: is) got s =
      if goOn { res := t.res, ok := t.ok } then
        play goOn n false is (got ++ [{ res := t.res, ok := t.ok }]) (offer is t)
      else { answers := got ++ [{ res := t.res, ok := t.ok }], ending := .finished, last := .next t } := by
  simp [play, h, hc, hr]

/-- A step of another agent, or of CMD while it does not accept: the command waits on the port. -/
theorem play_not_accepted {goOn : Answer → Bool} {i : Instr} {is : List Instr} {got : List Answer} {s t : State} (n : Nat)
    (h : step s = .next t) (hc : t.cmds.length = s.cmds.length) :
    play goOn (n + 1) false (i :: is) got s = play goOn n false (i :: is) got t := by
  simp [play, h, hc]

/-- A controller's program only presents commands and lets the machine step. -/
theorem play_keeps {P : State → Prop} (ho : ∀ s is, P s → P (offer is s)) (hs : ∀ s t, P s → step s = .next t → P t)
    (goOn : Answer → Bool) (n : Nat) {acc : Bool} {is : List Instr} {got : List Answer} {s t : State} (h : P s)
    (hp : (play goOn n acc is got s).last = .next t) : P t := by
  induction n generalizing acc is got s with
  | zero => simp only [play, Host.Outcome.next.injEq] at hp; exact hp ▸ h
  | succ n ih =>
    unfold play at hp
    split at hp
    · simp only [Host.Outcome.next.injEq] at hp; exact hp ▸ h
    · split at hp
      · next u hu =>
        have hPu := hs _ _ h hu
        split at hp
        · split at hp
          · dsimp only at hp
            split at hp
            · exact ih (ho _ _ hPu) hp
            · simp only [Host.Outcome.next.injEq] at hp; exact hp ▸ hPu
          · split at hp
            · simp only [Host.Outcome.next.injEq] at hp; exact hp ▸ hPu
            · exact ih hPu hp
        · exact ih hPu hp
      · next hne => exact absurd hp (hne t)

end Sys2Proof.Machine
end

