-- ==== Sys2Proof/Laws/Ring.lean ====
section
/-! SUPPORT. Ring indices: distances mod N, and what a push or an advance does to the counts and to the bytes held. -/

namespace Sys2Proof.Machine

/-! ### Distances -/

theorem subMod_lt {n : Nat} (hn : 0 < n) (a b : Nat) : subMod n a b < n := Nat.mod_lt _ hn

/-- The distance from `b` to `a` of two indices of the ring. -/
theorem subMod_of_lt {n a b : Nat} (ha : a < n) (hb : b < n) : subMod n a b = if b ≤ a then a - b else a + n - b := by
  unfold subMod
  rw [Nat.mod_eq_of_lt hb]
  split
  · next h => rw [show a + (n - b) = (a - b) + n by omega, Nat.add_mod_right, Nat.mod_eq_of_lt (by omega)]
  · next h => rw [Nat.mod_eq_of_lt (by omega)]; omega

theorem subMod_self {n a : Nat} (ha : a < n) : subMod n a a = 0 := by simp [subMod_of_lt ha ha]

/-- One step round the ring. -/
theorem succ_mod {n a : Nat} (ha : a < n) : (a + 1) % n = if a + 1 = n then 0 else a + 1 := by
  split
  · next h => rw [h, Nat.mod_self]
  · rw [Nat.mod_eq_of_lt (by omega)]

/-- Walking the distance from `b` to `a` leads to `a`. -/
theorem add_subMod {n a b : Nat} (ha : a < n) (hb : b < n) : (b + subMod n a b) % n = a := by
  rw [subMod_of_lt ha hb]
  split
  · rw [Nat.mod_eq_of_lt (by omega)]; omega
  · rw [show b + (a + n - b) = a + n by omega, Nat.add_mod_right, Nat.mod_eq_of_lt ha]

/-- The distance of a point reached by walking `k`. -/
theorem subMod_add {n b k : Nat} (hb : b < n) (hk : k < n) : subMod n ((b + k) % n) b = k := by
  have hn : 0 < n := by omega
  have : (b + k) % n = if b + k < n then b + k else b + k - n := by
    split
    · exact Nat.mod_eq_of_lt ‹_›
    · rw [Nat.mod_eq_sub_mod (by omega), Nat.mod_eq_of_lt (by omega)]
  rw [subMod_of_lt (Nat.mod_lt _ hn) hb, this]
  split <;> split <;> omega

/-- One step of the far end makes the distance one longer. -/
theorem subMod_succ_left {n a b : Nat} (ha : a < n) (hb : b < n) (h : subMod n a b + 1 < n) :
    subMod n ((a + 1) % n) b = subMod n a b + 1 := by
  have hn : 0 < n := by omega
  rw [subMod_of_lt ha hb] at h ⊢
  rw [subMod_of_lt (Nat.mod_lt _ hn) hb, succ_mod ha]
  split at h <;> split <;> split <;> omega

/-- One step of the near end makes the distance one shorter. -/
theorem subMod_succ_right {n a b : Nat} (ha : a < n) (hb : b < n) (h : 0 < subMod n a b) :
    subMod n a ((b + 1) % n) = subMod n a b - 1 := by
  have hn : 0 < n := by omega
  rw [subMod_of_lt ha hb] at h ⊢
  rw [subMod_of_lt ha (Nat.mod_lt _ hn), succ_mod hb]
  split at h <;> split <;> split <;> omega

/-- Distances along the ring add up as long as they do not go round. -/
theorem subMod_trans {n a b c : Nat} (ha : a < n) (hb : b < n) (hc : c < n) (h : subMod n a b + subMod n b c < n) :
    subMod n a c = subMod n a b + subMod n b c := by
  rw [subMod_of_lt ha hb, subMod_of_lt hb hc] at h
  rw [subMod_of_lt ha hb, subMod_of_lt hb hc, subMod_of_lt ha hc]
  split at h <;> split at h <;> split <;> omega

/-- Two points passed on one way round are as far apart as their distances differ. -/
theorem subMod_sub {n a v b : Nat} (ha : a < n) (hv : v < n) (hb : b < n) (h : subMod n v b ≤ subMod n a b) :
    subMod n a v = subMod n a b - subMod n v b := by
  rw [subMod_of_lt ha hb, subMod_of_lt hv hb] at h
  rw [subMod_of_lt ha hb, subMod_of_lt hv hb, subMod_of_lt ha hv]
  split at h <;> split at h <;> split <;> omega

/-- What the producer may still write is what the distance from its view of R to W leaves. -/
theorem free_eq {n : Nat} {q : Ring} (hw : q.w < n) (hv : q.rv < n) : q.free n = n - 1 - subMod n q.w q.rv := by
  have hn : 0 < n := by omega
  have e : subMod n q.rv (q.w + 1) = subMod n q.rv ((q.w + 1) % n) := by simp [subMod]
  rw [Ring.free, e, subMod_of_lt hv (Nat.mod_lt _ hn), succ_mod hw, subMod_of_lt hw hv]
  split <;> split <;> split <;> omega

/-! ### Bytes held -/

theorem Ring.slots_length (n k : Nat) (q : Ring) : (q.slots n k).length = k := by simp [Ring.slots]

theorem Ring.slots_succ (n k : Nat) (q : Ring) :
    q.slots n (k + 1) = q.slots n k ++ [q.mem.read ((q.r + k) % n)] := by
  simp [Ring.slots, List.range_succ]

/-- The head of what the ring holds, and the rest as an advanced ring holds it. -/
theorem Ring.slots_cons (n k : Nat) (q : Ring) :
    q.slots n (k + 1) = q.mem.read (q.r % n) :: (q.advance n).slots n k := by
  simp only [Ring.slots, List.range_succ_eq_map, List.map_cons, List.map_map, Ring.advance_mem, Ring.advance_r,
    Nat.add_zero]
  congr 1
  apply List.map_congr_left
  intro i _
  simp only [Function.comp, Nat.mod_add_mod]
  congr 2; omega

/-- A push changes no byte already held. -/
theorem Ring.slots_push (n k : Nat) (q : Ring) (b : Byte) (hw : q.w < n) (hr : q.r < n) (hk : k ≤ q.count n) :
    (q.push n b).slots n k = q.slots n k := by
  apply List.map_congr_left
  intro i hi
  have hi : i < k := List.mem_range.1 hi
  have hlt := subMod_lt (show 0 < n by omega) q.w q.r
  simp only [Ring.push_mem, Ring.push_r, Nat.mod_eq_of_lt hw]
  refine Memory.read_write_other _ _ _ _ fun h => ?_
  have h1 := subMod_add hr (show i < n by unfold Ring.count at hk; omega)
  rw [h] at h1
  unfold Ring.count at hk; omega

/-- A push makes the ring hold one byte more, at its end. -/
theorem Ring.count_push (n : Nat) (q : Ring) (b : Byte) (hw : q.w < n) (hr : q.r < n) (h : q.count n + 1 < n) :
    (q.push n b).count n = q.count n + 1 := subMod_succ_left hw hr h

/-- An advance makes the ring hold one byte less. -/
theorem Ring.count_advance (n : Nat) (q : Ring) (hw : q.w < n) (hr : q.r < n) (h : 0 < q.count n) :
    (q.advance n).count n = q.count n - 1 := subMod_succ_right hw hr h

/-- An advance makes the consumer see one byte less. -/
theorem Ring.avail_advance (n : Nat) (q : Ring) (hv : q.wv < n) (hr : q.r < n) (h : 0 < q.avail n) :
    (q.advance n).avail n = q.avail n - 1 := subMod_succ_right hv hr h

end Sys2Proof.Machine
end

