-- ==== Sys2Proof/Tests/Slice0.lean ====
section
/-! SUPPORT. The model's own tests. Expected values are the vectors of 95_test_vectors.md (named by their id), the rules' worked
examples, or words written out from the tables of 30_encoding.md; the last part shows that the statements' hypotheses can be met. -/

namespace Sys2Proof.Tests

open Sys2Proof Sys2Proof.Machine

/-! ### Helpers -/

/-- What `f` sees in the next state, if there is one. -/
def after {α : Type} (o : Host.Outcome State Fault Refusal) (f : State → α) : Option α :=
  match o with
  | .next t => some (f t)
  | .fault _ => none
  | .refused _ => none

/-- The answer of a command. -/
def answer (o : Host.Outcome State Fault Refusal) : Option (Word × Bool) := after o fun t => (t.res, t.ok)

/-- A byte string as a memory, from index `i` on. -/
def listedFrom : Nat → List Byte → Memory
  | _, [] => []
  | i, b :: bs => (i, b) :: listedFrom (i + 1) bs

/-- A byte string as a memory, from index 0 on. -/
def listed (bs : List Byte) : Memory := listedFrom 0 bs

/-- Rings of 8 bytes. -/
def cfg8 : Config := { Config.vectors with kRx := 3, kTx := 3 }

/-- Rings of 4 bytes. -/
def cfg4 : Config := { Config.vectors with kRx := 2, kTx := 2 }

/-- A transmit ring of 16 bytes. -/
def cfg16 : Config := { Config.vectors with kTx := 4 }

/-- The smallest transmit buffer R8 allows. -/
def cfg17 : Config := { Config.vectors with itfPacketBufSize := 17, txbufSize := 17 }

/-- Inbound codes that no outbound code equals (SRC-4). -/
def cfgLoop : Config := { Config.vectors with typeNopIn := 0x10, typeReset := 0x11 }

/-- A reset machine whose RX holds `bs` from index 0 on, seen whole. -/
def rxWith (c : Config) (bs : List Byte) : State :=
  { State.resetIn c with
    rx := { Ring.reset with mem := listed bs, w := bs.length, wg := gray bs.length, wv := bs.length } }

/-- The start of RT-4. -/
def rt4 : State :=
  { State.resetIn cfg8 with
    rx := { mem := [(0, 0x00), (6, 0x3C), (7, 0x41)], w := 1, r := 6, wg := gray 1, rg := gray 6, wv := 1, rv := 6 } }

/-- The start of RT-11: TX.W 6, TX.RV 0. -/
def rt11 : State :=
  { State.resetIn cfg8 with
    tx := { mem := listed [0, 1, 2, 3, 4, 5], w := 6, r := 0, wg := gray 6, rg := 0, wv := 6, rv := 0 } }

/-- The start of RT-18, with LTX seeing all five bytes. -/
def rt18 : State :=
  { State.resetIn cfg8 with
    tx := { mem := listed [0x00, 0x03, 0x11, 0x22, 0x00], w := 5, r := 0, wg := gray 5, rg := 0, wv := 5, rv := 0 } }

/-- The closed frame of RT-20. -/
def closedFive : State :=
  { State.resetIn cfg8 with
    enc := { buf := listed [0x00, 0x03, 0x11, 0x22, 0x00], phase := .closed, ovf := false, len := 5, cp := 1, code := 3 } }

/-- The state right after ENC_BEGIN (EN-4). -/
def begun (c : Config) : State :=
  { State.resetIn c with enc := { buf := listed [0, 0], phase := .opened, ovf := false, len := 2, cp := 1, code := 1 } }

/-- An open frame of `n` bytes 0x07 in its first block, `n` at most 254. -/
def filled (c : Config) (n : Nat) : State :=
  { State.resetIn c with
    enc := {
      buf := listed (0 :: 0 :: List.replicate n 7), phase := .opened, ovf := false
      len := BitVec.ofNat 16 (n + 2), cp := 1, code := BitVec.ofNat 8 (n + 1) } }

/-- A reset machine with a decoder that has read the code byte `code`, has `rem` data bytes to come and `bs` decoded. -/
def decoding (c : Config) (code rem : Byte) (bs : List Byte) : State :=
  { State.resetIn c with
    dec := { buf := listed bs, st := .more, have_ := true, code := code, rem := rem, len := BitVec.ofNat 16 bs.length } }

/-- A reset machine with the payload `bs` staged. -/
def staged (c : Config) (bs : List Byte) : State :=
  { State.resetIn c with pay := { buf := listed bs, len := BitVec.ofNat 16 bs.length } }

/-- A reset machine with the sensor unit as given and the clock at `now`. -/
def sensing (st : SensState) (tlast dwell temp now : Word) : State :=
  { State.resetIn Config.vectors with
    sens := { state := st, tlast := tlast, dwell := dwell, temp := temp, hum := 0 }, clock := now }

/-- `s` with SENS_STEP on the command port and the given schedule. -/
def stepping (s : State) (sched : List Agent) : State := { s with cmds := [{ op := 0x80, arg := 0 }], sched := sched }

/-- BUS acknowledges a trigger phase by phase. -/
def ackTrigger : List Agent := [.cmd, .cmd, .cmd, .busAnswer .ack, .cmd, .cmd, .busAnswer .ack]

/-- BUS answers a 3-byte read, CMD being due before each answer. -/
def answerRead (d0 d1 c : Byte) : List Agent :=
  [.cmd, .cmd, .cmd, .busAnswer .ack, .cmd, .cmd, .busAnswer (.data d0), .cmd, .cmd, .busAnswer (.data d1), .cmd, .cmd,
    .busAnswer (.data c)]

/-- The good read of SE-4, then a trigger that BUS acknowledges. -/
def readThenTrigger (d0 d1 c : Byte) : List Agent :=
  [.cmd, .cmd, .cmd, .busAnswer .ack, .cmd, .cmd, .busAnswer (.data d0), .cmd, .cmd, .busAnswer (.data d1), .cmd, .cmd,
    .busAnswer (.data c), .cmd, .cmd, .cmd, .cmd, .busTakeStop, .busAnswer .ack, .cmd, .cmd, .busAnswer .ack]

/-- A listed string is in canonical form, within its indices, and written throughout. -/
theorem listedFrom_good (bs : List Byte) (i : Nat) :
    (listedFrom i bs).wf ∧ (∀ c ∈ listedFrom i bs, i ≤ c.1 ∧ c.1 < i + bs.length) ∧
    ∀ j, j < bs.length → ((listedFrom i bs).read (i + j)).isSome = true := by
  induction bs generalizing i with
  | nil => simp [listedFrom, Memory.wf]
  | cons b t ih =>
    obtain ⟨h1, h2, h3⟩ := ih (i + 1)
    refine ⟨List.pairwise_cons.2 ⟨fun x hx => ?_, h1⟩, fun c hc => ?_, fun j hj => ?_⟩
    · obtain ⟨c, hc, rfl⟩ := List.mem_map.1 hx
      exact (h2 c hc).1
    · rcases List.mem_cons.1 hc with rfl | hc
      · simp
      · have := h2 c hc; simp only [List.length_cons]; omega
    · cases j with
      | zero => simp [listedFrom, Memory.read]
      | succ j =>
        have := h3 j (by simpa using hj)
        have hne : ¬ i = i + 1 + j := by omega
        simpa [listedFrom, Memory.read, hne, show i + (j + 1) = i + 1 + j by omega] using this

/-- An open block of up to 253 bytes meets the encoder's invariant wherever it fits. -/
theorem filled_good (c : Config) (n : Nat) (hn : n ≤ 253) (hs : n + 2 ≤ c.txbufSize) : (filled c n).enc.good c.txbufSize := by
  obtain ⟨h1, h2, h3⟩ := listedFrom_good (0 :: 0 :: List.replicate n 7) 0
  have hl : (BitVec.ofNat 16 (n + 2)).toNat = n + 2 := by simp; omega
  have hc : (BitVec.ofNat 8 (n + 1)).toNat = n + 1 := by simp; omega
  refine ⟨⟨h1, fun d hd => ?_, fun i hi => ?_⟩, ?_, fun h => ?_, fun h => ?_, fun _ => ?_, fun _ => ?_⟩
  · have := h2 d hd; simp at this; omega
  · have hi : i < n + 2 := by simpa [filled, hl] using hi
    have := h3 i (by simp; omega)
    rw [Nat.zero_add] at this; exact this
  · simpa [filled, hl] using hs
  · have := congrArg BitVec.toNat h; simp only [filled, hc] at this; simp at this
  · have := congrArg BitVec.toNat h; simp only [filled, hc] at this; simp at this; omega
  · simp only [filled, hl]; simp
  · simp only [filled, hl, hc]; simp; omega

/-- The invariant as a Bool, for `decide`. -/
def goodCheck (s : State) : Bool :=
  s.cfg.valid && decide (s.rx.good s.cfg.nRx) && decide (s.tx.good s.cfg.nTx) && decide (s.enc.good s.cfg.txbufSize) &&
    decide (s.dec.good s.cfg.rxbufSize) && decide (s.pay.good s.cfg.payMax) && seqGood s && busGood s

theorem good_of (s : State) (h : goodCheck s = true) : s.Good := by
  simp only [goodCheck, Bool.and_eq_true, decide_eq_true_eq] at h
  obtain ⟨⟨⟨⟨⟨⟨⟨h1, h2⟩, h3⟩, h4⟩, h5⟩, h6⟩, h7⟩, h8⟩ := h
  exact ⟨h1, h2, h3, h4, h5, h6, h7, h8⟩

/-! ### WellFormed and Config: what is refused -/

theorem test_wellFormed_refuses_assigned_illegal : (Instr.illegal 0x00).wellFormed = false := by decide
theorem test_wellFormed_refuses_sensStep_as_illegal : (Instr.illegal 0x80).wellFormed = false := by decide
theorem test_wellFormed_accepts_reserved : (Instr.illegal 0x02).wellFormed = true ∧ (Instr.illegal 0xFF).wellFormed = true := by
  decide
theorem test_config_accepts_vectors : Config.vectors.valid = true ∧ cfg8.valid = true ∧ cfg17.valid = true := by decide
theorem test_config_refuses_kRx : { Config.vectors with kRx := 0 }.valid = false ∧ { Config.vectors with kRx := 16 }.valid = false := by
  decide
theorem test_config_refuses_kTx : { Config.vectors with kTx := 0 }.valid = false ∧ { Config.vectors with kTx := 16 }.valid = false := by
  decide
theorem test_config_refuses_syncStages : { Config.vectors with syncStages := 1 }.valid = false := by decide
theorem test_config_refuses_packetBuf :
    { Config.vectors with itfPacketBufSize := 16 }.valid = false ∧ { Config.vectors with itfPacketBufSize := 65536 }.valid = false := by
  decide
theorem test_config_refuses_txbuf :
    { Config.vectors with txbufSize := 16 }.valid = false ∧ { Config.vectors with txbufSize := 65536 }.valid = false := by decide
theorem test_config_refuses_rxbuf :
    { Config.vectors with rxbufSize := 0 }.valid = false ∧ { Config.vectors with rxbufSize := 65536 }.valid = false := by decide
theorem test_config_refuses_rxcand :
    { Config.vectors with rxcandSize := 0 }.valid = false ∧ { Config.vectors with rxcandSize := 65536 }.valid = false := by decide
theorem test_config_refuses_payMax : { Config.vectors with payMax := 65536 }.valid = false := by decide
theorem test_config_refuses_equal_outbound : { Config.vectors with typeHealth := 1 }.valid = false := by decide
theorem test_config_refuses_equal_inbound : { Config.vectors with typeReset := 0 }.valid = false := by decide
theorem test_config_refuses_address : { Config.vectors with sensorAddr := 0x80 }.valid = false := by decide

/-! ### Decoding: words written out from 30_encoding.md R57, op in bits 7..0, ARG in bits 39..8 -/

theorem test_decode_sys :
    decodeTableWord 40 0x0000000000 = some .nop ∧ decodeTableWord 40 0xFFFFFFFF00 = some .nop ∧
    decodeTableWord 40 0x0000001201 = some (.csrRd 0x12) ∧ decodeTableWord 40 0x12345678FF = some (.illegal 0xFF) := by decide
theorem test_decode_rx :
    decodeTableWord 40 0x0000000010 = some .rxAvail ∧ decodeTableWord 40 0x0001000811 = some (.rxPeek 0x0008) ∧
    decodeTableWord 40 0x0000000012 = some .rxPop := by decide
theorem test_decode_tx :
    decodeTableWord 40 0x0000000020 = some .txFree ∧ decodeTableWord 40 0x0000007E21 = some (.txPush 0x7E) ∧
    decodeTableWord 40 0x0000000022 = some .txCommit := by decide
theorem test_decode_crc32 :
    decodeTableWord 40 0x1234567830 = some (.crc32Seed 0x12345678) ∧ decodeTableWord 40 0xFFFFFF8031 = some (.crc32Put 0x80) ∧
    decodeTableWord 40 0x0000000032 = some .crc32Rd := by decide
theorem test_decode_crc8 :
    decodeTableWord 40 0x0000000040 = some .crc8Init ∧ decodeTableWord 40 0x0000006041 = some (.crc8Put 0x60) ∧
    decodeTableWord 40 0x0000000042 = some .crc8Rd := by decide
theorem test_decode_enc :
    decodeTableWord 40 0x0000000050 = some .encBegin ∧ decodeTableWord 40 0x0000001151 = some (.encPut 0x11) ∧
    decodeTableWord 40 0x0000000052 = some .encEnd ∧ decodeTableWord 40 0x0000010053 = some (.encRd 0x0100) := by decide
theorem test_decode_dec :
    decodeTableWord 40 0x0000000060 = some .decBegin ∧ decodeTableWord 40 0x0000003361 = some (.decPut 0x33) ∧
    decodeTableWord 40 0x0080000462 = some (.decRd 0x0004) := by decide
theorem test_decode_proto :
    decodeTableWord 40 0x0000000070 = some .payClr ∧ decodeTableWord 40 0x000000E171 = some (.payPut 0xE1) ∧
    decodeTableWord 40 0x0000000272 = some (.protoSend 0x02) ∧ decodeTableWord 40 0x0000000073 = some .protoPoll := by decide
theorem test_decode_sens :
    decodeTableWord 40 0x0000000080 = some .sensStep ∧ decodeTableWord 40 0x0000000081 = some (.illegal 0x81) := by decide
/-- The table gives some rows 8 bits: every bit above them is 0. -/
theorem test_decode_short_row : decodeTableWord 8 0x11 = some (.rxPeek 0) ∧ decodeTableWord 8 0x54 = some (.illegal 0x54) := by decide
theorem test_decode_ports :
    decode (.linkRx true 0x99) = .ok (.lrxPush 0x99) ∧ decode (.linkTx true) = .ok .ltxPop ∧
    decode (.linkRx false 0x99) = .error .noByteOffered ∧ decode (.linkTx false) = .error .noPop := by
  exact ⟨rfl, rfl, rfl, rfl⟩
theorem test_decode_bytes_refused : decodeBytes [0x00, 0x00, 0x00, 0x00] = .error .notFortyBits := rfl
theorem test_listing : listingText (.txPush 0x7E) = some "op=0x21 arg=0x0000007E" ∧ asmText (.csrRd 0x09) = "CSR_RD ENC_LEN" := by
  decide +kernel

/-! ### SYS -/

theorem test_nop_arg_ignored : after (step (State.reset.withFetchWord 40 0xFFFFFFFF00)) (fun t => (t.res, t.ok, t.rspValid)) =
    some (0, true, true) := by decide
/-- SYS-3. -/
theorem test_csrRd_id : answer (exec (.csrRd 0x01) (State.resetIn { Config.vectors with kRx := 6, kTx := 7 })) = some (0x00007601, true) := by
  decide
/-- SYS-4. -/
theorem test_csrRd_reserved : after (exec (.csrRd 0x13) State.reset) (fun t => (t.res, t.ok, t.ill)) = some (0, false, true) := by decide
/-- SYS-5. -/
theorem test_illegal : after (exec (.illegal 0x02) State.reset) (fun t => (t.res, t.ok, t.ill)) = some (0, false, true) := by decide

/-! ### RX, TX and the link ports -/

/-- RT-4, and RT-1. -/
theorem test_rxAvail : answer (exec .rxAvail rt4) = some (3, true) ∧ answer (exec .rxAvail State.reset) = some (0, true) := by decide
/-- RT-5. -/
theorem test_rxPeek : answer (exec (.rxPeek 1) rt4) = some (0x41, true) := by decide
/-- RT-6, RT-7. -/
theorem test_rxPeek_beyond : answer (exec (.rxPeek 3) rt4) = some (0, false) ∧ answer (exec (.rxPeek 8) rt4) = some (0, false) := by decide
/-- RT-8, its first pop. -/
theorem test_rxPop : after (exec .rxPop rt4) (fun t => (t.res, t.ok, t.rx.r, t.rx.rg)) = some (0x3C, true, 7, 4) := by decide
/-- RT-2. -/
theorem test_rxPop_empty : after (exec .rxPop State.reset) (fun t => (t.res, t.ok, t.rx.r)) = some (0, false, 0) := by decide
/-- RT-10, RT-14. -/
theorem test_txFree :
    answer (exec .txFree (State.resetIn cfg8)) = some (7, true) ∧
    answer (exec .txFree { State.resetIn cfg8 with tx := { Ring.reset with w := 2, r := 2, wg := 3, rg := 3, wv := 2 } }) =
      some (5, true) := by decide
/-- RT-11. -/
theorem test_txPush : after (exec (.txPush 0x7E) rt11) (fun t => (t.byteAt .txMem 6, t.tx.w, t.tx.wg, t.res, t.ok)) =
    some (some 0x7E, 7, 4, 1, true) := by decide
/-- RT-13. -/
theorem test_txPush_wraps :
    after (exec (.txPush 0x55) { State.resetIn cfg8 with tx := { Ring.reset with w := 7, r := 3, wg := 4, rg := 2, wv := 7, rv := 3 } })
      (fun t => (t.byteAt .txMem 7, t.tx.w, t.tx.wg, t.res)) = some (some 0x55, 0, 0, 1) := by decide
/-- RT-20. -/
theorem test_txCommit : after (exec .txCommit closedFive) (fun t => (t.tx.mem, t.tx.w, t.res, t.ok)) =
    some (listed [0x00, 0x03, 0x11, 0x22, 0x00], 5, 5, true) := by decide +kernel
/-- RT-21. -/
theorem test_txCommit_no_room : after (exec .txCommit { closedFive with tx := rt18.tx }) (fun t => (t.res, t.ok, t.tx)) =
    some (0, false, rt18.tx) := by decide +kernel
/-- RT-15. -/
theorem test_lrxPush :
    after (exec (.lrxPush 0x00) { State.resetIn cfg4 with rx := { Ring.reset with w := 3, wg := 2, rv := 1, r := 1, rg := 1, wv := 3 } })
      (fun t => (t.byteAt .rxMem 3, t.rx.w, t.rxAccept)) = some (some 0x00, 0, true) := by decide
/-- RT-16. -/
theorem test_lrxPush_refused :
    after (exec (.lrxPush 0x99) { State.resetIn cfg4 with rx := { Ring.reset with w := 0, rv := 1, r := 1, rg := 1, wv := 0 } })
      (fun t => (t.rx.mem, t.rx.w, t.rxAccept)) = some ([], 0, false) := by decide
/-- RT-18. -/
theorem test_ltxPop : after (exec .ltxPop rt18) (fun t => (t.txData, t.txValid, t.tx.r, t.tx.rg)) = some (0x00, true, 1, 1) := by decide
/-- RT-17. -/
theorem test_ltxPop_lagging : after (exec .ltxPop { rt18 with tx := { rt18.tx with wv := 0 } }) (fun t => (t.txValid, t.tx.r)) =
    some (false, 0) := by decide
/-- The gray table of K = 3. -/
theorem test_gray : (List.range 8).map gray = [0, 1, 3, 2, 6, 7, 5, 4] ∧ (List.range 8).map (fun b => bin 3 (gray b)) = List.range 8 := by
  decide
/-- SY-1: from view 6 to index 1 in a ring of 8. -/
theorem test_sync_path : (List.range 8).filter (onPath 8 6 1) = [0, 1, 6, 7] := by decide
/-- SY-2. -/
theorem test_sync_still : (List.range 8).filter (onPath 8 3 3) = [3] := by decide

/-! ### CRC -/

/-- C32-10. -/
theorem test_crc32Seed : after (exec (.crc32Seed 0x12345678) State.reset) (fun t => (t.res, t.crc32)) =
    some (0x12345678, 0x12345678) := by decide
/-- C32-2, C32-3. -/
theorem test_crc32Put : answer (exec (.crc32Put 0x00) State.reset) = some (0x2DFD1072, true) ∧
    answer (exec (.crc32Put 0xFF) State.reset) = some (0x00FFFFFF, true) := by decide
/-- C32-1. -/
theorem test_crc32Rd : answer (exec .crc32Rd State.reset) = some (0xFFFFFFFF, true) := by decide
/-- SRC-1. -/
theorem test_crc32_known_answer :
    crc32 [0x31, 0x32, 0x33, 0x34, 0x35, 0x36, 0x37, 0x38, 0x39] 0xFFFFFFFF = 0x340BC6D9 := by decide +kernel
/-- R84. -/
theorem test_crc8Init : after (exec .crc8Init { State.reset with crc8 := 0x55 }) (fun t => (t.crc8, t.res)) = some (0, 0) := by decide
/-- C8-2, C8-3. -/
theorem test_crc8Put : answer (exec (.crc8Put 0x01) State.reset) = some (0x31, true) ∧
    answer (exec (.crc8Put 0x80) State.reset) = some (0x7A, true) := by decide
/-- C8-7. -/
theorem test_crc8Rd : answer (exec .crc8Rd { State.reset with crc8 := crc8 [0x68, 0x3A] }) = some (0x7C, true) := by decide +kernel

/-! ### ENC and DEC -/

/-- EN-4. -/
theorem test_encBegin : after (exec .encBegin State.reset) (fun t => (t.enc, t.res, t.ok)) = some ((begun Config.vectors).enc, 2, true) := by
  decide
/-- EN-6, its second put, from the open block of one byte. -/
theorem test_encPut_zero : after (exec (.encPut 0x00) (filled Config.vectors 1)) (fun t => (t.enc.buf, t.enc.cp, t.enc.code, t.res)) =
    some (listed [0x00, 0x02, 0x07, 0x00], 3, 1, 4) := by decide
/-- EN-13, its 254th put: no room for the next code slot in 256 bytes. -/
theorem test_encPut_full_block :
    after (exec (.encPut 0x01) (filled { Config.vectors with txbufSize := 256 } 253))
      (fun t => (t.byteAt .encbuf 255, t.byteAt .encbuf 1, t.enc.code, t.res, t.ok)) =
      some (some 0x01, some 0xFF, 0xFF, 256, false) := by decide +kernel
/-- EN-7. -/
theorem test_encEnd : after (exec .encEnd (filled Config.vectors 2)) (fun t => (t.enc.buf, t.enc.phase, t.res, t.ok)) =
    some (listed [0x00, 0x03, 0x07, 0x07, 0x00], .closed, 5, true) := by decide
/-- EN-11: no room for the trailing delimiter. -/
theorem test_encEnd_no_room : after (exec .encEnd (filled cfg17 15)) (fun t => (t.res, t.ok, t.enc.ovf, t.enc.phase)) =
    some (17, false, true, .closed) := by decide +kernel
/-- R93. -/
theorem test_encRd : answer (exec (.encRd 1) closedFive) = some (0x03, true) ∧ answer (exec (.encRd 5) closedFive) = some (0, false) := by
  decide
/-- R95. -/
theorem test_decBegin : after (exec .decBegin (decoding Config.vectors 0xFF 3 [1, 2])) (fun t => (t.dec.st, t.dec.len, t.dec.buf)) =
    some (.more, 0, listed [1, 2]) := by decide
/-- DE-3, the code byte 02 after the block 03 11 22. -/
theorem test_decPut_implied_zero :
    after (exec (.decPut 0x02) (decoding Config.vectors 0x03 0 [0x11, 0x22])) (fun t => (t.dec.buf, t.dec.rem, t.res, t.ok)) =
      some (listed [0x11, 0x22, 0x00], 1, 0, true) := by decide
/-- DE-6: a delimiter inside a block. -/
theorem test_decPut_cut_short : answer (exec (.decPut 0x00) (decoding Config.vectors 0x03 1 [0x11])) = some (2, false) := by decide
/-- DE-14. -/
theorem test_decRd : answer (exec (.decRd 2) (decoding Config.vectors 0x02 0 [0x11, 0x22, 0x00, 0x33])) = some (0x00, true) ∧
    answer (exec (.decRd 4) (decoding Config.vectors 0x02 0 [0x11, 0x22, 0x00, 0x33])) = some (0, false) := by decide
/-- SRC-6. -/
theorem test_cobs : cobs [0x11, 0x22, 0x00, 0x33] = [0x03, 0x11, 0x22, 0x02, 0x33] ∧ cobs [] = [0x01] ∧
    cobs [0x11, 0x00, 0x00, 0x00] = [0x02, 0x11, 0x01, 0x01, 0x01] := by decide

/-! ### PROTO -/

/-- PY-3. -/
theorem test_payClr : after (exec .payClr (staged Config.vectors [1, 2])) (fun t => (t.pay.len, t.res, t.ok)) = some (0, 0, true) := by decide
/-- PY-1. -/
theorem test_payPut : after (exec (.payPut 0xE1) State.reset) (fun t => (t.byteAt .paybuf 0, t.res, t.ok)) =
    some (some 0xE1, 1, true) := by decide
/-- PY-2. -/
theorem test_payPut_full : after (exec (.payPut 0x33) (staged { Config.vectors with payMax := 2 } [1, 2])) (fun t => (t.res, t.ok, t.pay.len)) =
    some (2, false, 2) := by decide
/-- PS-1. -/
theorem test_protoSend_nop : after (exec (.protoSend 0x00) (State.resetIn cfg16)) (fun t => (t.tx.mem, t.res, t.crc32, t.trace)) =
    some (listed [0x00, 0x02, 0x01, 0x05, 0x41, 0xDC, 0x3D, 0xA7, 0x00], 9, 0xA73DDC41, [.send 0 true]) := by decide +kernel
/-- PS-3, the rejected case. -/
theorem test_protoSend_oversized : after (exec (.protoSend 0x02) (staged cfg17 [1, 2, 3, 4, 5, 6, 7, 8, 9])) (fun t => (t.res, t.ok, t.trace, t.enc)) =
    some (0, false, [.send 2 false], Enc.reset) := by decide +kernel
/-- PP-1, PP-7 and PP-8. -/
theorem test_protoPoll_candidates :
    after (exec .protoPoll (rxWith Config.vectors [0x00, 0x02, 0x01, 0x05, 0x41, 0xDC, 0x3D, 0xA7, 0x00]))
      (fun t => (t.res, t.ok, t.trace, t.crc32, t.dec.len)) =
      some (1, true, [.discard .undersize, .dispatch 0], 0, 6) ∧
    after (exec .protoPoll (rxWith Config.vectors [0x00, 0x02, 0x01, 0x05, 0x41])) (fun t => (t.res, t.trace)) =
      some (0, [.discard .undersize, .discard .incomplete]) ∧
    after (exec .protoPoll (rxWith { Config.vectors with rxcandSize := 4 } [0x00, 0x02, 0x01, 0x05, 0x41, 0xDC, 0x3D, 0xA7, 0x00]))
      (fun t => (t.res, t.trace)) =
      some (0, [.discard .undersize, .discard .incomplete, .discard .decErr]) := by decide +kernel
/-- PP-4. -/
theorem test_protoPoll_reset :
    after (exec .protoPoll (rxWith Config.vectors [0x00, 0x07, 0x01, 0x01, 0xD7, 0xEC, 0x3A, 0xD0, 0x00]))
      (fun t => (t.halted, t.rspValid, t.cmdReady, t.trace)) =
      some (true, false, false, [.discard .undersize, .dispatch 1]) := by decide +kernel

/-! ### SENS -/

/-- SRC-3. -/
theorem test_conversions : convT 0x6000 = 1904 ∧ convT 0 = -4685 ∧ convT 0xFFFF = 12886 ∧ convRh 0x7C80 = 5479 ∧ convRh 0xFFFF = 11899 := by
  decide
/-- SE-1, SE-10. -/
theorem test_sensStep_dwell : answer (exec .sensStep (sensing .clear 0 100 0 99)) = some (0x00, true) ∧
    answer (exec .sensStep (sensing .clear 0xFFFFFFF0 0x20 0 0xF)) = some (0x00, true) := by decide +kernel
/-- SE-4, and SE-9. -/
theorem test_sensStep_readings :
    after (Host.Core.run Sys2Proof.core 14 (stepping (sensing .readTemperature 1000 50 0 1050) (readThenTrigger 0x60 0x00 0x55)))
      (fun t : State => (t.res, t.ok, t.sens)) =
      some (0x12, true, { state := .readHumidity, tlast := 1050, dwell := 16, temp := 1904, hum := 0 }) ∧
    after (Host.Core.run Sys2Proof.core 9 (stepping (sensing .readHumidity 150 16 1904 166) (answerRead 0x7C 0x80 0xF4)))
      (fun t : State => (t.res, t.sens, t.trace, t.tx.w, t.enc.phase)) =
      some (0x30, { state := .clear, tlast := 166, dwell := 100, temp := 1904, hum := 0 }, [], 0, .idle) := by decide +kernel

/-! ### Steps of the other agents, reset -/

/-- A stopped machine steps again after `rst` (RS-1). -/
theorem test_rst : after (step { State.reset with halted := true, seq := .halted, ill := true, clock := 5, sched := [.rst] })
    (fun t => (t.halted, t.ill, t.cmdReady, t.clock)) = some (false, false, true, 5) := by decide
/-- The clock wraps (R15). -/
theorem test_clk : after (step { State.reset with clock := 0xFFFFFFFF, sched := [.clk 2] }) (fun t => t.clock) = some 1 := by decide
/-- BUS does not answer while a stop is posted (R108). -/
theorem test_bus_waits_for_stop : busMayAnswer .ack
    { State.reset with bus := { pend := some { op := .write, addr := 0x40, wdata := 0xF3, last := false }, rsp := none, stop := true } } =
      false := by decide

/-! ### The controller of the pseudo-instructions -/

/-- What a pseudo-instruction gives within `n` steps. -/
def resultOf (p : Pseudo) (n : Nat) (s : State) : Option PseudoResult := after (p.play n s).last fun t => p.result (p.play n s).answers t

/-- The short count of `tx.write` (SRC-2). -/
theorem test_txWrite : resultOf (.txWrite [1, 2, 3, 4, 5, 6, 7, 8]) 20 (State.resetIn cfg8) = some (.count 7) := by decide +kernel
/-- An expansion is not atomic (R61): the third byte becomes visible between the second and the third RX_POP. -/
theorem test_rxRead : resultOf (.rxRead 5) 20
    { rxWith cfg8 [1, 2, 3] with
      rx := { (rxWith cfg8 [1, 2, 3]).rx with wv := 2 }, sched := [.cmd, .cmd, .sync .rxW 3] } =
      some (.bytes [some 1, some 2, some 3]) := by decide +kernel
/-- PROTO_SEND is answered although another agent steps in the middle of its TX_COMMIT; a reset there abandons it; a halted
block accepts nothing (R55, R131, R143). -/
theorem test_send :
    resultOf (.send 0 []) 200 { State.reset with sched := [.cmd, .cmd, .cmd, .cmd, .lrx 3, .cmd] } = some (.sent true) ∧
    ((Pseudo.send 0 []).play 200 { State.reset with sched := [.cmd, .cmd, .cmd, .cmd, .rst] }).ending = .abandoned ∧
    ((Pseudo.send 0 []).play 5 { State.reset with halted := true, seq := .halted }).ending = .waiting := by decide +kernel

/-! ### A fair run in which a bus timeout is reached -/

theorem next_of_after {o : Host.Outcome State Fault Refusal} {t : State} (h : after o (fun u => decide (u = t)) = some true) :
    o = .next t := by
  cases o <;> simp_all [after]

/-- A SENS_STEP that waits for BUS since time 0, with a timeout of 1 ms. -/
def fairWait : State :=
  { State.resetIn { Config.vectors with busTimeoutMs := 1 } with
    seq := .wait { kind := .trigT, now := 0, t0 := 0, got := [] } { op := .write, addr := 0x40, wdata := 0xF3, last := false } []
    bus := { pend := some { op := .write, addr := 0x40, wdata := 0xF3, last := false }, rsp := none, stop := false } }

/-- The same machine after the timeout. -/
def fairDone : State :=
  { fairWait with seq := .idle, bus := { pend := none, rsp := none, stop := true }, res := 0x30, ok := true, rspValid := true }

/-- The `k`-th entry of the schedule: CLK and CMD in turn. -/
def fairEntry (k : Nat) : Agent := if k % 2 = 0 then .clk 1 else .cmd

/-- The run: the clock reads `(k + 1) / 2` at state `k`. -/
def fairRun (k : Nat) : State :=
  { (if k < 2 then fairWait else fairDone) with clock := BitVec.ofNat 32 ((k + 1) / 2), sched := [fairEntry k] }

theorem fairRun_isRun : IsRun fairRun fun k => [fairEntry (k + 1)] := by
  intro k
  refine ⟨{ fairRun (k + 1) with sched := [] }, ?_, rfl⟩
  match k with
  | 0 => exact next_of_after (by decide +kernel)
  | 1 => exact next_of_after (by decide +kernel)
  | k + 2 =>
    rcases Nat.mod_two_eq_zero_or_one k with h | h
    · have e1 : (k + 2) % 2 = 0 := by omega
      have e2 : (k + 2 + 1 + 1) / 2 = (k + 2 + 1) / 2 + 1 := by omega
      have e3 : (BitVec.ofNat 32 ((k + 2 + 1) / 2 + 1) : Word) = BitVec.ofNat 32 ((k + 2 + 1) / 2) + 1 :=
        BitVec.ofNat_add _ _
      simp only [fairRun, fairEntry, e1, e2, e3, if_true, show ¬ k + 2 < 2 by omega, show ¬ k + 2 + 1 < 2 by omega, if_false]
      rfl
    · have e1 : (k + 2) % 2 = 1 := by omega
      have e2 : (k + 2 + 1 + 1) / 2 = (k + 2 + 1) / 2 := by omega
      simp only [fairRun, fairEntry, e1, e2, show ¬ k + 2 < 2 by omega, show ¬ k + 2 + 1 < 2 by omega, if_false,
        show ¬ (1 : Nat) = 0 by omega]
      rfl

theorem fairRun_cmdTurn (i : Nat) : cmdTurn (fairRun (2 * i + 1)) := by
  simp [cmdTurn, fairRun, fairEntry, show (2 * i + 1) % 2 = 1 by omega]

theorem fairRun_views (v : View) (k : Nat) : (viewAndIndex v (fairRun k)).1 = (viewAndIndex v (fairRun k)).2 := by
  unfold fairRun
  cases v <;> split <;> rfl

theorem fairRun_advance (k i : Nat) : i ≤ advanceOver fairRun k (2 * i) := by
  induction i with
  | zero => simp
  | succ i ih =>
    show i + 1 ≤ advanceOver fairRun k (2 * i + 1 + 1)
    simp only [advanceOver]
    have h : 1 ≤ clkAdvance (fairRun (k + 2 * i)) + clkAdvance (fairRun (k + (2 * i + 1))) := by
      rcases Nat.mod_two_eq_zero_or_one k with h | h
      · simp [clkAdvance, fairRun, fairEntry, show (k + 2 * i) % 2 = 0 by omega]
      · simp [clkAdvance, fairRun, fairEntry, show (k + (2 * i + 1)) % 2 = 0 by omega]
    omega

theorem fairRun_timeout (k : Nat) (x : Xfer) (ph : Phase) (todo : List Phase) (h : (fairRun k).seq = .wait x ph todo) :
    ∃ m, k ≤ m ∧ ((fairRun m).seq ≠ (fairRun k).seq ∨ (cmdTurn (fairRun m) ∧ timedOut x (fairRun m) = true)) := by
  refine ⟨k + 2, by omega, .inl ?_⟩
  have e : (fairRun (k + 2)).seq = .idle := by
    unfold fairRun; rw [if_neg (show ¬ k + 2 < 2 by omega)]; rfl
  rw [e, h]
  simp

theorem fairRun_fair : Fair fairRun :=
  ⟨fun k => ⟨2 * k + 1, by omega, .inr (fairRun_cmdTurn k)⟩, fun v k => ⟨k, Nat.le_refl k, .inl (fairRun_views v k)⟩,
    fun k ms => ⟨2 * ms, fairRun_advance k ms⟩, fairRun_timeout⟩

/-- The hypotheses of `fair_sensStep_completes` can be met together: R134, and the 1 ms timeout is reached. -/
theorem test_fair_sensStep_completes : ∃ m, 0 ≤ m ∧ (fairRun m).seq = .idle :=
  fair_sensStep_completes fairRun_isRun fairRun_fair _ 0 rfl

/-! ### Every statement's hypotheses can be met -/

theorem witness_BrokenConfigurationIsRefused :
    (State.resetIn { Config.vectors with txbufSize := 16 }).cfg.txbufSize < 17 ∧
    ¬ [(0 : Byte), 1, 1, 3].Pairwise (· ≠ ·) ∧ ¬ (0x80#8 < 0x80#8) ∧
    State.reset.cfg.sizesOk = true ∧
    [State.reset.cfg.typeNopOut, State.reset.cfg.typeMeasurements, State.reset.cfg.typeHealth, State.reset.cfg.typeEvent].Pairwise (· ≠ ·) ∧
    State.reset.cfg.typeNopIn ≠ State.reset.cfg.typeReset ∧ State.reset.cfg.sensorAddr < 0x80#8 := by decide

theorem witness_ResetEventReplacesTheState :
    ({ closedFive with sched := [.rst, .cmd] } : State).cfg.valid = true ∧
    ({ closedFive with sched := [.rst, .cmd] } : State).sched = .rst :: [.cmd] := by decide

theorem witness_ResetStateIsGood : cfg8.valid = true ∧ cfg17.valid = true := by decide

/-- The states the witnesses below are built on meet the invariant. -/
theorem good_reset : State.reset.Good := good_of _ (by decide +kernel)
theorem good_rt4 : rt4.Good := good_of _ (by decide +kernel)
theorem good_closedFive : closedFive.Good := good_of _ (by decide +kernel)

theorem witness_StepKeepsGood : State.reset.Good ∧ after (step State.reset) (fun _ => true) = some true :=
  ⟨good_reset, by decide⟩

theorem witness_GoodStepsAlwaysGoOn : rt4.Good ∧ closedFive.Good := ⟨good_rt4, good_closedFive⟩

theorem witness_OnlyClkMovesTheClock :
    after (step { State.reset with sched := [.clk 1] }) (fun t => t.clock) = some 1 ∧
    after (step { State.reset with sched := [.ltx] }) (fun t => t.clock) = some 0 := by decide

theorem witness_IllIsStickyUntilReset :
    after (step ({ State.reset with ill := true }.withFetchWord 40 0)) (fun t => t.ill) = some true ∧
    ({ State.reset with ill := true }.withFetchWord 40 0).sched = [.cmd] := by decide

theorem witness_CommandsLeaveTheOtherDomainsAlone :
    after (exec .rxPop rt4) (fun t => t.ok) = some true ∧ after (resume { closedFive with seq := .room .txCommit }) (fun t => t.ok) = some true := by
  decide +kernel

theorem witness_OtherAgentsLeaveTheCoreAlone :
    after (step { State.reset with sched := [.lrx 7, .cmd] }) (fun t => t.rx.w) = some 1 ∧
    after (step { rt18 with sched := [.ltx] }) (fun t => t.tx.r) = some 1 ∧
    after (step { State.reset with sched := [.busTakeStop] }) (fun t => t.sched) = some [] ∧
    after (step { fairWait with sched := [.busAnswer .nack] }) (fun t => t.bus.rsp) = some (some .nack) ∧
    after (step { fairWait with bus := { fairWait.bus with stop := true }, sched := [.busAnswer .nack] }) (fun t => t.bus.rsp) =
      some none := by decide

theorem witness_HaltedAcceptsNoCommand :
    after (step ({ State.reset with halted := true, seq := .halted, cmds := [{ op := 0, arg := 0 }], sched := [.cmd] }))
      (fun t => t.cmds.length) = some 1 := by decide

theorem witness_GrayCode : (5 : Nat) < 2 ^ 3 ∧ 7 < 2 ^ 3 ∧ 2 + 1 = 3 ∧ 0 < 2 ^ 1 := by decide

theorem witness_SynchroniserStaysOnThePath :
    rt4.cfg.valid = true ∧ ({ rt4 with sched := [.sync .rxR 0] } : State).sched = .sync .rxR 0 :: [] ∧
    (6 < 8 ∧ 1 < 8 ∧ 7 < 8 ∧ subMod 8 7 6 ≤ subMod 8 1 6) := by decide

theorem witness_ViewsOnlyUnderestimate : Ring.good 8 rt4.rx := by decide

theorem witness_RingsAreQueues :
    ({ rt4 with sched := [.lrx 9] } : State).Good ∧ after (step { rt4 with sched := [.lrx 9] }) (fun t => t.rx.count 8) = some 4 ∧
    ({ rt18 with sched := [.ltx] } : State).Good ∧ after (step { rt18 with sched := [.ltx] }) (fun t => t.tx.count 8) = some 4 :=
  ⟨good_of _ (by decide +kernel), by decide, good_of _ (by decide +kernel), by decide⟩

theorem witness_DecodeEncodeAgree : (Instr.illegal 0x13).wellFormed = true ∧ (Instr.csrRd 0xFF).wellFormed = true := by decide

theorem witness_DecodingIsTotalAndReadsOnlyTheForm :
    (0x00010008 : Word).setWidth (argBits (decodeCommand 0x11 0x8)) = (0x8 : Word).setWidth (argBits (decodeCommand 0x11 0x8)) := by decide

theorem witness_ReservedOpcodesAreIllegal : reservedOp 0x02 = true ∧ reservedOp 0xFF = true ∧ reservedOp 0x80 = false := by decide

theorem witness_StepRunsTheDecodedInstruction :
    State.reset.cfg.valid = true ∧ (Instr.txPush 0x7E).wellFormed = true ∧ State.reset.cmdReady = true ∧
    decodeCommand 0x21 0x7E = .txPush 0x7E ∧ (Instr.lrxPush 5).wellFormed = true ∧ Instr.ltxPop.wellFormed = true := by decide

theorem witness_CommandsRunUntilTheyEndWaitOrYield :
    ({ closedFive with seq := .room .txCommit } : State).Good ∧
    after (resume { closedFive with seq := .room .txCommit }) (fun t => t.seq.running) = some false :=
  ⟨good_of _ (by decide +kernel), by decide +kernel⟩

theorem witness_CountsAreAnswered : (State.resetIn cfg8).tx.w < (State.resetIn cfg8).cfg.nTx ∧
    (State.resetIn cfg8).tx.rv = (State.resetIn cfg8).tx.w := by decide

theorem witness_RxPeekReadsWithoutConsuming :
    ((2 : Half).toNat < rt4.rx.avail rt4.cfg.nRx ∧ rt4.byteAt .rxMem ((rt4.rx.r + (2 : Half).toNat) % rt4.cfg.nRx) = some 0x00) ∧
    rt4.rx.avail rt4.cfg.nRx ≤ (3 : Half).toNat := by decide

theorem witness_RxPopTakesTheHead :
    (rt4.rx.r < rt4.cfg.nRx ∧ rt4.rx.avail rt4.cfg.nRx ≠ 0 ∧ rt4.byteAt .rxMem rt4.rx.r = some 0x3C) ∧
    State.reset.rx.r < State.reset.cfg.nRx ∧ State.reset.rx.avail State.reset.cfg.nRx = 0 := by decide

theorem witness_TxPushAppendsOneByte :
    (rt11.tx.w < rt11.cfg.nTx ∧ rt11.tx.free rt11.cfg.nTx ≠ 0) ∧
    (7 < cfg8.nTx ∧ Ring.free cfg8.nTx { rt11.tx with w := 7, wg := 4 } = 0) := by decide

theorem witness_TxWriteReturnsTheShortCount :
    rt11.Good ∧ rt11.seq = .idle ∧ rt11.sched = [] ∧ rt11.tx.free rt11.cfg.nTx = 1 :=
  ⟨good_of _ (by decide +kernel), by decide⟩

theorem witness_TxCommitWritesTheWholeFrame :
    closedFive.Good ∧ closedFive.seq = .idle ∧ closedFive.sched = [] ∧ closedFive.enc.phase = .closed ∧ closedFive.enc.ovf = false ∧
    closedFive.enc.len.toNat ≤ closedFive.tx.free closedFive.cfg.nTx := ⟨good_closedFive, by decide⟩

theorem witness_TxCommitIsAllOrNothing :
    (State.reset.seq = .idle ∧ State.reset.enc.phase ≠ .closed) ∧
    (closedFive.seq = .idle ∧ Ring.free closedFive.cfg.nTx rt18.tx < closedFive.enc.len.toNat) := by decide

theorem witness_LrxPushAppendsOneByte :
    (rt4.rx.w < rt4.cfg.nRx ∧ rt4.rx.free rt4.cfg.nRx ≠ 0) ∧
    Ring.free 4 { Ring.reset with w := 0, rv := 1 } = 0 := by decide

theorem witness_LtxPopTakesTheHead :
    (rt18.tx.r < rt18.cfg.nTx ∧ rt18.tx.avail rt18.cfg.nTx ≠ 0 ∧ rt18.byteAt .txMem rt18.tx.r = some 0x00) ∧
    (rt11.tx.r < rt11.cfg.nTx ∧ Ring.avail rt11.cfg.nTx { rt11.tx with wv := 0 } = 0) := by decide

theorem witness_Crc32ResidueIsZeroExactlyForItsOwnCrc :
    (le32 0xA73DDC41).length = 4 ∧ crc32 ([0x01, 0x00] ++ le32 0xA73DDC41) 0xFFFFFFFF = 0 ∧ 1 ≤ [(0 : Byte)].length := by decide +kernel

theorem witness_EncBeginOpensAFrame : 2 ≤ State.reset.cfg.txbufSize := by decide

/-- A transmit buffer that the 254th byte of a block fills, and one with room for the next code slot. -/
def cfg256 : Config := { Config.vectors with txbufSize := 256 }
def cfg257 : Config := { Config.vectors with txbufSize := 257 }

/-- One state for each case of ENC_PUT; the two that name no byte serve the cases of 0x00 too. -/
theorem witness_EncPutFollowsItsCases :
    (State.reset.enc.good State.reset.cfg.txbufSize ∧ State.reset.enc.phase ≠ .opened) ∧
    ((filled cfg17 15).enc.good (filled cfg17 15).cfg.txbufSize ∧ (filled cfg17 15).cfg.txbufSize ≤ (filled cfg17 15).enc.len.toNat) ∧
    ((begun cfg17).enc.good (begun cfg17).cfg.txbufSize ∧ (begun cfg17).enc.code ≠ 0xFE#8) ∧
    ((filled cfg256 253).enc.good cfg256.txbufSize ∧ (filled cfg256 253).enc.code = 0xFE#8 ∧
      cfg256.txbufSize ≤ (filled cfg256 253).enc.len.toNat + 1) ∧
    ((filled cfg257 253).enc.good cfg257.txbufSize ∧ ¬ cfg257.txbufSize ≤ (filled cfg257 253).enc.len.toNat + 1) :=
  ⟨by decide, by decide +kernel, by decide, ⟨filled_good _ _ (by decide) (by decide), by decide⟩,
    filled_good _ _ (by decide) (by decide), by decide⟩

/-- One state for each case of ENC_END. -/
theorem witness_EncEndFollowsItsCases :
    (State.reset.enc.good State.reset.cfg.txbufSize ∧ State.reset.enc.phase ≠ .opened) ∧
    ({ (filled cfg17 15).enc with ovf := true } : Enc).good 17 ∧
    ((filled cfg17 15).enc.good 17 ∧ (17 : Nat) ≤ (filled cfg17 15).enc.len.toNat) ∧
    ((filled cfg17 14).enc.good 17 ∧ ¬ (17 : Nat) ≤ (filled cfg17 14).enc.len.toNat) :=
  ⟨by decide, by decide +kernel, ⟨filled_good cfg17 15 (by decide) (by decide), by decide⟩,
    filled_good cfg17 14 (by decide) (by decide), by decide⟩

theorem witness_EncRdAndDecRdReadBelowTheLength :
    ((4 : Half) < closedFive.enc.len ∧ (4 : Half).toNat < closedFive.cfg.txbufSize ∧ closedFive.byteAt .encbuf (4 : Half).toNat = some 0x00) ∧
    ¬ (5 : Half) < closedFive.enc.len ∧
    ((1 : Half) < (decoding cfg8 3 0 [1, 2]).dec.len ∧ (1 : Half).toNat < cfg8.rxbufSize ∧
      (decoding cfg8 3 0 [1, 2]).byteAt .decbuf (1 : Half).toNat = some 2) ∧
    ¬ (2 : Half) < (decoding cfg8 3 0 [1, 2]).dec.len := by decide

theorem witness_EncoderBuildsTheCobsFrame : 17 ≤ cfg17.txbufSize ∧ cfg17.txbufSize ≤ 65535 := by decide

/-- One decoder for each case of DEC_PUT, in the statement's order. -/
theorem witness_DecPutFollowsItsCases :
    ({ Dec.reset with st := .done } : Dec).st ≠ .more ∧
    (decoding cfg8 3 1 [1]).dec.rem ≠ 0 ∧ (decoding cfg8 3 0 [1]).dec.rem = 0 ∧ Dec.reset.have_ = false ∧
    (decoding cfg8 0xFF 0 [1]).dec.code = 0xFF#8 ∧
    { cfg8 with rxbufSize := 1 }.rxbufSize ≤ (decoding cfg8 3 1 [1]).dec.len.toNat := by decide

theorem witness_DecoderInvertsCobs : cfg8.rxbufSize ≤ 65535 ∧ [(0 : Byte)].length ≤ cfg8.rxbufSize := by decide

theorem witness_PayloadIsStagedByteByByte :
    State.reset.pay.len.toNat < State.reset.cfg.payMax ∧ ¬ (staged { cfg8 with payMax := 2 } [1, 2]).pay.len.toNat < 2 := by decide

theorem witness_OversizedSendIsRejected :
    (staged cfg17 [1, 2, 3, 4, 5, 6, 7, 8, 9]).seq = .idle ∧ cfg17.txbufSize < (2 + 9 + 4) + 3 + (2 + 9 + 4) / 254 := by decide

theorem witness_ProtoSendSendsTheFrame :
    (staged cfg17 [1, 0, 3]).Good ∧ (staged cfg17 [1, 0, 3]).seq = .idle ∧ (staged cfg17 [1, 0, 3]).sched = [] ∧
    [(1 : Byte), 0, 3].length = (staged cfg17 [1, 0, 3]).pay.len.toNat ∧ holdsBytes (staged cfg17 [1, 0, 3]) .paybuf [1, 0, 3] ∧
    (2 + [(1 : Byte), 0, 3].length + 4) + 3 + (2 + [(1 : Byte), 0, 3].length + 4) / 254 ≤ cfg17.txbufSize ∧
    (frame (packet 2 [1, 0, 3])).length ≤ (staged cfg17 [1, 0, 3]).tx.free cfg17.nTx ∧
    ¬ (frame (packet 2 [1, 0, 3])).length ≤ (staged cfg8 [1, 0, 3]).tx.free cfg8.nTx :=
  ⟨good_of _ (by decide +kernel), rfl, rfl, rfl, by unfold holdsBytes; decide, by decide, by decide +kernel, by decide +kernel⟩

theorem witness_CandidateIsCheckedInOrder :
    ({ decoding cfg8 2 0 [2, 9] with seq := .check 0 } : State).seq = .check 0 ∧
    [(2 : Byte), 9].length = (decoding cfg8 2 0 [2, 9]).dec.len.toNat ∧ holdsBytes (decoding cfg8 2 0 [2, 9]) .decbuf [2, 9] ∧
    [(2 : Byte), 9].length ≤ cfg8.rxbufSize := ⟨rfl, rfl, by unfold holdsBytes; decide, by decide⟩

/-- The drain's clauses: at RXCAND_SIZE bytes, on an empty ring, and with a byte at the head. -/
theorem witness_CandidateDrain :
    State.reset.cfg.rxcandSize ≤ 64 ∧ State.reset.rx.avail State.reset.cfg.nRx = 0 ∧
    (63 < rt4.cfg.rxcandSize ∧ rt4.rx.avail rt4.cfg.nRx ≠ 0 ∧ rt4.rx.r < rt4.cfg.nRx ∧ rt4.byteAt .rxMem rt4.rx.r = some 0x3C) := by
  decide

theorem witness_PollOfAnEmptyRing : State.reset.seq = .idle ∧ State.reset.rx.avail State.reset.cfg.nRx = 0 := by decide

theorem witness_PollEndsDrainedOrHalted : rt4.Good ∧ rt4.seq = .idle ∧ rt4.sched = [] := ⟨good_rt4, rfl, rfl⟩

/-- The frame of PP-1 in RX. -/
def polled : State := rxWith Config.vectors (frame (packet 0 []))

theorem witness_PolledFrameIsAccepted :
    polled.Good ∧ polled.seq = .idle ∧ polled.sched = [] ∧ (0 : Byte) ≠ polled.cfg.typeReset ∧
    polled.rx.visible polled.cfg.nRx = (frame (packet 0 [])).map some ∧
    (cobs (packet 0 [])).length + 1 ≤ polled.cfg.rxcandSize ∧ (packet 0 []).length ≤ polled.cfg.rxbufSize :=
  ⟨good_of _ (by decide +kernel), rfl, rfl, by decide, by decide +kernel, by decide +kernel, by decide +kernel⟩

/-- The frame of PP-4 in RX, and the byte 0x00 behind it. -/
def polledReset : State := rxWith Config.vectors (frame (packet 1 []) ++ [0])

theorem witness_PolledResetHaltsTheBlock :
    polledReset.Good ∧ polledReset.seq = .idle ∧ polledReset.sched = [] ∧
    polledReset.rx.visible polledReset.cfg.nRx = (frame (packet polledReset.cfg.typeReset [])).map some ++ [some 0] ∧
    (cobs (packet polledReset.cfg.typeReset [])).length + 1 ≤ polledReset.cfg.rxcandSize ∧
    (packet polledReset.cfg.typeReset []).length ≤ polledReset.cfg.rxbufSize :=
  ⟨good_of _ (by decide +kernel), rfl, rfl, by decide +kernel, by decide +kernel, by decide +kernel⟩

/-- A transaction that started at 100, waiting on the phase `START_W`. -/
def xfer100 : Xfer := { kind := .trigT, now := 100, t0 := 100, got := [] }

def startW : Phase := { op := .startW, addr := 0x40, wdata := 0, last := false }

theorem witness_WaitStepTestsTheAnswerFirst :
    (State.reset.bus.rsp = none ∧ State.reset.cfg.busTimeoutMs ≤ (110 : Word) - xfer100.t0) ∧
    (109 : Word) - xfer100.t0 < State.reset.cfg.busTimeoutMs ∧ startW.op ≠ .read ∧
    ({ State.reset with seq := .wait xfer100 startW [] } : State).seq = .wait xfer100 startW [] := by decide

theorem witness_SensStepBeforeTheDwell :
    (sensing .clear 0 100 0 99).seq = .idle ∧
    (sensing .clear 0 100 0 99).clock - (sensing .clear 0 100 0 99).sens.tlast < (sensing .clear 0 100 0 99).sens.dwell := by decide

/-- SE-2's start with a timeout of 0. -/
def noTime : State := { sensing .clear 0 100 0 100 with cfg := { Config.vectors with busTimeoutMs := 0 } }

theorem witness_SensStepWithZeroTimeoutFailsAtOnce :
    noTime.seq = .idle ∧ noTime.sched = [] ∧ noTime.bus.pend = none ∧ noTime.bus.rsp = none ∧
    noTime.sens.dwell ≤ noTime.clock - noTime.sens.tlast ∧ noTime.cfg.busTimeoutMs = 0 := by decide

theorem witness_SensStepStartsItsTransaction :
    let s := sensing .readHumidity 150 16 0 166
    s.seq = .idle ∧ s.sched = [] ∧ s.bus.rsp = none ∧ s.sens.dwell ≤ s.clock - s.sens.tlast ∧ 0 < s.cfg.busTimeoutMs := by decide

theorem witness_ClearTriggersTheTemperature :
    let s := stepping (sensing .clear 0 100 0 100) ackTrigger
    s.Good ∧ s.seq = .idle ∧ s.cmds = { op := 0x80, arg := 0 } :: [] ∧ s.bus.stop = false ∧ s.sens.state = .clear ∧
    s.sens.dwell ≤ s.clock - s.sens.tlast ∧
    s.sched = [.cmd, .cmd, .cmd, .busAnswer .ack, .cmd, .cmd, .busAnswer .ack] :=
  ⟨good_of _ (by decide +kernel), rfl, rfl, rfl, rfl, by decide, rfl⟩

theorem witness_ReadTemperatureStoresACheckedReading :
    let s := stepping (sensing .readTemperature 100 50 0 150) (answerRead 0x60 0x00 0x54)
    s.Good ∧ s.seq = .idle ∧ s.cmds = { op := 0x80, arg := 0 } :: [] ∧ s.bus.stop = false ∧ s.sens.state = .readTemperature ∧
    s.sens.dwell ≤ s.clock - s.sens.tlast ∧ (0x55 : Byte) = crc8 [0x60, 0x00] ∧ (0x54 : Byte) ≠ crc8 [0x60, 0x00] :=
  ⟨good_of _ (by decide +kernel), rfl, rfl, rfl, rfl, by decide, by decide +kernel, by decide +kernel⟩

/-- SE-6, and the clause of a failing trigger: its schedule with a NACK of the START_W. -/
theorem witness_ReadTemperatureWithAFailingTrigger :
    let s := stepping (sensing .readTemperature 100 50 7 150)
      (answerRead 0x60 0x00 0x55 ++ [.cmd, .cmd, .cmd, .cmd, .busTakeStop] ++ [.busAnswer .nack])
    s.Good ∧ s.bus.stop = false ∧ s.sens.dwell ≤ s.clock - s.sens.tlast ∧ (0x55 : Byte) = crc8 [0x60, 0x00] ∧
    after (Host.Core.run Sys2Proof.core 12 s) (fun t : State => (t.res, t.sens.state, t.sens.temp, t.crc8)) =
      some (0x30, .clear, 7, 0) :=
  ⟨good_of _ (by decide +kernel), rfl, by decide, by decide +kernel, by decide +kernel⟩

theorem witness_ReadHumidityEmitsOneMeasurement :
    let s := stepping (sensing .readHumidity 150 16 1904 166) (answerRead 0x7C 0x80 (crc8 [0x7C, 0x80]))
    s.Good ∧ s.seq = .idle ∧ s.cmds = { op := 0x80, arg := 0 } :: [] ∧ s.bus.stop = false ∧ s.sens.state = .readHumidity ∧
    s.sens.dwell ≤ s.clock - s.sens.tlast ∧ 17 ≤ s.tx.free s.cfg.nTx ∧ Ring.free 16 Ring.reset < 17 ∧
    (0xF4 : Byte) ≠ crc8 [0x7C, 0x80] :=
  ⟨good_of _ (by decide +kernel), rfl, rfl, rfl, rfl, by decide, by decide +kernel, by decide, by decide +kernel⟩

theorem witness_NopAndIllegalCommands : reservedOp 0x02 = true ∧ reservedOp 0xFF = true := by decide

theorem witness_CsrRdAnswersTheRegisterMap : 0x12#8 < 0x13#8 ∧ 0x12#8 ≤ 0x12#8 ∧ 0x00#8 ≤ 0x12#8 := by decide

end Sys2Proof.Tests
end

/-! The two statements of 00_scope.md: which configurations `step` refuses (R7, R8), and that every turn of CMD comes to its own
end before the model's bound on its micro-steps (R10, R44, log 5). -/

namespace Sys2Proof.Machine

/-! ### What the machine refuses -/

/-- An operation's result is never a refusal. -/
theorem outcomeOf_not_refused (e : Except Fault State) (r : Refusal) : outcomeOf e ≠ .refused r := by
  cases e <;> simp [outcomeOf]

theorem launch_not_refused (p : Seq) (s : State) (r : Refusal) : launch p s ≠ .refused r := by
  unfold launch
  split
  · exact runMicro_not_refused _ _ r
  · simp

/-- Every instruction has a meaning: none is refused. -/
theorem exec_not_refused (i : Instr) (s : State) (r : Refusal) : exec i s ≠ .refused r := by
  cases i with
  | nop | rxAvail | txFree | crc32Seed | crc32Put | crc32Rd | crc8Init | crc8Put | crc8Rd | decBegin | payClr | illegal =>
    nofun
  | csrRd | txPush | decPut | payPut | lrxPush =>
    simp only [exec, execCsrRd, execTxPush, execDecPut, execPayPut, execLrxPush]
    split <;> simp
  | encBegin => exact outcomeOf_not_refused _ r
  | rxPeek | rxPop | encPut | encEnd | encRd | decRd | ltxPop =>
    simp only [exec, execRxPeek, execRxPop, execEncPut, execEncEnd, execEncRd, execDecRd, execLtxPop]
    split <;> simp [outcomeOf_not_refused]
  | txCommit => exact launch_not_refused (.room .txCommit) s r
  | protoPoll => exact launch_not_refused (.drain 0 0) s r
  | sensStep => exact launch_not_refused .sample s r
  | protoSend t => simp only [exec, execProtoSend]; split <;> simp [launch_not_refused]

theorem handshake_not_refused (w : PortWord) (s : State) (r : Refusal) : handshake w s ≠ .refused r := by
  unfold handshake
  split
  · exact exec_not_refused _ s r
  · simp

theorem acceptTurn_not_refused (s : State) (r : Refusal) : acceptTurn s ≠ .refused r := by
  unfold acceptTurn
  split
  · simp
  · split
    · exact handshake_not_refused _ _ r
    · simp

/-- No agent's turn is refused. -/
theorem agentTurn_not_refused (s : State) (r : Refusal) : agentTurn s ≠ .refused r := by
  have cmdTurn_not_refused : ∀ u, (if s.seq.running then resume s else acceptTurn u) ≠ .refused r := by
    intro u
    split
    · exact runMicro_not_refused _ s r
    · exact acceptTurn_not_refused u r
  unfold agentTurn
  split
  · exact cmdTurn_not_refused _
  · exact cmdTurn_not_refused _
  · exact handshake_not_refused _ _ r
  · exact handshake_not_refused _ _ r
  all_goals simp

/-- `step` refuses exactly the configurations that are not valid. -/
theorem step_badConfiguration_iff (s : State) : step s = .refused .badConfiguration ↔ s.cfg.valid = false := by
  unfold step
  split
  · next h => simp [h, agentTurn_not_refused]
  · next h => simp [h]

/-- The valid configurations: the ranges of R7 and the three constraints of R8. -/
theorem config_valid_iff (c : Config) :
    c.valid = true ↔
      c.sizesOk = true ∧ [c.typeNopOut, c.typeMeasurements, c.typeHealth, c.typeEvent].Pairwise (· ≠ ·) ∧
        c.typeNopIn ≠ c.typeReset ∧ c.sensorAddr < 0x80#8 := by
  simp only [Config.valid, Config.typesOk, Config.addrOk, Bool.and_eq_true, decide_eq_true_eq, and_assoc]
  exact Iff.rfl

theorem txbufSize_of_sizesOk {c : Config} (h : c.sizesOk = true) : 17 ≤ c.txbufSize := by
  simp only [Config.sizesOk, decide_eq_true_eq] at h
  omega

/-- Settles O1: `step` refuses exactly what `Config.valid` excludes, and each constraint of R8 is one of its conditions. -/
theorem brokenConfigurationIsRefused : Obligations.BrokenConfigurationIsRefused := by
  intro s
  simp only [ne_eq, step_badConfiguration_iff, ← Bool.not_eq_true, not_not, config_valid_iff]
  refine ⟨fun hbroken hvalid => ?_, fun hsizes hout hin haddr => ⟨hsizes, hout, hin, haddr⟩⟩
  obtain ⟨hsizes, hout, hin, haddr⟩ := hvalid
  rcases hbroken with hsmall | hequal | hsame | hhigh
  · have := txbufSize_of_sizesOk hsizes
    omega
  · exact hequal hout
  · exact hin hsame
  · exact hhigh haddr

/-! ### The micro-steps a command has still to take

`sensLeft` (Laws/Fairness.lean) counts the phases of a transaction, which nothing bounds in a Good state. Within one turn of CMD
no phase is answered but one that had its answer when the turn began, so here the phases to come do not count. -/

/-- No fewer than the micro-steps from a position to the end of the turn, wait steps that change nothing apart, when CMD sees
`avail` bytes in RX and the bus has `answered`. A popped byte counts 3: its own turn of the drain, the turn that finds the drain
at its end, and the check of the candidate. -/
def seqLeft (avail : Nat) (answered : Bool) : Seq → Nat
  | .idle => 0
  | .halted => 0
  | .room _ => 65537
  | .commit _ j len => len - j + 1
  | .drain _ k => 3 * avail + if k = 0 then 1 else 3
  | .check _ => 3 * avail + 2
  | .sample => 80000
  | .xferStart x => kindLeft x.kind + 50
  | .request x _ _ => kindLeft x.kind + 3 + 2 * answered.toNat
  | .wait x _ _ => kindLeft x.kind + 2 + 2 * answered.toNat
  | .postStop x _ => kindLeft x.kind + 1

/-- `seqLeft` of a state. -/
def stepsLeft (s : State) : Nat := seqLeft (s.rx.avail s.cfg.nRx) s.bus.rsp.isSome s.seq

theorem stepsLeft_of_seq {s : State} {p : Seq} (h : s.seq = p) :
    stepsLeft s = seqLeft (s.rx.avail s.cfg.nRx) s.bus.rsp.isSome p := by
  rw [stepsLeft, h]

theorem stepsLeft_pos {s : State} (h : s.seq.running = true) : 0 < stepsLeft s := by
  unfold stepsLeft
  cases hs : s.seq with
  | idle | halted => simp [hs, Seq.running] at h
  | drain acc k => simp only [seqLeft]; split <;> omega
  | _ => simp [seqLeft]

theorem nRx_pos (c : Config) : 0 < c.nRx := Nat.two_pow_pos c.kRx

/-- A Good state has fewer micro-steps left than the model's bound: a frame has fewer than 2^16 bytes, a ring at most 2^15. -/
theorem stepsLeft_le_of_good {s : State} (hg : s.Good) : stepsLeft s ≤ 262144 := by
  have hsizes := ((config_valid_iff _).1 hg.cfg).1
  have hn : s.cfg.nRx ≤ 32768 := by
    simp only [Config.sizesOk, decide_eq_true_eq] at hsizes
    exact Nat.pow_le_pow_right (by decide : 0 < 2) (by omega : s.cfg.kRx ≤ 15)
  have havail : s.rx.avail s.cfg.nRx < s.cfg.nRx := subMod_lt (nRx_pos s.cfg) _ _
  have hkind : ∀ x : Xfer, kindLeft x.kind ≤ 70200 := fun x => by cases x.kind <;> simp [kindLeft]
  have hans := s.bus.rsp.isSome.toNat_le
  have hseq := hg.seq
  rw [stepsLeft]
  cases hs : s.seq with
  | idle | halted | room | sample => simp [seqLeft]
  | commit after j len =>
    have hlen : len = s.enc.len.toNat := by simp_all [seqGood]
    have := s.enc.len.isLt
    simp only [seqLeft]
    omega
  | drain acc k => simp only [seqLeft]; split <;> omega
  | check acc => simp only [seqLeft]; omega
  | xferStart x | request x | wait x | postStop x => have := hkind x; simp only [seqLeft]; omega

/-! ### Every micro-step brings the end of the turn nearer -/

@[simp] theorem commitDone_seq (after : After) (ok : Bool) (len : Word) (s : State) : (commitDone after ok len s).seq = .idle := by
  cases after <;> rfl

/-- An advance makes the consumer see one byte less, whatever the indices. -/
theorem avail_advance_of_pos {n : Nat} (hn : 0 < n) (q : Ring) (h : 0 < q.avail n) :
    (q.advance n).avail n = q.avail n - 1 := by
  have hmod : ∀ a b, subMod n a b = subMod n (a % n) (b % n) := by simp [subMod]
  have hstep : (q.r + 1) % n = (q.r % n + 1) % n := by simp
  simp only [Ring.avail, Ring.advance_wv, Ring.advance_r] at h ⊢
  rw [hmod] at h ⊢
  rw [hstep, Nat.mod_mod, subMod_succ_right (Nat.mod_lt _ hn) (Nat.mod_lt _ hn) h, ← hmod]

theorem roomStep_seq (after : After) (s : State) :
    (roomStep after s).seq = .idle ∨ (roomStep after s).seq = .commit after 0 s.enc.len.toNat := by
  unfold roomStep
  split
  · simp
  · split <;> simp

/-- A check leaves RX alone, and halts the block or begins the next drain. -/
theorem checkStep_next {acc : Word} {s s' : State} (h : checkStep acc s = .ok s') :
    s'.rx = s.rx ∧ s'.cfg = s.cfg ∧ (s'.seq = .halted ∨ ∃ acc', s'.seq = .drain acc' 0) := by
  rcases checkStep_ok h with ⟨code, rfl⟩ | ⟨p, _, rfl⟩
  · simp [discardCandidate]
  · simp only [checkPacket, discardCandidate, dispatch]
    split
    · simp
    · split
      · simp
      · split
        · simp
        · split <;> simp

theorem sampleStep_seq (s : State) :
    (sampleStep s).seq = .idle ∨ ∃ x, (sampleStep s).seq = .xferStart x := by
  unfold sampleStep
  split <;> simp

/-- After its stop a transaction ends the SENS_STEP, or the temperature read goes on to the humidity trigger, or the humidity
read to the room test of its measurement. -/
theorem xferDone_seq {x : Xfer} {ok : Bool} {s s' : State} (h : xferDone x ok s = .ok s') :
    s'.seq = .idle ∨ (x.kind = .readT ∧ ∃ code, s'.seq = .xferStart { x with kind := .trigRh code }) ∨
      (x.kind = .readRh ∧ s'.seq = .room (.measurement x.now)) := by
  unfold xferDone at h
  cases hk : x.kind with
  | trigT | trigRh =>
    simp only [hk] at h
    split at h <;> simp only [Except.ok.injEq] at h <;> subst h <;> exact .inl rfl
  | readT =>
    simp only [hk] at h
    split at h
    · split at h <;> simp only [Except.ok.injEq] at h <;> subst h
      · exact .inr (.inl ⟨rfl, _, rfl⟩)
      · exact .inl rfl
    · simp only [Except.ok.injEq] at h; subst h; exact .inl rfl
  | readRh =>
    simp only [hk] at h
    split at h
    · split at h
      · rcases sendFrame_ok h with ⟨_, rfl⟩ | ⟨_, _, _, _, _, rfl⟩
        · exact .inl (commitDone_seq _ _ _ _)
        · exact .inr (.inr ⟨rfl, rfl⟩)
      · simp only [Except.ok.injEq] at h; subst h; exact .inl rfl
    · simp only [Except.ok.injEq] at h; subst h; exact .inl rfl

theorem seqLeft_nextPhase_le (avail : Nat) (answered : Bool) (x : Xfer) (todo : List Phase) :
    seqLeft avail answered (nextPhase x todo) ≤ kindLeft x.kind + 3 + 2 * answered.toNat := by
  cases todo <;> simp only [nextPhase, seqLeft] <;> omega

theorem seqLeft_afterAnswer_le (avail : Nat) (answered : Bool) (x : Xfer) (ph : Phase) (todo : List Phase) (r : BusAnswer) :
    seqLeft avail answered (afterAnswer x ph todo r) ≤ kindLeft x.kind + 3 + 2 * answered.toNat := by
  unfold afterAnswer
  split
  · exact seqLeft_nextPhase_le avail answered { x with got := x.got ++ [_] } todo
  · exact seqLeft_nextPhase_le avail answered x todo
  · exact seqLeft_nextPhase_le avail answered x todo
  · exact seqLeft_nextPhase_le avail answered x todo
  · simp only [seqLeft]; omega

theorem drainStep_stepsLeft {acc : Word} {k : Nat} {s s' : State} (hs : s.seq = .drain acc k) (h : drainStep acc k s = .ok s') :
    stepsLeft s' < stepsLeft s := by
  rw [stepsLeft_of_seq hs]
  rcases drainStep_ok h with ⟨_, rfl⟩ | ⟨hgo, x, _, rfl⟩
  · by_cases hk : k = 0 <;> simp [hk, stepsLeft, seqLeft]
  · have hpos : 0 < s.rx.avail s.cfg.nRx := by omega
    simp only [stepsLeft, State.goto_seq, State.goto_rx, State.goto_cfg, avail_advance_of_pos (nRx_pos s.cfg) s.rx hpos]
    by_cases hx : x = 0
    · simp only [hx, if_true, seqLeft]; split <;> omega
    · simp only [hx, if_false, seqLeft]; split <;> split <;> omega

theorem checkStep_stepsLeft {acc : Word} {s s' : State} (hs : s.seq = .check acc) (h : checkStep acc s = .ok s') :
    stepsLeft s' < stepsLeft s := by
  obtain ⟨hrx, hcfg, hhalt | ⟨acc', hdrain⟩⟩ := checkStep_next h
  · simp [stepsLeft_of_seq hhalt, stepsLeft_of_seq hs, seqLeft]
  · simp [stepsLeft_of_seq hdrain, stepsLeft_of_seq hs, seqLeft, hrx, hcfg]

theorem postStopStep_stepsLeft {x : Xfer} {ok : Bool} {s s' : State} (hs : s.seq = .postStop x ok)
    (h : postStopStep x ok s = .ok s') : stepsLeft s' < stepsLeft s := by
  rw [stepsLeft_of_seq hs]
  rcases xferDone_seq h with hidle | ⟨hkind, code, hnext⟩ | ⟨hkind, hsend⟩
  · simp [stepsLeft_of_seq hidle, seqLeft]
  · simp [stepsLeft_of_seq hnext, seqLeft, hkind, kindLeft]
  · simp [stepsLeft_of_seq hsend, seqLeft, hkind, kindLeft]

/-- A wait step that is not blocked takes the answer, and with it what `answered` counted, or posts the stop. -/
theorem waitStep_stepsLeft {x : Xfer} {ph : Phase} {todo : List Phase} {s : State} (hs : s.seq = .wait x ph todo) :
    stepsLeft (waitStep x ph todo s) < stepsLeft s ∨ (s.blocked = true ∧ waitStep x ph todo s = s) := by
  rw [stepsLeft_of_seq hs]
  rcases waitStep_cases x ph todo s with ⟨r, hr, e⟩ | ⟨hr, _, e⟩ | ⟨hr, ht, e⟩ <;> rw [e]
  · have := seqLeft_afterAnswer_le (s.rx.avail s.cfg.nRx) false x ph todo r
    left
    simp only [stepsLeft, State.goto_seq, State.goto_rx, State.goto_cfg, State.goto_bus, Option.isSome_none]
    simp only [hr, seqLeft, Option.isSome_some, Bool.toNat_true, Bool.toNat_false] at this ⊢
    omega
  · left
    simp [stepsLeft, seqLeft, hr]
  · right
    simp [State.blocked, hs, hr, ht]

/-- Every micro-step of a command in progress brings the end of the turn nearer, but for a wait step that is blocked. -/
theorem microStep_stepsLeft {s s' : State} (hr : s.seq.running = true) (h : microStep s = .ok s') :
    stepsLeft s' < stepsLeft s ∨ (s.blocked = true ∧ s' = s) := by
  unfold microStep at h
  cases hs : s.seq with
  | idle | halted => simp [hs, Seq.running] at hr
  | room after =>
    simp only [hs, Except.ok.injEq] at h
    subst h
    have := s.enc.len.isLt
    left
    rcases roomStep_seq after s with hn | hn <;> rw [stepsLeft_of_seq hn, stepsLeft_of_seq hs] <;> simp only [seqLeft] <;> omega
  | commit after j len =>
    simp only [hs] at h
    left
    rw [stepsLeft_of_seq hs]
    rcases commitStep_ok h with ⟨hj, b, _, _, rfl⟩ | ⟨_, rfl⟩
    · simp only [stepsLeft, State.goto_seq, seqLeft]; omega
    · simp [stepsLeft, seqLeft]
  | drain acc k => simp only [hs] at h; exact .inl (drainStep_stepsLeft hs h)
  | check acc => simp only [hs] at h; exact .inl (checkStep_stepsLeft hs h)
  | sample =>
    simp only [hs, Except.ok.injEq] at h
    subst h
    left
    rcases sampleStep_seq s with hn | ⟨x, hn⟩ <;> rw [stepsLeft_of_seq hn, stepsLeft_of_seq hs]
    · simp [seqLeft]
    · cases hk : x.kind <;> simp [seqLeft, hk, kindLeft]
  | xferStart x =>
    simp only [hs, Except.ok.injEq] at h
    subst h
    left
    have hle := seqLeft_nextPhase_le (s.rx.avail s.cfg.nRx) s.bus.rsp.isSome { x with t0 := s.clock, got := [] } (x.kind.phases s.cfg)
    have hans := s.bus.rsp.isSome.toNat_le
    rw [stepsLeft_of_seq hs]
    simp only [stepsLeft, xferStartStep, State.goto_seq, State.goto_rx, State.goto_cfg, State.goto_bus, seqLeft] at hle ⊢
    omega
  | request x ph todo =>
    simp only [hs, Except.ok.injEq] at h
    subst h
    left
    rw [stepsLeft_of_seq hs]
    simp [stepsLeft, requestStep, seqLeft]
  | wait x ph todo =>
    simp only [hs, Except.ok.injEq] at h
    exact h ▸ waitStep_stepsLeft hs
  | postStop x ok => simp only [hs] at h; exact .inl (postStopStep_stepsLeft hs h)

/-! ### Turns of CMD -/

/-- The three ends of a turn of CMD: no command is running, CMD waits with nothing scheduled, or another agent is due. -/
def TurnOver (t : State) : Prop :=
  t.seq.running = false ∨ (t.blocked = true ∧ t.sched = []) ∨ (∃ a rest, t.sched = a :: rest ∧ a ≠ .cmd)

theorem microStep_sched {s s' : State} (h : microStep s = .ok s') : s'.sched = s.sched := by
  obtain ⟨-, -, -, -, -, -, -, -, -, -, -, -, -, -, -, -, -, hsched⟩ := microStep_outside h
  exact hsched

/-- No fewer than the iterations CMD's loop has still to make: a blocked wait step uses up an entry of the schedule. -/
def turnLeft (s : State) : Nat := stepsLeft s + s.sched.length

/-- An iteration of CMD's loop ends the turn, or takes a micro-step that leaves fewer iterations to make. -/
theorem runMicro_succ {fuel : Nat} {s t : State} (h : runMicro (fuel + 1) s = .next t) :
    (TurnOver s ∧ t = s) ∨ ∃ s', turnLeft s' < turnLeft s ∧ runMicro fuel s' = .next t := by
  have ended (hover : TurnOver s) (hend : runMicro (fuel + 1) s = .next s) : TurnOver s ∧ t = s :=
    ⟨hover, Host.Outcome.next.inj (h.symm.trans hend)⟩
  by_cases hr : s.seq.running = false
  · exact .inl (ended (.inl hr) (runMicro_idle hr _))
  have hr : s.seq.running = true := Bool.not_eq_false _ ▸ hr
  rcases hsch : s.sched with _ | ⟨a, rest⟩
  · by_cases hb : s.blocked = true
    · exact .inl (ended (.inr (.inl ⟨hb, hsch⟩)) (runMicro_blocked hsch hb _))
    have hb : s.blocked = false := Bool.not_eq_true _ ▸ hb
    rcases hm : microStep s with f | s'
    · simp [runMicro, hr, hsch, hb, hm] at h
    rw [runMicro_step hr hsch hb hm] at h
    have hlt : stepsLeft s' < stepsLeft s := (microStep_stepsLeft hr hm).resolve_right (by simp [hb])
    exact .inr ⟨s', by simpa [turnLeft, microStep_sched hm] using hlt, h⟩
  · by_cases ha : a = .cmd
    · subst ha
      rcases hm : microStep { s with sched := rest } with f | s'
      · simp [runMicro, hr, hsch, hm] at h
      rw [runMicro_cmd hr hsch hm] at h
      have hle : stepsLeft s' ≤ stepsLeft s := by
        rcases microStep_stepsLeft (s := { s with sched := rest }) hr hm with hlt | ⟨_, rfl⟩
        · exact hlt.le
        · exact le_rfl
      refine .inr ⟨s', ?_, h⟩
      simp only [turnLeft, microStep_sched hm, hsch, List.length_cons]
      omega
    · exact .inl (ended (.inr (.inr ⟨a, rest, hsch, ha⟩)) (runMicro_yield hsch ha _))

/-- CMD's loop, with fuel for its iterations, comes to an end of the turn. -/
theorem runMicro_turnOver (fuel : Nat) {s t : State} (hf : turnLeft s ≤ fuel) (h : runMicro fuel s = .next t) :
    TurnOver t := by
  induction fuel generalizing s with
  | zero =>
    obtain rfl : s = t := Host.Outcome.next.inj h
    have hnone : stepsLeft s = 0 := by unfold turnLeft at hf; omega
    exact .inl (Bool.eq_false_iff.2 fun hr => (stepsLeft_pos hr).ne' hnone)
  | succ n ih =>
    rcases runMicro_succ h with ⟨hover, rfl⟩ | ⟨s', hlt, hrest⟩
    · exact hover
    · exact ih (by omega) hrest

/-- Settles O21: a Good state has fewer micro-steps left than the model's bound, so its fuel suffices (log 5). -/
theorem commandsRunUntilTheyEndWaitOrYield : Obligations.CommandsRunUntilTheyEndWaitOrYield := by
  intro s t hg h
  have hfuel : turnLeft s ≤ microFuel s := Nat.add_le_add_right (stepsLeft_le_of_good hg) _
  exact runMicro_turnOver _ hfuel h

end Sys2Proof.Machine

/-! The statements of 10_state.md, first part: every operation of a byte space, a ring, the encoder, the decoder and the payload
buffer keeps the unit's part of the invariant (R18, R21, R22, R23; 20_memory.md R38, R40, R41). -/

namespace Sys2Proof.Machine

/-! ### Byte spaces -/

theorem Memory.good_nil (size : Nat) : Memory.good [] size 0 := by simp [Memory.good, Memory.wf]

theorem Memory.good_write {m : Memory} {size len i : Nat} (h : m.good size len) (hi : i < size) (b : Byte) :
    (m.write i b).good size len := by
  obtain ⟨hwf, hindices, hwritten⟩ := h
  exact ⟨Memory.wf_write hwf i b, Memory.indices_write hindices hi b,
    fun j hj => Memory.read_isSome_write m i j b (hwritten j hj)⟩

/-- A write just behind the written bytes makes them one more. -/
theorem Memory.good_append {m : Memory} {size len : Nat} (h : m.good size len) (hlen : len < size) (b : Byte) :
    (m.write len b).good size (len + 1) := by
  obtain ⟨hwf, hindices, hwritten⟩ := Memory.good_write h hlen b
  refine ⟨hwf, hindices, fun j hj => ?_⟩
  rcases Nat.lt_succ_iff_lt_or_eq.1 hj with hlt | rfl
  · exact hwritten j hlt
  · simp [Memory.read_write_self]

theorem Memory.good_empty {m : Memory} {size len : Nat} (h : m.good size len) : m.good size 0 :=
  ⟨h.1, h.2.1, fun _ hj => absurd hj (Nat.not_lt_zero _)⟩

/-- A length register below the size of its space does not wrap. -/
theorem half_toNat_succ {len : Half} {size : Nat} (hlen : len.toNat < size) (hsize : size ≤ 65535) :
    (len + 1).toNat = len.toNat + 1 := by
  rw [BitVec.toNat_add]
  exact Nat.mod_eq_of_lt (show len.toNat + 1 < 65536 by omega)

/-! ### Rings -/

theorem Ring.good_reset {n : Nat} (hn : 0 < n) : Ring.reset.good n :=
  ⟨Memory.good_nil n, by simp [Ring.reset, hn, subMod_self hn, Ring.avail, Ring.count, gray]⟩

/-- What the producer may still write is what its view of the bytes held leaves (20_memory.md R40). -/
theorem Ring.free_of_good {n : Nat} {q : Ring} (h : q.good n) : q.free n = n - 1 - (subMod n q.r q.rv + q.count n) := by
  obtain ⟨-, hw, hr, -, hrv, -, -, -, hroom, -⟩ := h
  have hsum : subMod n q.w q.rv = q.count n + subMod n q.r q.rv :=
    subMod_trans hw hr hrv (show q.count n + _ < n by omega)
  rw [free_eq hw hrv, hsum, Nat.add_comm]

/-- A producer with room keeps the invariant: the new byte stands right behind the bytes held. -/
theorem Ring.good_push {n : Nat} {q : Ring} (h : q.good n) (hfree : 0 < q.free n) (b : Byte) : (q.push n b).good n := by
  rw [Ring.free_of_good h] at hfree
  obtain ⟨hmem, hw, hr, hwv, hrv, -, hrg, havail, hroom, hheld⟩ := h
  have hn : 0 < n := by omega
  have hcount : (q.push n b).count n = q.count n + 1 := Ring.count_push n q b hw hr (by omega)
  have hseen : (q.push n b).avail n = q.avail n := rfl
  have hend : (q.r + q.count n) % n = q.w := add_subMod hw hr
  refine ⟨Memory.good_write hmem (Nat.mod_lt _ hn) b, Nat.mod_lt _ hn, hr, hwv, hrv, rfl, hrg, by omega, ?_, fun i hi => ?_⟩
  · simp only [Ring.push_r, Ring.push_rv]; omega
  · simp only [Ring.push_mem, Ring.push_r, Nat.mod_eq_of_lt hw]
    rcases Nat.lt_succ_iff_lt_or_eq.1 (hcount ▸ hi) with hlt | rfl
    · exact Memory.read_isSome_write _ _ _ _ (hheld i hlt)
    · simp [hend, Memory.read_write_self]

/-- A consumer that sees a byte keeps the invariant: it gives up the oldest byte held. -/
theorem Ring.good_advance {n : Nat} {q : Ring} (h : q.good n) (havailable : 0 < q.avail n) : (q.advance n).good n := by
  obtain ⟨hmem, hw, hr, hwv, hrv, hwg, -, havail, hroom, hheld⟩ := h
  have hn : 0 < n := by omega
  have hcount := Ring.count_advance n q hw hr (by omega)
  have hseen := Ring.avail_advance n q hwv hr havailable
  have hgiven : subMod n ((q.r + 1) % n) q.rv = subMod n q.r q.rv + 1 := subMod_succ_left hr hrv (by omega)
  refine ⟨hmem, hw, Nat.mod_lt _ hn, hwv, hrv, hwg, rfl, by omega, ?_, fun i hi => ?_⟩
  · simp only [Ring.advance_r, Ring.advance_rv]; omega
  · have hslot : ((q.r + 1) % n + i) % n = (q.r + (i + 1)) % n := by rw [Nat.mod_add_mod]; congr 1; omega
    simp only [Ring.advance_mem, Ring.advance_r, hslot]
    exact hheld (i + 1) (by omega)

theorem onPath_iff {n view index v : Nat} :
    onPath n view index v = true ↔ v < n ∧ subMod n v view ≤ subMod n index view := by
  simp [onPath]

/-- The consumer's view of W may move on towards W (20_memory.md R39). -/
theorem Ring.good_viewW {n v : Nat} {q : Ring} (h : q.good n) (hpath : onPath n q.wv q.w v = true) :
    ({ q with wv := v } : Ring).good n := by
  obtain ⟨hv, hle⟩ := onPath_iff.1 hpath
  obtain ⟨hmem, hw, hr, hwv, hrv, hwg, hrg, havail, hroom, hheld⟩ := h
  unfold Ring.avail Ring.count at havail
  have hlt := subMod_lt (show 0 < n by omega) q.w q.r
  have hunseen := subMod_sub hw hwv hr havail
  have hseen := subMod_trans hv hwv hr (by omega)
  exact ⟨hmem, hw, hr, hv, hrv, hwg, hrg, show subMod n v q.r ≤ subMod n q.w q.r by omega, hroom, hheld⟩

/-- When the producer's view of R moves on towards R, the producer counts fewer bytes as not yet given up. -/
theorem subMod_view_le {n v view index : Nat} (hview : view < n) (hindex : index < n) (hpath : onPath n view index v = true) :
    subMod n index v ≤ subMod n index view := by
  obtain ⟨hv, hle⟩ := onPath_iff.1 hpath
  have := subMod_sub hindex hv hview hle
  omega

/-- The producer's view of R may move on towards R (20_memory.md R39). -/
theorem Ring.good_viewR {n v : Nat} {q : Ring} (h : q.good n) (hpath : onPath n q.rv q.r v = true) :
    ({ q with rv := v } : Ring).good n := by
  obtain ⟨hmem, hw, hr, hwv, hrv, hwg, hrg, havail, hroom, hheld⟩ := h
  have hle := subMod_view_le hrv hr hpath
  exact ⟨hmem, hw, hr, hwv, (onPath_iff.1 hpath).1, hwg, hrg, havail, (Nat.add_le_add_right hle _).trans hroom, hheld⟩

/-- A view of R that moves on never takes room from the producer. -/
theorem Ring.free_le_viewR {n v : Nat} {q : Ring} (h : q.good n) (hpath : onPath n q.rv q.r v = true) :
    q.free n ≤ ({ q with rv := v } : Ring).free n := by
  rw [Ring.free_of_good h, Ring.free_of_good (Ring.good_viewR h hpath)]
  obtain ⟨-, -, hr, -, hrv, -⟩ := h
  exact Nat.sub_le_sub_left (Nat.add_le_add_right (subMod_view_le hrv hr hpath) _) _

/-- A push takes one byte of the room. -/
theorem Ring.free_push {n : Nat} {q : Ring} (h : q.good n) (hfree : 0 < q.free n) (b : Byte) :
    (q.push n b).free n = q.free n - 1 := by
  rw [Ring.free_of_good (Ring.good_push h hfree b)]
  rw [Ring.free_of_good h] at hfree ⊢
  obtain ⟨-, hw, hr, -⟩ := h
  rw [Ring.count_push n q b hw hr (by omega), Ring.push_r, Ring.push_rv]
  omega

/-! ### Encoder -/

section Encoder

variable {size : Nat} {e e' : Enc}

theorem Enc.good_reset : Enc.reset.good size := ⟨Memory.good_nil size, by simp [Enc.reset]⟩

theorem Enc.accepts_iff : e.accepts = true ↔ e.phase = .opened ∧ e.ovf = false := by simp [Enc.accepts]

/-- ENC_OVF may be set at any time. -/
theorem Enc.good_overflow (h : e.good size) : ({ e with ovf := true } : Enc).good size := by
  obtain ⟨hbuf, hlen, hcode, -, hcp, hopened⟩ := h
  exact ⟨hbuf, hlen, hcode, fun _ => rfl, hcp, hopened⟩

/-- The invariant of an overflowed encoder says the same of one without overflow, but that ENC_CODE is not 255. -/
theorem Enc.good_of_overflow (h : ({ e with ovf := true } : Enc).good size) (hcode : e.code ≠ 0xFF#8) : e.good size := by
  obtain ⟨hbuf, hlen, hzero, -, hcp, hopened⟩ := h
  exact ⟨hbuf, hlen, hzero, fun hfull => absurd hfull hcode, hcp, hopened⟩

theorem Enc.good_write {c : Byte} (h : e.good size) (hcp : e.cp.toNat < size) :
    ({ e with buf := e.buf.write e.cp.toNat c } : Enc).good size := by
  obtain ⟨hbuf, hrest⟩ := h
  exact ⟨Memory.good_write hbuf hcp c, hrest⟩

theorem Enc.good_closed (h : e.good size) (hphase : e.phase ≠ .idle) : ({ e with phase := .closed } : Enc).good size := by
  obtain ⟨hbuf, hlen, hcode, hfull, hcp, -⟩ := h
  exact ⟨hbuf, hlen, hcode, hfull, fun _ => hcp hphase, nofun⟩

/-- ENC_BEGIN writes ENCBUF[0] and ENCBUF[1], so ENCBUF has two bytes. -/
theorem Enc.two_le_of_start (hstart : e.start size = .ok e') : 2 ≤ size := by
  simp only [Enc.start, bind, Except.bind] at hstart
  split at hstart
  · exact absurd hstart nofun
  · split at hstart
    · exact absurd hstart nofun
    · next hsecond => exact (writeByte_ok.1 hsecond).1

theorem Enc.start_good (h : e.good size) (hstart : e.start size = .ok e') : e'.good size := by
  have hsize := Enc.two_le_of_start hstart
  rw [Enc.start_eq e hsize, Except.ok.injEq] at hstart
  subst hstart
  have hfirst := Memory.good_append (Memory.good_empty h.1) (by omega : 0 < size) 0
  exact ⟨Memory.good_append hfirst (by omega) 0, hsize, by simp, by simp, by simp, by simp⟩

/-- A new block's code slot is the byte behind the frame so far. ENC_CODE may be 255 before it: the block was full. -/
theorem Enc.openBlock_good (hsize : size ≤ 65535) (h : ({ e with ovf := true } : Enc).good size) (hphase : e.phase = .opened) :
    (e.openBlock size).good size := by
  rw [Enc.openBlock_eq]
  split
  · exact h
  · next hfull =>
    obtain ⟨hbuf, hlen, -, -, hcp, -⟩ := h
    have hroom : e.len.toNat < size := by omega
    have hsucc := half_toNat_succ hroom hsize
    have hslot : (BitVec.ofNat 16 e.len.toNat).toNat = e.len.toNat := by simp
    obtain ⟨hpos, hbelow⟩ := hcp (by simp [hphase])
    refine ⟨hsucc ▸ Memory.good_append hbuf hroom 0, ?_, by simp, by simp, fun _ => ?_, fun _ => ?_⟩
    · simp only [hsucc]; omega
    · simp only [hsucc, hslot] at hpos hbelow ⊢; omega
    · simp only [hsucc, hslot]; rfl

/-- A data byte behind the frame so far. The block it fills gets ENC_CODE = 255, which only an overflowed encoder may keep. -/
theorem Enc.good_store (hsize : size ≤ 65535) (h : e.good size) (haccepts : e.accepts = true) (hroom : e.len.toNat < size)
    (b : Byte) :
    ({ e with buf := e.buf.write e.len.toNat b, len := e.len + 1, code := e.code + 1, ovf := true } : Enc).good size := by
  obtain ⟨hbuf, hlen, hcode, hfull, hcp, hopened⟩ := h
  obtain ⟨hphase, hovf⟩ := Enc.accepts_iff.1 haccepts
  have hsucc := half_toNat_succ hroom hsize
  have hbelow : e.code.toNat < 255 := by
    have hne : e.code ≠ 0xFF#8 := fun hff => by simp [hovf] at hfull; exact hfull hff
    bv_omega
  have hcodeSucc : (e.code + 1).toNat = e.code.toNat + 1 := by bv_omega
  refine ⟨hsucc ▸ Memory.good_append hbuf hroom b, ?_, ?_, fun _ => rfl, fun hp => ?_, fun hp => ?_⟩
  · simp only [hsucc]; omega
  · show e.code + 1 ≠ 0
    bv_omega
  · obtain ⟨hpos, hlt⟩ := hcp hp
    simp only [hsucc]; omega
  · simp only [hsucc, hcodeSucc, hopened hp]; omega

/-- A block gets its code byte and the next one is opened, after a zero byte or when the block is full. -/
theorem Enc.nextBlock_good {c : Byte} (hsize : size ≤ 65535) (h : ({ e with ovf := true } : Enc).good size)
    (hphase : e.phase = .opened) (hnext : (e.writeCode size c).map (Enc.openBlock size) = .ok e') : e'.good size := by
  rcases hcode : e.writeCode size c with f | e1 <;> simp only [hcode, Except.map, Except.ok.injEq, reduceCtorEq] at hnext
  obtain ⟨hcp, rfl⟩ := Enc.writeCode_ok.1 hcode
  exact hnext ▸ Enc.openBlock_good hsize (Enc.good_write h hcp) hphase

theorem Enc.put_good {b : Byte} (hsize : size ≤ 65535) (h : e.good size) (hput : e.put size b = .ok e') : e'.good size := by
  rcases Bool.eq_false_or_eq_true e.accepts with haccepts | hignored
  · have hphase := (Enc.accepts_iff.1 haccepts).1
    by_cases hb : b = 0
    · subst hb
      rw [Enc.put_zero haccepts] at hput
      exact Enc.nextBlock_good hsize (Enc.good_overflow h) hphase hput
    · rw [Enc.put_data haccepts hb] at hput
      split at hput
      · rw [Except.ok.injEq] at hput
        exact hput ▸ Enc.good_overflow h
      · next hfull =>
        have hstored := Enc.good_store hsize h haccepts (Nat.lt_of_not_le hfull) b
        dsimp only at hput
        split at hput
        · refine Enc.nextBlock_good hsize ?_ ?_ hput
          · exact hstored
          · exact hphase
        · next hcode =>
          rw [Except.ok.injEq] at hput
          exact hput ▸ Enc.good_of_overflow hstored hcode
  · rw [Enc.put_ignored hignored, Except.ok.injEq] at hput
    exact hput ▸ h

theorem Enc.putAll_good (hsize : size ≤ 65535) (bs : List Byte) (h : e.good size) (hput : Enc.putAll size e bs = .ok e') :
    e'.good size := by
  induction bs generalizing e with
  | nil => rw [Enc.putAll, Except.ok.injEq] at hput; exact hput ▸ h
  | cons b t ih =>
    rcases hfirst : e.put size b with f | e1 <;> simp only [Enc.putAll, hfirst, bind, Except.bind, reduceCtorEq] at hput
    exact ih (Enc.put_good hsize h hfirst) hput

/-- The delimiter that closes a frame stands behind it. -/
theorem Enc.delimit_closed_good (hsize : size ≤ 65535) (h : e.good size) (hphase : e.phase ≠ .idle) :
    ({ e.delimit size with phase := .closed } : Enc).good size := by
  rw [Enc.delimit_eq]
  split
  · exact Enc.good_closed (Enc.good_overflow h) hphase
  · next hfull =>
    obtain ⟨hbuf, hlen, hcode, hff, hcp, -⟩ := h
    have hroom : e.len.toNat < size := by omega
    have hsucc := half_toNat_succ hroom hsize
    obtain ⟨hpos, hbelow⟩ := hcp hphase
    refine ⟨hsucc ▸ Memory.good_append hbuf hroom 0, ?_, hcode, hff, fun _ => ?_, nofun⟩ <;> simp only [hsucc] <;> omega

theorem Enc.close_good (hsize : size ≤ 65535) (h : e.good size) (hclose : e.close size = .ok e') : e'.good size := by
  unfold Enc.close at hclose
  split at hclose
  · next hphase =>
    have hbegun : e.phase ≠ .idle := by simp [hphase]
    split at hclose
    · rw [Except.ok.injEq] at hclose
      exact hclose ▸ Enc.good_closed h hbegun
    · rcases hcode : e.writeCode size e.code with f | e1 <;>
        simp only [hcode, bind, Except.bind, Except.ok.injEq, reduceCtorEq] at hclose
      obtain ⟨hcp, rfl⟩ := Enc.writeCode_ok.1 hcode
      exact hclose ▸ Enc.delimit_closed_good hsize (Enc.good_write h hcp) hbegun
  · rw [Except.ok.injEq] at hclose
    exact hclose ▸ h

theorem buildFrame_good {t : Byte} {payload : List Byte} (hsize : size ≤ 65535) (h : e.good size)
    (hbuild : buildFrame size t payload e = .ok e') : e'.good size := by
  rcases hstart : e.start size with f | e1 <;>
    simp only [buildFrame, hstart, bind, Except.bind, reduceCtorEq] at hbuild
  rcases hput : e1.putAll size (packet t payload) with f | e2 <;> simp only [hput, reduceCtorEq] at hbuild
  exact Enc.close_good hsize (Enc.putAll_good hsize _ (Enc.start_good h hstart) hput) hbuild

end Encoder

/-! ### Decoder -/

section Decoder

variable {size : Nat} {d : Dec}

theorem Dec.good_reset : Dec.reset.good size := ⟨Memory.good_nil size, by simp [Dec.reset]⟩

theorem Dec.start_good (h : d.good size) : d.start.good size :=
  ⟨Memory.good_empty h.1, Nat.zero_le _, Nat.zero_le _, fun _ => rfl⟩

@[simp] theorem Dec.emitByte_have (v : Byte) : (d.emitByte size v).have_ = d.have_ := by unfold Dec.emitByte; split <;> rfl

@[simp] theorem Dec.emitByte_rem (v : Byte) : (d.emitByte size v).rem = d.rem := by unfold Dec.emitByte; split <;> rfl

theorem Dec.emitByte_good (hsize : size ≤ 65535) (h : d.good size) (v : Byte) : (d.emitByte size v).good size := by
  obtain ⟨hbuf, hlen, hrem, hhave⟩ := h
  unfold Dec.emitByte
  split
  · exact ⟨hbuf, hlen, hrem, hhave⟩
  · next hfull =>
    have hroom : d.len.toNat < size := by omega
    have hsucc := half_toNat_succ hroom hsize
    exact ⟨hsucc ▸ Memory.good_append hbuf hroom v, by simp only [hsucc]; omega, hrem, hhave⟩

/-- A code byte other than 0 begins a block of at most 254 bytes. -/
theorem Dec.beginBlock_good (h : d.good size) {x : Byte} (hx : x ≠ 0) :
    (if d.st = .more then { d with code := x, rem := x - 1, have_ := true } else d : Dec).good size := by
  split
  · obtain ⟨hbuf, hlen, -, -⟩ := h
    have hrem : (x - 1).toNat ≤ 254 := by bv_omega
    exact ⟨hbuf, hlen, hrem, nofun⟩
  · exact h

theorem Dec.putCode_good (hsize : size ≤ 65535) (h : d.good size) {x : Byte} (hx : x ≠ 0) : (d.putCode size x).good size := by
  refine Dec.beginBlock_good ?_ hx
  split
  · exact Dec.emitByte_good hsize h 0
  · exact h

theorem Dec.putData_good (hsize : size ≤ 65535) (h : d.good size) (hhave : d.have_ = true) (hrem : d.rem ≠ 0) (x : Byte) :
    (d.putData size x).good size := by
  have hemit := Dec.emitByte_good hsize h x
  unfold Dec.putData
  dsimp only
  split
  · obtain ⟨hbuf, hlen, hle, -⟩ := hemit
    refine ⟨hbuf, hlen, ?_, by simp [hhave]⟩
    simp only [Dec.emitByte_rem] at hle ⊢
    bv_omega
  · exact hemit

theorem Dec.put_good (hsize : size ≤ 65535) (h : d.good size) (x : Byte) : (d.put size x).good size := by
  unfold Dec.put
  split
  · split
    · exact h
    · next hx =>
      split
      · exact Dec.putCode_good hsize h hx
      · next hdata =>
        simp only [not_or, Bool.not_eq_false] at hdata
        exact Dec.putData_good hsize h hdata.1 hdata.2 x
  · exact h

end Decoder

/-! ### Payload buffer -/

theorem Pay.clear_good {size : Nat} {p : Pay} (h : p.good size) : ({ p with len := 0 } : Pay).good size :=
  ⟨Memory.good_empty h.1, Nat.zero_le _⟩

theorem Pay.append_good {size : Nat} {p : Pay} (hsize : size ≤ 65535) (h : p.good size) (hroom : p.len.toNat < size)
    (b : Byte) : (p.append b).good size := by
  have hsucc := half_toNat_succ hroom hsize
  exact ⟨hsucc ▸ Memory.good_append h.1 hroom b, by simp only [Pay.append, hsucc]; omega⟩

end Sys2Proof.Machine

/-! The statements of 10_state.md, second part: what `exec` and `step` can do, said once, and what follows from it for the clock
(R15), STATUS.ILL (R25) and a halted machine (R26). -/

namespace Sys2Proof.Machine

/-! ### What an instruction can do -/

/-- An operation that reads first and then answers. -/
theorem outcomeOf_bind_next {α : Type} {x : Except Fault α} {f : α → State} {t : State}
    (h : outcomeOf (x >>= fun a => .ok (f a)) = .next t) : ∃ a, x = .ok a ∧ t = f a := by
  rcases x with r | a
  · exact absurd h nofun
  · exact ⟨a, rfl, (Host.Outcome.next.inj h).symm⟩

/-- What a single command makes of the encoder: ENC_BEGIN, ENC_PUT or ENC_END (42_cobs.md R90 to R92). -/
inductive EncCommand (size : Nat) (e e' : Enc) : Prop
  | start (h : e.start size = .ok e')
  | put (b : Byte) (h : e.put size b = .ok e')
  | close (h : e.close size = .ok e')

/-- What a single command makes of the decoder: DEC_BEGIN or DEC_PUT (42_cobs.md R95, R96). -/
inductive DecCommand (size : Nat) (d : Dec) : Dec → Prop
  | start : DecCommand size d d.start
  | put (x : Byte) : DecCommand size d (d.put size x)

/-- What a single command makes of the payload buffer: PAY_CLR or PAY_PUT (43_protocol.md R99, R100). -/
inductive PayCommand (size : Nat) (p : Pay) : Pay → Prop
  | clear : PayCommand size p { p with len := 0 }
  | append (b : Byte) (hroom : p.len.toNat < size) : PayCommand size p (p.append b)

/-- The positions at which TX_COMMIT, PROTO_POLL and SENS_STEP begin. -/
def Seq.isStart (p : Seq) : Prop := p = .room .txCommit ∨ p = .drain 0 0 ∨ p = .sample

/-- Everything that an instruction can do to the state `s`: `exec_effect` says that there is nothing else. -/
inductive ExecEffect (s : State) : State → Prop
  /-- A command that only answers. -/
  | answer (res : Word) (ok : Bool) : ExecEffect s (s.respond res ok)
  | illegal : ExecEffect s (illegalOutcome s)
  | crc32 (v res : Word) : ExecEffect s ({ s with crc32 := v }.respond res true)
  | crc8 (v : Byte) (res : Word) : ExecEffect s ({ s with crc8 := v }.respond res true)
  | rxPop (res : Word) (h : 0 < s.rx.avail s.cfg.nRx) :
      ExecEffect s ({ s with rx := s.rx.advance s.cfg.nRx }.respond res true)
  | txPush (b : Byte) (h : 0 < s.tx.free s.cfg.nTx) :
      ExecEffect s ({ s with tx := s.tx.push s.cfg.nTx b }.respond 1 true)
  | enc (e : Enc) (res : Word) (ok : Bool) (h : EncCommand s.cfg.txbufSize s.enc e) :
      ExecEffect s ({ s with enc := e }.respond res ok)
  | dec (d : Dec) (res : Word) (ok : Bool) (h : DecCommand s.cfg.rxbufSize s.dec d) :
      ExecEffect s ({ s with dec := d }.respond res ok)
  | pay (p : Pay) (res : Word) (h : PayCommand s.cfg.payMax s.pay p) : ExecEffect s ({ s with pay := p }.respond res true)
  /-- TX_COMMIT, PROTO_POLL or SENS_STEP begins. -/
  | launch (p : Seq) (t : State) (hp : p.isStart) (h : launch p s = .next t) : ExecEffect s t
  /-- PROTO_SEND has built its frame, or rejected the send, in `u`. -/
  | send (ty : Byte) (src : Except Fault (List Byte)) (u t : State)
      (hsend : sendFrame (.protoSend ty) ty s.pay.len.toNat src s = .ok u) (h : Machine.launch u.seq u = .next t) :
      ExecEffect s t
  | lrxPush (b : Byte) (t : State) (h : execLrxPush b s = .next t) : ExecEffect s t
  | ltxPop (t : State) (h : execLtxPop s = .next t) : ExecEffect s t

/-- A read of one byte changes nothing but the answer. -/
theorem readAnswer_effect {x : Except Fault Byte} {s t : State}
    (h : outcomeOf (x >>= fun b => .ok (s.respond (zext8 b) true)) = .next t) : ExecEffect s t := by
  obtain ⟨b, -, rfl⟩ := outcomeOf_bind_next h
  exact .answer _ true

/-- A command that is turned down only answers OK = 0. -/
theorem refusedAnswer_effect {res : Word} {s t : State}
    (h : (.next (s.respond res false) : Host.Outcome State Fault Refusal) = .next t) : ExecEffect s t :=
  Host.Outcome.next.inj h ▸ .answer res false

theorem exec_effect {i : Instr} {s t : State} (h : exec i s = .next t) : ExecEffect s t := by
  cases i with
  | nop | rxAvail | txFree | crc32Rd | crc8Rd => exact Host.Outcome.next.inj h ▸ .answer _ true
  | illegal op => exact Host.Outcome.next.inj h ▸ .illegal
  | csrRd n =>
    simp only [exec, execCsrRd] at h
    split at h
    · exact Host.Outcome.next.inj h ▸ .answer _ true
    · exact Host.Outcome.next.inj h ▸ .illegal
  | rxPeek k =>
    simp only [exec, execRxPeek] at h
    split at h
    · exact readAnswer_effect h
    · exact refusedAnswer_effect h
  | rxPop =>
    simp only [exec, execRxPop] at h
    split at h
    · next havailable =>
      obtain ⟨b, -, rfl⟩ := outcomeOf_bind_next h
      exact .rxPop _ havailable
    · exact refusedAnswer_effect h
  | txPush b =>
    simp only [exec, execTxPush] at h
    split at h
    · next hfree => exact Host.Outcome.next.inj h ▸ .txPush b hfree
    · exact refusedAnswer_effect h
  | crc32Seed v => exact Host.Outcome.next.inj h ▸ .crc32 _ _
  | crc32Put b => exact Host.Outcome.next.inj h ▸ .crc32 _ _
  | crc8Init => exact Host.Outcome.next.inj h ▸ .crc8 _ _
  | crc8Put b => exact Host.Outcome.next.inj h ▸ .crc8 _ _
  | encBegin =>
    obtain ⟨e, he, rfl⟩ := outcomeOf_bind_next h
    exact .enc e _ _ (.start he)
  | encPut b =>
    simp only [exec, execEncPut] at h
    split at h
    · obtain ⟨e, he, rfl⟩ := outcomeOf_bind_next h
      exact .enc e _ _ (.put b he)
    · exact refusedAnswer_effect h
  | encEnd =>
    simp only [exec, execEncEnd] at h
    split at h
    · obtain ⟨e, he, rfl⟩ := outcomeOf_bind_next h
      exact .enc e _ _ (.close he)
    · exact refusedAnswer_effect h
  | encRd k =>
    simp only [exec, execEncRd] at h
    split at h
    · exact readAnswer_effect h
    · exact refusedAnswer_effect h
  | decBegin => exact Host.Outcome.next.inj h ▸ .dec _ _ _ .start
  | decPut x =>
    simp only [exec, execDecPut] at h
    split at h
    · exact Host.Outcome.next.inj h ▸ .dec _ _ _ (.put x)
    · exact refusedAnswer_effect h
  | decRd k =>
    simp only [exec, execDecRd] at h
    split at h
    · exact readAnswer_effect h
    · exact refusedAnswer_effect h
  | payClr => exact Host.Outcome.next.inj h ▸ .pay _ _ .clear
  | payPut b =>
    simp only [exec, execPayPut] at h
    split at h
    · next hroom => exact Host.Outcome.next.inj h ▸ .pay _ _ (.append b hroom)
    · exact refusedAnswer_effect h
  | protoSend ty =>
    simp only [exec, execProtoSend] at h
    split at h
    · next u hsend => exact .send ty _ u t hsend h
    · exact absurd h nofun
  | txCommit => exact .launch _ t (.inl rfl) h
  | protoPoll => exact .launch _ t (.inr (.inl rfl)) h
  | sensStep => exact .launch _ t (.inr (.inr rfl)) h
  | lrxPush b => exact .lrxPush b t h
  | ltxPop => exact .ltxPop t h

/-- LRX_PUSH stores the byte, or refuses it (40_ring_fifo.md R68). -/
theorem execLrxPush_cases {b : Byte} {s t : State} (h : execLrxPush b s = .next t) :
    (0 < s.rx.free s.cfg.nRx ∧ t = { s with rx := s.rx.push s.cfg.nRx b, rxAccept := true }) ∨
      t = { s with rxAccept := false } := by
  unfold execLrxPush at h
  split at h
  · next hfree => exact .inl ⟨hfree, (Host.Outcome.next.inj h).symm⟩
  · exact .inr (Host.Outcome.next.inj h).symm

/-- LTX_POP gives the byte at the head of TX, or none (40_ring_fifo.md R69). -/
theorem execLtxPop_cases {s t : State} (h : execLtxPop s = .next t) :
    (0 < s.tx.avail s.cfg.nTx ∧ ∃ b, t = { s with tx := s.tx.advance s.cfg.nTx, txValid := true, txData := b }) ∨
      t = { s with txValid := false } := by
  unfold execLtxPop at h
  split at h
  · next havailable =>
    obtain ⟨b, -, rfl⟩ := outcomeOf_bind_next h
    exact .inl ⟨havailable, b, rfl⟩
  · exact .inr (Host.Outcome.next.inj h).symm

/-! ### What a step can do -/

/-- Everything that a step of `s` can be: the turn of one agent. `step_turn` says that there is nothing else. -/
inductive Turn (s : State) : State → Prop
  /-- CMD goes on with the command in progress. -/
  | goOn (t : State) (hcmd : cmdTurn s) (hrun : s.seq.running = true) (h : resume s = .next t) : Turn s t
  /-- CMD's turn in which it accepts nothing. -/
  | rest (hcmd : cmdTurn s) (hrun : s.seq.running = false) : Turn s { s with sched := s.sched.tail }
  /-- CMD accepts the command on the port. -/
  | accept (c : Cmd) (t : State) (hcmd : cmdTurn s) (hready : s.cmdReady = true)
      (h : exec (decodeCommand c.op c.arg) { s with sched := s.sched.tail }.accept = .next t) : Turn s t
  | lrx (b : Byte) (rest : List Agent) (t : State) (hs : s.sched = .lrx b :: rest)
      (h : execLrxPush b { s with sched := rest } = .next t) : Turn s t
  | ltx (rest : List Agent) (t : State) (hs : s.sched = .ltx :: rest)
      (h : execLtxPop { s with sched := rest } = .next t) : Turn s t
  | sync (view : View) (v : Nat) (rest : List Agent) (hs : s.sched = .sync view v :: rest) :
      Turn s (syncStep view v { s with sched := rest })
  | busAnswer (r : BusAnswer) (rest : List Agent) (hs : s.sched = .busAnswer r :: rest) :
      Turn s (busAnswerStep r { s with sched := rest })
  | busTakeStop (rest : List Agent) (hs : s.sched = .busTakeStop :: rest) : Turn s (busTakeStopStep { s with sched := rest })
  | clk (d : Nat) (rest : List Agent) (hs : s.sched = .clk d :: rest) : Turn s (clkStep d { s with sched := rest })
  | rst (rest : List Agent) (hs : s.sched = .rst :: rest) : Turn s (resetEvent { s with sched := rest })

/-- CMD's turn: it goes on, accepts the command presented, or does nothing. -/
theorem cmd_turn {s t : State} (hcmd : cmdTurn s)
    (h : (if s.seq.running then resume s else acceptTurn { s with sched := s.sched.tail }) = .next t) : Turn s t := by
  by_cases hrun : s.seq.running = true
  · rw [if_pos hrun] at h
    exact .goOn t hcmd hrun h
  rw [if_neg hrun] at h
  have hidle : Turn s { s with sched := s.sched.tail } := .rest hcmd (Bool.not_eq_true _ ▸ hrun)
  unfold acceptTurn at h
  split at h
  · exact Host.Outcome.next.inj h ▸ hidle
  · next c _ _ =>
    split at h
    · next hready => exact .accept c t hcmd hready h
    · exact Host.Outcome.next.inj h ▸ hidle

theorem step_turn {s t : State} (h : step s = .next t) : Turn s t := by
  unfold step at h
  split at h
  · rcases hs : s.sched with _ | ⟨a, rest⟩
    · refine cmd_turn (.inl (by simp [hs])) ?_
      have hnone : s.sched.tail = s.sched := by simp [hs]
      have hsame : { s with sched := s.sched.tail } = s := congrArg (fun l => { s with sched := l }) hnone
      rw [hsame]
      simpa [agentTurn, hs] using h
    · simp only [agentTurn, hs] at h
      cases a with
      | cmd => exact cmd_turn (.inr (by simp [hs])) (by simpa [hs] using h)
      | lrx b => exact .lrx b rest t hs h
      | ltx => exact .ltx rest t hs h
      | sync view v => exact Host.Outcome.next.inj h ▸ .sync view v rest hs
      | busAnswer r => exact Host.Outcome.next.inj h ▸ .busAnswer r rest hs
      | busTakeStop => exact Host.Outcome.next.inj h ▸ .busTakeStop rest hs
      | clk d => exact Host.Outcome.next.inj h ▸ .clk d rest hs
      | rst => exact Host.Outcome.next.inj h ▸ .rst rest hs
  · exact absurd h nofun

/-- On CMD's turn no other agent heads the schedule. -/
theorem cmdTurn_sched_ne {s : State} (h : cmdTurn s) {a : Agent} {rest : List Agent} (ha : a ≠ .cmd) :
    s.sched ≠ a :: rest := by
  intro hs
  exact ha (by simpa [cmdTurn, hs] using h)

/-- A synchroniser step changes nothing but its view. -/
theorem syncStep_cases (view : View) (v : Nat) (s : State) :
    syncStep view v s = s ∨
    (onPath s.cfg.nRx s.rx.wv s.rx.w v = true ∧ syncStep view v s = { s with rx := { s.rx with wv := v } }) ∨
    (onPath s.cfg.nRx s.rx.rv s.rx.r v = true ∧ syncStep view v s = { s with rx := { s.rx with rv := v } }) ∨
    (onPath s.cfg.nTx s.tx.wv s.tx.w v = true ∧ syncStep view v s = { s with tx := { s.tx with wv := v } }) ∨
    (onPath s.cfg.nTx s.tx.rv s.tx.r v = true ∧ syncStep view v s = { s with tx := { s.tx with rv := v } }) := by
  cases view <;> simp only [syncStep] <;> split <;> simp [*]

/-- A BUS step that answers does so because it may, and writes BUS_RSP alone. -/
theorem busAnswerStep_cases (r : BusAnswer) (s : State) :
    busAnswerStep r s = s ∨
    (busMayAnswer r s = true ∧ busAnswerStep r s = { s with bus := { s.bus with rsp := some r } }) := by
  unfold busAnswerStep
  split
  · next hmay => exact .inr ⟨hmay, rfl⟩
  · exact .inl rfl

/-! ### The clock and STATUS.ILL -/

/-- Of `s` and what follows it: the clock stands, and STATUS.ILL is not cleared. -/
def ClockAndIllKept (s t : State) : Prop := t.clock = s.clock ∧ (s.ill = true → t.ill = true)

theorem ClockAndIllKept.of_eq {s t : State} (hclock : t.clock = s.clock) (hill : t.ill = s.ill) : ClockAndIllKept s t :=
  ⟨hclock, fun h => hill.trans h⟩

theorem microStep_clockAndIll {s₀ s s' : State} (hs : ClockAndIllKept s₀ s) (h : microStep s = .ok s') :
    ClockAndIllKept s₀ s' := by
  obtain ⟨-, hclock, -, -, -, -, -, -, -, -, -, -, -, -, -, hill, -, -⟩ := microStep_outside h
  exact ⟨hclock.trans hs.1, fun h₀ => hill.trans (hs.2 h₀)⟩

theorem resume_clockAndIll {s t : State} (h : resume s = .next t) : ClockAndIllKept s t :=
  runMicro_keeps (P := ClockAndIllKept s) (fun _ _ hu => hu) (fun _ _ => microStep_clockAndIll) _ (.of_eq rfl rfl) h

theorem launch_clockAndIll {p : Seq} {s t : State} (h : launch p s = .next t) : ClockAndIllKept s t :=
  launch_keeps (P := ClockAndIllKept s) (p := p) (fun _ _ hu => hu) (fun _ _ => microStep_clockAndIll) (.of_eq rfl rfl) h

theorem execLrxPush_clockAndIll {b : Byte} {s t : State} (h : execLrxPush b s = .next t) : ClockAndIllKept s t := by
  rcases execLrxPush_cases h with ⟨-, rfl⟩ | rfl <;> exact .of_eq rfl rfl

theorem execLtxPop_clockAndIll {s t : State} (h : execLtxPop s = .next t) : ClockAndIllKept s t := by
  rcases execLtxPop_cases h with ⟨-, b, rfl⟩ | rfl <;> exact .of_eq rfl rfl

/-- No instruction writes the clock or clears STATUS.ILL. -/
theorem exec_clockAndIll {i : Instr} {s t : State} (h : exec i s = .next t) : ClockAndIllKept s t := by
  cases exec_effect h with
  | answer | crc32 | crc8 | rxPop | txPush | enc | dec | pay => exact .of_eq rfl rfl
  | illegal => exact ⟨rfl, fun _ => rfl⟩
  | launch p t hp hlaunch => exact launch_clockAndIll hlaunch
  | send ty src u t hsend hlaunch =>
    obtain ⟨-, hclock, -, -, -, -, -, -, -, -, -, -, -, -, -, hill, -, -⟩ := sendFrame_outside hsend
    obtain ⟨hclock', hill'⟩ := launch_clockAndIll hlaunch
    exact ⟨hclock'.trans hclock, fun h₀ => hill' (hill.trans h₀)⟩
  | lrxPush b t hpush => exact execLrxPush_clockAndIll hpush
  | ltxPop t hpop => exact execLtxPop_clockAndIll hpop

theorem syncStep_clockAndIll (view : View) (v : Nat) (s : State) : ClockAndIllKept s (syncStep view v s) := by
  rcases syncStep_cases view v s with e | ⟨-, e⟩ | ⟨-, e⟩ | ⟨-, e⟩ | ⟨-, e⟩ <;> rw [e] <;> exact .of_eq rfl rfl

theorem busAnswerStep_clockAndIll (r : BusAnswer) (s : State) : ClockAndIllKept s (busAnswerStep r s) := by
  rcases busAnswerStep_cases r s with e | ⟨-, e⟩ <;> rw [e] <;> exact .of_eq rfl rfl

/-- Every step but CLK's and the reset keeps the clock and STATUS.ILL = 1. -/
theorem step_clockAndIll {s t : State} (h : step s = .next t) :
    (∃ d rest, s.sched = .clk d :: rest ∧ t = clkStep d { s with sched := rest }) ∨
    (∃ rest, s.sched = .rst :: rest ∧ t = resetEvent { s with sched := rest }) ∨
    ((∀ d rest, s.sched ≠ .clk d :: rest) ∧ ClockAndIllKept s t) := by
  cases step_turn h with
  | goOn t hcmd hrun hres => exact .inr (.inr ⟨fun d rest => cmdTurn_sched_ne hcmd nofun, resume_clockAndIll hres⟩)
  | rest hcmd hrun => exact .inr (.inr ⟨fun d rest => cmdTurn_sched_ne hcmd nofun, .of_eq rfl rfl⟩)
  | accept c t hcmd hready hexec =>
    exact .inr (.inr ⟨fun d rest => cmdTurn_sched_ne hcmd nofun, (exec_clockAndIll hexec :)⟩)
  | lrx b rest t hs hpush => exact .inr (.inr ⟨by simp [hs], (execLrxPush_clockAndIll hpush :)⟩)
  | ltx rest t hs hpop => exact .inr (.inr ⟨by simp [hs], (execLtxPop_clockAndIll hpop :)⟩)
  | sync view v rest hs => exact .inr (.inr ⟨by simp [hs], syncStep_clockAndIll view v { s with sched := rest }⟩)
  | busAnswer r rest hs => exact .inr (.inr ⟨by simp [hs], busAnswerStep_clockAndIll r { s with sched := rest }⟩)
  | busTakeStop rest hs => exact .inr (.inr ⟨by simp [hs], .of_eq rfl rfl⟩)
  | clk d rest hs => exact .inl ⟨d, rest, hs, rfl⟩
  | rst rest hs => exact .inr (.inl ⟨rest, hs, rfl⟩)

/-- Settles O7: the block never writes the clock, and a CLK step writes nothing else; a reset keeps it (R15, log 15). -/
theorem onlyClkMovesTheClock : Obligations.OnlyClkMovesTheClock := by
  intro s t h
  rcases step_clockAndIll h with ⟨d, rest, hs, rfl⟩ | ⟨rest, hs, rfl⟩ | ⟨hnot, hclock, -⟩
  · exact .inl ⟨d, rest, hs, rfl⟩
  · exact .inr ⟨by simp [hs], rfl⟩
  · exact .inr ⟨hnot, hclock⟩

/-- Settles O8: no command clears STATUS.ILL, and no other agent writes it (R25, R117). -/
theorem illIsStickyUntilReset : Obligations.IllIsStickyUntilReset := by
  intro s t h hill hrst
  rcases step_clockAndIll h with ⟨d, rest, -, rfl⟩ | ⟨rest, hs, -⟩ | ⟨-, -, hkept⟩
  · exact hill
  · exact absurd hs (hrst rest)
  · exact hkept hill

/-! ### Reset values and the halted machine -/

/-- Settles O2: each register of R30's table, as `State.resetIn` sets it. -/
theorem resetValues : Obligations.ResetValues := by
  intro c
  simp [State.resetIn, Ring.reset, Enc.reset, Dec.reset, Sens.reset, Bus.reset, statusWord]

theorem execLrxPush_core {b : Byte} {s t : State} (h : execLrxPush b s = .next t) : sameCore s t ∧ t.bus = s.bus := by
  rcases execLrxPush_cases h with ⟨-, rfl⟩ | rfl <;> simp [sameCore]

theorem execLtxPop_core {s t : State} (h : execLtxPop s = .next t) : sameCore s t ∧ t.bus = s.bus := by
  rcases execLtxPop_cases h with ⟨-, b, rfl⟩ | rfl <;> simp [sameCore]

theorem syncStep_core (view : View) (v : Nat) (s : State) :
    sameCore s (syncStep view v s) ∧ (syncStep view v s).bus = s.bus := by
  rcases syncStep_cases view v s with e | ⟨-, e⟩ | ⟨-, e⟩ | ⟨-, e⟩ | ⟨-, e⟩ <;> rw [e] <;> simp [sameCore]

theorem busAnswerStep_core (r : BusAnswer) (s : State) :
    sameCore s (busAnswerStep r s) ∧ (busAnswerStep r s).bus.pend = s.bus.pend := by
  rcases busAnswerStep_cases r s with e | ⟨-, e⟩ <;> rw [e] <;> simp [sameCore]

/-- Settles O11: CMD neither goes on nor accepts, and every other agent leaves the CORE registers alone (R26, R123, R143). -/
theorem haltedAcceptsNoCommand : Obligations.HaltedAcceptsNoCommand := by
  intro s t hhalted hseq hrst h
  have hready : s.cmdReady = false := by simp [State.cmdReady, hhalted]
  have hstopped : s.seq.running = false := by rcases hseq with e | e <;> rw [e] <;> rfl
  refine ⟨hready, ?_⟩
  cases step_turn h with
  | goOn t hcmd hrun hres => exact absurd hrun (by simp [hstopped])
  | rest hcmd hrun => simp [sameCore]
  | accept c t hcmd haccepts hexec => exact absurd haccepts (by simp [hready])
  | lrx b rest t hs hpush => obtain ⟨hcore, hbus⟩ := execLrxPush_core hpush; exact ⟨hcore, congrArg Bus.pend hbus⟩
  | ltx rest t hs hpop => obtain ⟨hcore, hbus⟩ := execLtxPop_core hpop; exact ⟨hcore, congrArg Bus.pend hbus⟩
  | sync view v rest hs =>
    obtain ⟨hcore, hbus⟩ := syncStep_core view v { s with sched := rest }
    exact ⟨hcore, congrArg Bus.pend hbus⟩
  | busAnswer r rest hs => exact busAnswerStep_core r { s with sched := rest }
  | busTakeStop rest hs => simp [sameCore, busTakeStopStep]
  | clk d rest hs => simp [sameCore, clkStep]
  | rst rest hs => exact absurd hs (hrst rest)

end Sys2Proof.Machine

/-! The statements of 10_state.md, third part: every step of every agent keeps the invariant. Between the commands, and at most
positions inside one, the sequencer ties no unit to another: such a state is quiet, and CMD's next micro-step leads from it to a
quiet state again, into TX_COMMIT's loop, into a wait on the bus, or to the halt. -/

namespace Sys2Proof.Machine

/-! ### Quiet states -/

/-- The units are within their bounds, CMD has not stopped, and no phase is on the bus. -/
structure State.Quiet (s : State) : Prop where
  cfg : s.cfg.valid = true
  rx : s.rx.good s.cfg.nRx
  tx : s.tx.good s.cfg.nTx
  enc : s.enc.good s.cfg.txbufSize
  dec : s.dec.good s.cfg.rxbufSize
  pay : s.pay.good s.cfg.payMax
  halted : s.halted = false
  pend : s.bus.pend = none
  rsp : s.bus.rsp = none

/-- The positions of which the invariant asks no more than of an idle sequencer. -/
def Seq.plain : Seq → Bool
  | .commit _ _ _ => false
  | .wait _ _ _ => false
  | .halted => false
  | _ => true

section Quiet

variable {s : State}

theorem State.Quiet.good (h : s.Quiet) (hseq : s.seq.plain = true) : s.Good := by
  obtain ⟨hcfg, hrx, htx, henc, hdec, hpay, hhalted, hpend, hrsp⟩ := h
  refine ⟨hcfg, hrx, htx, henc, hdec, hpay, ?_, ?_⟩
  · cases hs : s.seq <;> simp_all [seqGood, Seq.plain]
  · cases hs : s.seq <;> simp_all [busGood, Seq.plain]

theorem State.Good.halted_eq_false (h : s.Good) (hseq : s.seq ≠ .halted) : s.halted = false := by
  have hg := h.seq
  cases hs : s.seq <;> simp_all [seqGood]

/-- A Good state is quiet, unless CMD has stopped or waits on the bus. -/
theorem State.Good.quiet (h : s.Good) (hhalt : s.seq ≠ .halted) (hwait : ∀ x ph todo, s.seq ≠ .wait x ph todo) :
    s.Quiet := by
  have hbus : s.bus.pend = none ∧ s.bus.rsp = none := by
    have hg := h.bus
    cases hs : s.seq <;> simp_all [busGood]
  exact ⟨h.cfg, h.rx, h.tx, h.enc, h.dec, h.pay, h.halted_eq_false hhalt, hbus.1, hbus.2⟩

theorem State.Quiet.goto (h : s.Quiet) (p : Seq) : (s.goto p).Quiet := { h with }

theorem State.Quiet.emit (h : s.Quiet) (e : Event) : (s.emit e).Quiet := { h with }

theorem State.Quiet.set_sens (h : s.Quiet) (v : Sens) : { s with sens := v }.Quiet := { h with }

theorem State.Quiet.set_crc8 (h : s.Quiet) (v : Byte) : { s with crc8 := v }.Quiet := { h with }

theorem State.Quiet.goto_good (h : s.Quiet) {p : Seq} (hp : p.plain = true) : (s.goto p).Good := (h.goto p).good hp

theorem State.Quiet.finish_good (h : s.Quiet) (res : Word) (ok : Bool) : (s.finish res ok).Good :=
  State.Quiet.good (s := s.finish res ok) { h with } rfl

theorem State.Quiet.haltReset_good (h : s.Quiet) : (haltReset s).Good :=
  { h with seq := rfl, bus := by simp [busGood, h.pend, h.rsp] }

/-- TX_COMMIT's loop may run over a closed frame that fits. -/
theorem State.Quiet.good_commit (h : s.Quiet) {after : After} {j len : Nat} (hseq : s.seq = .commit after j len)
    (hclosed : s.enc.phase = .closed) (hlen : len = s.enc.len.toNat) (hj : j ≤ len) (hroom : len - j ≤ s.tx.free s.cfg.nTx) :
    s.Good :=
  { h with
    seq := by simp [seqGood, hseq, hclosed, hlen ▸ hj, hlen, hlen ▸ hroom, h.halted]
    bus := by simp [busGood, hseq, h.pend, h.rsp] }

end Quiet

/-- The byte spaces are smaller than what a 16-bit length counts (00_scope.md R7). -/
theorem sizes_le_of_valid {c : Config} (h : c.valid = true) :
    c.txbufSize ≤ 65535 ∧ c.rxbufSize ≤ 65535 ∧ c.payMax ≤ 65535 := by
  have hsizes := ((config_valid_iff c).1 h).1
  simp only [Config.sizesOk, decide_eq_true_eq] at hsizes
  omega

theorem resetEvent_good {s : State} (h : s.cfg.valid = true) : (resetEvent s).Good :=
  State.Quiet.good (s := resetEvent s)
    { cfg := h
      rx := Ring.good_reset (Nat.two_pow_pos _)
      tx := Ring.good_reset (Nat.two_pow_pos _)
      enc := Enc.good_reset
      dec := Dec.good_reset
      pay := ⟨Memory.good_nil _, Nat.zero_le _⟩
      halted := rfl
      pend := rfl
      rsp := rfl } rfl

/-! ### TX_COMMIT's effects and a send -/

theorem commitDone_good {s : State} (h : s.Quiet) (after : After) (ok : Bool) (len : Word) :
    (commitDone after ok len s).Good := by
  have hquiet : (commitDone after ok len s).Quiet := by cases after <;> exact { h with }
  exact hquiet.good (by simp [Seq.plain])

theorem roomStep_good {s : State} (h : s.Quiet) (after : After) : (roomStep after s).Good := by
  unfold roomStep
  split
  · exact commitDone_good h after false 0
  · next hframe =>
    split
    · exact commitDone_good h after false 0
    · next hroom =>
      simp only [not_or, ne_eq, not_not] at hframe
      exact (h.goto _).good_commit rfl hframe.1 rfl (Nat.zero_le _) (Nat.le_of_not_lt hroom)

/-- One turn of TX_COMMIT's loop takes one byte of the room that the rest of the frame has. -/
theorem commitStep_good {s t : State} (hg : s.Good) {after : After} {j len : Nat} (hs : s.seq = .commit after j len)
    (h : commitStep after j len s = .ok t) : t.Good := by
  have hquiet : s.Quiet := hg.quiet (by simp [hs]) (by simp [hs])
  have hseq := hg.seq
  simp only [seqGood, hs, Bool.and_eq_true, decide_eq_true_eq] at hseq
  obtain ⟨⟨⟨⟨hclosed, hlen⟩, hj⟩, hroom⟩, -⟩ := hseq
  rcases commitStep_ok h with ⟨hlt, b, -, -, rfl⟩ | ⟨-, rfl⟩
  · have hfree : 0 < s.tx.free s.cfg.nTx := by omega
    have hpushed : ({ s with tx := s.tx.push s.cfg.nTx b }.goto (.commit after (j + 1) len)).Quiet :=
      { hquiet with tx := Ring.good_push hg.tx hfree b }
    refine hpushed.good_commit rfl hclosed hlen hlt ?_
    have := Ring.free_push hg.tx hfree b
    simp only [State.goto_tx, State.goto_cfg]
    omega
  · exact commitDone_good hquiet after true _

theorem sendFrame_good {after : After} {ty : Byte} {m : Nat} {src : Except Fault (List Byte)} {s t : State} (hs : s.Quiet)
    (h : sendFrame after ty m src s = .ok t) : t.Good := by
  rcases sendFrame_ok h with ⟨-, rfl⟩ | ⟨-, payload, e, -, hbuild, rfl⟩
  · exact commitDone_good hs after false 0
  · have hbuilt : { s with crc32 := crc32 (packetBody ty payload) crc32Seed, enc := e }.Quiet :=
      { hs with enc := buildFrame_good (sizes_le_of_valid hs.cfg).1 hs.enc hbuild }
    exact hbuilt.goto_good rfl

/-! ### PROTO_POLL -/

theorem drainStep_good {acc : Word} {k : Nat} {s t : State} (hs : s.Quiet) (h : drainStep acc k s = .ok t) : t.Good := by
  rcases drainStep_ok h with ⟨-, rfl⟩ | ⟨hgo, x, -, rfl⟩
  · split
    · exact hs.finish_good acc true
    · exact hs.goto_good rfl
  · have hsees : 0 < s.rx.avail s.cfg.nRx := by omega
    have hdec : (if k = 0 then s.dec.start else s.dec).good s.cfg.rxbufSize := by
      split
      · exact Dec.start_good hs.dec
      · exact hs.dec
    have hpopped : { s with
        rx := s.rx.advance s.cfg.nRx
        dec := (if k = 0 then s.dec.start else s.dec).put s.cfg.rxbufSize x }.Quiet :=
      { hs with
        rx := Ring.good_advance hs.rx hsees
        dec := Dec.put_good (sizes_le_of_valid hs.cfg).2.1 hdec x }
    exact hpopped.goto_good (by split <;> rfl)

theorem discardCandidate_good {s : State} (h : s.Quiet) (code : Discard) (acc : Word) : (discardCandidate code acc s).Good :=
  (h.emit _).goto_good rfl

theorem dispatch_good {s : State} (h : s.Quiet) (ty : Byte) (acc : Word) : (dispatch ty acc s).Good := by
  unfold dispatch
  split
  · exact (h.emit _).haltReset_good
  · split <;> exact (h.emit _).goto_good rfl

theorem checkPacket_good {s : State} (h : s.Quiet) (p : List Byte) (acc : Word) : (checkPacket p acc s).Good := by
  have hcrc : { s with crc32 := crc32 p crc32Seed }.Quiet := { h with }
  unfold checkPacket
  dsimp only
  split
  · exact discardCandidate_good hcrc _ acc
  · split
    · exact discardCandidate_good hcrc _ acc
    · exact dispatch_good hcrc _ _

theorem checkStep_good {acc : Word} {s t : State} (hs : s.Quiet) (h : checkStep acc s = .ok t) : t.Good := by
  rcases checkStep_ok h with ⟨code, rfl⟩ | ⟨p, -, rfl⟩
  · exact discardCandidate_good hs code acc
  · exact checkPacket_good hs p acc

/-! ### SENS_STEP -/

theorem nextPhase_plain (x : Xfer) (todo : List Phase) : (nextPhase x todo).plain = true := by cases todo <;> rfl

theorem afterAnswer_plain (x : Xfer) (ph : Phase) (todo : List Phase) (r : BusAnswer) :
    (afterAnswer x ph todo r).plain = true := by
  unfold afterAnswer
  split
  · exact nextPhase_plain _ todo
  · exact nextPhase_plain x todo
  · exact nextPhase_plain x todo
  · exact nextPhase_plain x todo
  · rfl

theorem sampleStep_good {s : State} (h : s.Quiet) : (sampleStep s).Good := by
  unfold sampleStep
  split
  · exact h.finish_good _ true
  · exact h.goto_good rfl

theorem requestStep_good {s : State} (h : s.Quiet) (x : Xfer) (ph : Phase) (todo : List Phase) :
    (requestStep x ph todo s).Good :=
  { h with
    seq := by simp [seqGood, requestStep, h.halted]
    bus := by simp [busGood, requestStep, h.rsp] }

/-- Once the phase and its answer are off the bus, a state that waited on it is quiet. -/
theorem State.Good.quiet_of_wait {s : State} (h : s.Good) {x : Xfer} {ph : Phase} {todo : List Phase}
    (hs : s.seq = .wait x ph todo) {b : Bus} (hpend : b.pend = none) (hrsp : b.rsp = none) : { s with bus := b }.Quiet :=
  { h with halted := h.halted_eq_false (by simp [hs]), pend := hpend, rsp := hrsp }

theorem waitStep_good {s : State} (hg : s.Good) {x : Xfer} {ph : Phase} {todo : List Phase} (hs : s.seq = .wait x ph todo) :
    (waitStep x ph todo s).Good := by
  rcases waitStep_cases x ph todo s with ⟨r, -, e⟩ | ⟨hrsp, -, e⟩ | ⟨-, -, e⟩ <;> rw [e]
  · exact (hg.quiet_of_wait hs rfl rfl).goto_good (afterAnswer_plain x ph todo r)
  · exact (hg.quiet_of_wait hs (b := { s.bus with pend := none }) rfl hrsp).goto_good rfl
  · exact hg

theorem sensDone_good {s : State} (h : s.Quiet) (now : Word) (fail emit sent : Bool) : (sensDone now fail emit sent s).Good :=
  State.Quiet.good (s := sensDone now fail emit sent s) { h with } rfl

theorem sensFail_good {s : State} (h : s.Quiet) (now : Word) : (sensFail now s).Good :=
  sensDone_good (h.set_sens _) now true false false

theorem xferDone_good {x : Xfer} {ok : Bool} {s t : State} (hs : s.Quiet) (h : xferDone x ok s = .ok t) : t.Good := by
  unfold xferDone at h
  cases hk : x.kind with
  | trigT | trigRh =>
    simp only [hk] at h
    split at h <;> rw [Except.ok.injEq] at h <;> subst h
    · exact sensDone_good (hs.set_sens _) x.now false false false
    · exact sensFail_good hs x.now
  | readT =>
    simp only [hk] at h
    split at h
    · split at h <;> rw [Except.ok.injEq] at h <;> subst h
      · exact (hs.set_crc8 _).goto_good rfl
      · exact sensFail_good (hs.set_crc8 _) x.now
    · rw [Except.ok.injEq] at h
      exact h ▸ sensFail_good hs x.now
  | readRh =>
    simp only [hk] at h
    split at h
    · split at h
      · refine sendFrame_good ?_ h
        exact { hs with }
      · rw [Except.ok.injEq] at h
        exact h ▸ sensFail_good (hs.set_crc8 _) x.now
    · rw [Except.ok.injEq] at h
      exact h ▸ sensFail_good hs x.now

/-! ### CMD -/

theorem microStep_good {s t : State} (hg : s.Good) (h : microStep s = .ok t) : t.Good := by
  have hquiet := hg.quiet
  unfold microStep at h
  cases hs : s.seq with
  | idle | halted => simp only [hs, Except.ok.injEq] at h; exact h ▸ hg
  | room after =>
    simp only [hs, Except.ok.injEq] at h
    exact h ▸ roomStep_good (hquiet (by simp [hs]) (by simp [hs])) after
  | commit after j len => simp only [hs] at h; exact commitStep_good hg hs h
  | drain acc k => simp only [hs] at h; exact drainStep_good (hquiet (by simp [hs]) (by simp [hs])) h
  | check acc => simp only [hs] at h; exact checkStep_good (hquiet (by simp [hs]) (by simp [hs])) h
  | sample =>
    simp only [hs, Except.ok.injEq] at h
    exact h ▸ sampleStep_good (hquiet (by simp [hs]) (by simp [hs]))
  | xferStart x =>
    simp only [hs, Except.ok.injEq] at h
    exact h ▸ (hquiet (by simp [hs]) (by simp [hs])).goto_good (nextPhase_plain _ _)
  | request x ph todo =>
    simp only [hs, Except.ok.injEq] at h
    exact h ▸ requestStep_good (hquiet (by simp [hs]) (by simp [hs])) x ph todo
  | wait x ph todo => simp only [hs, Except.ok.injEq] at h; exact h ▸ waitStep_good hg hs
  | postStop x ok =>
    simp only [hs] at h
    exact xferDone_good (s := { s with bus := { s.bus with stop := true } }) { hquiet (by simp [hs]) (by simp [hs]) with } h

/-- The invariant does not look at the schedule. -/
theorem State.Good.sched {s : State} (h : s.Good) (rest : List Agent) : { s with sched := rest }.Good := { h with }

theorem resume_good {s t : State} (hg : s.Good) (h : resume s = .next t) : t.Good :=
  runMicro_keeps (P := State.Good) (fun _ _ hu => hu.sched _) (fun _ _ => microStep_good) _ hg h

theorem launch_good {p : Seq} {s t : State} (hg : (s.goto p).Good) (h : launch p s = .next t) : t.Good :=
  launch_keeps (P := State.Good) (fun _ _ hu => hu.sched _) (fun _ _ => microStep_good) hg h

theorem Seq.isStart.plain {p : Seq} (h : p.isStart) : p.plain = true := by rcases h with rfl | rfl | rfl <;> rfl

theorem EncCommand.good {size : Nat} {e e' : Enc} (hsize : size ≤ 65535) (he : e.good size) (h : EncCommand size e e') :
    e'.good size := by
  cases h with
  | start h => exact Enc.start_good he h
  | put b h => exact Enc.put_good hsize he h
  | close h => exact Enc.close_good hsize he h

theorem DecCommand.good {size : Nat} {d d' : Dec} (hsize : size ≤ 65535) (hd : d.good size) (h : DecCommand size d d') :
    d'.good size := by
  cases h with
  | start => exact Dec.start_good hd
  | put x => exact Dec.put_good hsize hd x

theorem PayCommand.good {size : Nat} {p p' : Pay} (hsize : size ≤ 65535) (hp : p.good size) (h : PayCommand size p p') :
    p'.good size := by
  cases h with
  | clear => exact Pay.clear_good hp
  | append b hroom => exact Pay.append_good hsize hp hroom b

/-- A byte that LRX stores leaves CORE's side and the sequencer alone, whatever command is in progress. -/
theorem execLrxPush_good {b : Byte} {s t : State} (hg : s.Good) (h : execLrxPush b s = .next t) : t.Good := by
  rcases execLrxPush_cases h with ⟨hfree, rfl⟩ | rfl
  · exact { hg with rx := Ring.good_push hg.rx hfree b }
  · exact { hg with }

/-- A byte that LTX takes leaves the room that CORE sees as it was. -/
theorem execLtxPop_good {s t : State} (hg : s.Good) (h : execLtxPop s = .next t) : t.Good := by
  rcases execLtxPop_cases h with ⟨havailable, b, rfl⟩ | rfl
  · exact { hg with tx := Ring.good_advance hg.tx havailable }
  · exact { hg with }

/-- Every instruction, from a quiet state with no command in progress, keeps the invariant. -/
theorem exec_good {i : Instr} {s t : State} (hquiet : s.Quiet) (hidle : s.seq = .idle) (h : exec i s = .next t) : t.Good := by
  have hgood : s.Good := hquiet.good (by simp [hidle, Seq.plain])
  have hplain : s.seq.plain = true := by simp [hidle, Seq.plain]
  obtain ⟨htxbuf, hrxbuf, hpaybuf⟩ := sizes_le_of_valid hquiet.cfg
  cases exec_effect h with
  | answer | illegal | crc32 | crc8 => exact { hgood with }
  | rxPop res havailable => exact { hgood with rx := Ring.good_advance hquiet.rx havailable }
  | txPush b hfree =>
    refine State.Quiet.good ?_ hplain
    exact { hquiet with tx := Ring.good_push hquiet.tx hfree b }
  | enc e res ok hcommand =>
    refine State.Quiet.good ?_ hplain
    exact { hquiet with enc := hcommand.good htxbuf hquiet.enc }
  | dec d res ok hcommand => exact { hgood with dec := hcommand.good hrxbuf hquiet.dec }
  | pay p res hcommand => exact { hgood with pay := hcommand.good hpaybuf hquiet.pay }
  | launch p t hstart hlaunch => exact launch_good (hquiet.goto_good hstart.plain) hlaunch
  | send ty src u t hsend hlaunch => exact launch_good (s := u) (sendFrame_good hquiet hsend) hlaunch
  | lrxPush b t hpush => exact execLrxPush_good hgood hpush
  | ltxPop t hpop => exact execLtxPop_good hgood hpop

theorem cmdReady_iff (s : State) : s.cmdReady = true ↔ s.seq = .idle ∧ s.halted = false := by simp [State.cmdReady]

/-- A Good state with CMD ready is quiet. -/
theorem State.Good.quiet_of_ready {s : State} (h : s.Good) (hready : s.cmdReady = true) : s.Quiet := by
  have hidle := ((cmdReady_iff s).1 hready).1
  exact h.quiet (by simp [hidle]) (by simp [hidle])

/-! ### The other agents -/

/-- The room that TX_COMMIT's loop counts on may only grow. -/
theorem seqGood_of_free_le {s : State} {tx : Ring} (h : seqGood s = true) (hle : s.tx.free s.cfg.nTx ≤ tx.free s.cfg.nTx) :
    seqGood { s with tx := tx } = true := by
  cases hs : s.seq with
  | commit after j len =>
    simp only [seqGood, hs, Bool.and_eq_true, decide_eq_true_eq] at h ⊢
    obtain ⟨⟨⟨⟨hclosed, hlen⟩, hj⟩, hroom⟩, hhalted⟩ := h
    exact ⟨⟨⟨⟨hclosed, hlen⟩, hj⟩, hroom.trans hle⟩, hhalted⟩
  | _ => simpa [seqGood, hs] using h

theorem syncStep_good {s : State} (hg : s.Good) (view : View) (v : Nat) : (syncStep view v s).Good := by
  rcases syncStep_cases view v s with e | ⟨hpath, e⟩ | ⟨hpath, e⟩ | ⟨hpath, e⟩ | ⟨hpath, e⟩ <;> rw [e]
  · exact hg
  · exact { hg with rx := Ring.good_viewW hg.rx hpath }
  · exact { hg with rx := Ring.good_viewR hg.rx hpath }
  · exact { hg with tx := Ring.good_viewW hg.tx hpath }
  · exact { hg with
      tx := Ring.good_viewR hg.tx hpath
      seq := seqGood_of_free_le hg.seq (Ring.free_le_viewR hg.tx hpath) }

/-- BUS may answer only what the table of R108 allows for a pending phase that has no answer yet. -/
theorem busMayAnswer_iff (r : BusAnswer) (s : State) :
    busMayAnswer r s = true ↔
      ∃ ph, s.bus.pend = some ph ∧ s.bus.stop = false ∧ s.bus.rsp = none ∧ answerAllowed ph.op r = true := by
  unfold busMayAnswer
  split <;> simp [*, and_assoc]

theorem busAnswerStep_good {s : State} (hg : s.Good) (r : BusAnswer) : (busAnswerStep r s).Good := by
  rcases busAnswerStep_cases r s with e | ⟨hmay, e⟩ <;> rw [e]
  · exact hg
  · obtain ⟨ph, hpend, -, -, hallowed⟩ := (busMayAnswer_iff r s).1 hmay
    have hbus : busGood { s with bus := { s.bus with rsp := some r } } = true := by
      have hbefore := hg.bus
      cases hs : s.seq with
      | wait x ph' todo =>
        simp only [busGood, hs, hpend, Bool.and_eq_true, decide_eq_true_eq, Option.some.injEq] at hbefore
        obtain ⟨rfl, -⟩ := hbefore
        simp [busGood, hpend, hallowed]
      | _ => simp [busGood, hs, hpend] at hbefore
    exact { hg with bus := hbus }

/-- The step lemma of the invariant, over what a step can be. -/
theorem turn_good {s t : State} (hg : s.Good) (h : Turn s t) : t.Good := by
  cases h with
  | goOn t hcmd hrun hres => exact resume_good hg hres
  | rest hcmd hrun => exact hg.sched _
  | accept c t hcmd hready hexec =>
    have hquiet : { s with sched := s.sched.tail }.accept.Quiet := { hg.quiet_of_ready hready with }
    exact exec_good hquiet ((cmdReady_iff s).1 hready).1 hexec
  | lrx b rest t hs hpush => exact execLrxPush_good (hg.sched rest) hpush
  | ltx rest t hs hpop => exact execLtxPop_good (hg.sched rest) hpop
  | sync view v rest hs => exact syncStep_good (hg.sched rest) view v
  | busAnswer r rest hs => exact busAnswerStep_good (hg.sched rest) r
  | busTakeStop rest hs => exact { hg with }
  | clk d rest hs => exact { hg with }
  | rst rest hs => exact resetEvent_good hg.cfg

/-- Settles O5: a step is the turn of one agent, and each agent's turn keeps the invariant. -/
theorem stepKeepsGood : Obligations.StepKeepsGood :=
  fun _ _ hg h => turn_good hg (step_turn h)

end Sys2Proof.Machine

/-! The statements of 20_memory.md, first part: the gray code (R37), the synchronisers (R39), what the views show (R40), and what
each agent leaves alone (R47). -/

namespace Sys2Proof.Machine

/-! ### The gray code -/

theorem gray_xor (a b : Nat) : gray (a ^^^ b) = gray a ^^^ gray b := by
  simp only [gray, Nat.shiftRight_xor_distrib]
  ac_rfl

theorem gray_shiftRight (b i : Nat) : gray b >>> i = gray (b >>> i) := by
  simp [gray, Nat.shiftRight_xor_distrib, ← Nat.shiftRight_add, Nat.add_comm]

/-- The code of `k + 1` ones has its highest bit alone. -/
theorem gray_ones (k : Nat) : gray (2 ^ (k + 1) - 1) = 2 ^ k := by
  refine Nat.eq_of_testBit_eq fun i => ?_
  simp only [gray, Nat.testBit_xor, Nat.testBit_shiftRight, Nat.testBit_two_pow_sub_one, Nat.testBit_two_pow]
  rcases Nat.lt_trichotomy i k with hi | rfl | hi
  · simp [show i < k + 1 by omega, show 1 + i < k + 1 by omega, show k ≠ i by omega]
  · simp
  · simp [show ¬ i < k + 1 by omega, show ¬ 1 + i < k + 1 by omega, show k ≠ i by omega]

theorem shiftRight_one_lt {k g : Nat} (hg : g < 2 ^ (k + 1)) : g >>> 1 < 2 ^ k := by
  rw [Nat.shiftRight_one]
  omega

theorem bin_lt {k g : Nat} (hg : g < 2 ^ k) : bin k g < 2 ^ k := by
  induction k generalizing g with
  | zero => simp [bin]
  | succ k ih =>
    have hrest := ih (shiftRight_one_lt hg)
    exact Nat.xor_lt_two_pow hg (by omega)

/-- Dropping the lowest bit of the code drops the lowest bit of the number. -/
theorem bin_shiftRight_one {k g : Nat} (hg : g < 2 ^ (k + 1)) : bin (k + 1) g >>> 1 = bin k (g >>> 1) := by
  induction k generalizing g with
  | zero =>
    have := shiftRight_one_lt hg
    simp only [bin, Nat.xor_zero]
    omega
  | succ k ih =>
    have hrest := ih (shiftRight_one_lt hg)
    rw [bin, Nat.shiftRight_xor_distrib, hrest, bin]

/-- The bit rule of R37: each bit is the one above it, which the highest bit has not, xor the code's bit. -/
theorem bin_testBit {k g i : Nat} (hg : g < 2 ^ k) (hi : i < k) :
    (bin k g).testBit i = ((bin k g).testBit (i + 1) ^^ g.testBit i) := by
  obtain ⟨k, rfl⟩ : ∃ m, k = m + 1 := ⟨k - 1, by omega⟩
  have hfold : bin (k + 1) g = g ^^^ (bin (k + 1) g >>> 1) := by rw [bin_shiftRight_one hg, bin]
  calc (bin (k + 1) g).testBit i
      = (g ^^^ (bin (k + 1) g >>> 1)).testBit i := by rw [← hfold]
    _ = ((bin (k + 1) g).testBit (i + 1) ^^ g.testBit i) := by
      rw [Nat.testBit_xor, Nat.testBit_shiftRight, Nat.add_comm 1 i, Bool.xor_comm]

theorem bin_gray {k b : Nat} (hb : b < 2 ^ k) : bin k (gray b) = b := by
  induction k generalizing b with
  | zero => simp [bin, show b = 0 by simpa using hb]
  | succ k ih =>
    have hrest := ih (shiftRight_one_lt hb)
    rw [bin, gray_shiftRight, hrest, gray, Nat.xor_xor_cancel_right]

/-- Counting on by one flips the lowest bits up to the first 0. -/
theorem xor_succ_eq_ones {k b : Nat} (hb : b + 1 < 2 ^ k) : ∃ i, i < k ∧ b ^^^ (b + 1) = 2 ^ (i + 1) - 1 := by
  induction k generalizing b with
  | zero => omega
  | succ k ih =>
    have hhalf : (b ^^^ (b + 1)) / 2 = b / 2 ^^^ (b + 1) / 2 := Nat.xor_div_two
    have hlow : (b ^^^ (b + 1)) % 2 = 1 := by rw [Nat.xor_mod_two_eq]; omega
    rcases Nat.mod_two_eq_zero_or_one b with heven | hodd
    · rw [show (b + 1) / 2 = b / 2 by omega, Nat.xor_self] at hhalf
      exact ⟨0, by omega, by omega⟩
    · obtain ⟨i, hi, hones⟩ := ih (b := b / 2) (by omega)
      rw [show (b + 1) / 2 = b / 2 + 1 by omega, hones] at hhalf
      have hpow : 2 ^ (i + 1 + 1) = 2 * 2 ^ (i + 1) := Nat.pow_succ'
      have hpos : 0 < 2 ^ (i + 1) := Nat.two_pow_pos _
      exact ⟨i + 1, by omega, by omega⟩

/-- Codes of neighbours differ in one bit; at the wrap it is the highest. -/
theorem gray_xor_succ {k b : Nat} (hk : 1 ≤ k) (hb : b < 2 ^ k) :
    ∃ i, i < k ∧ gray b ^^^ gray ((b + 1) % 2 ^ k) = 2 ^ i := by
  rw [← gray_xor]
  by_cases hwrap : b + 1 = 2 ^ k
  · obtain ⟨m, rfl⟩ : ∃ m, k = m + 1 := ⟨k - 1, by omega⟩
    refine ⟨m, by omega, ?_⟩
    rw [hwrap, Nat.mod_self, Nat.xor_zero, show b = 2 ^ (m + 1) - 1 by omega, gray_ones]
  · obtain ⟨i, hi, hones⟩ := xor_succ_eq_ones (show b + 1 < 2 ^ k by omega)
    exact ⟨i, hi, by rw [Nat.mod_eq_of_lt (by omega), hones, gray_ones]⟩

/-- Settles O12: `gray` is linear, and neighbours differ in a block of ones, whose code is one bit (R37). -/
theorem grayCode : Obligations.GrayCode := by
  refine ⟨fun _ => rfl, rfl, fun k hk => ?_, fun k g hg i hi => ?_, fun k b => bin_gray, fun k b => gray_xor_succ⟩
  · obtain ⟨m, rfl⟩ : ∃ m, k = m + 1 := ⟨k - 1, by omega⟩
    simp [gray_ones, Nat.one_shiftLeft]
  · rw [bin_testBit hg hi]
    split
    · next htop => rw [htop, Nat.testBit_lt_two_pow (bin_lt hg), Bool.false_xor]
    · rfl

/-! ### Synchronisers and views -/

theorem step_sync {s : State} {view : View} {v : Nat} {rest : List Agent} (hcfg : s.cfg.valid = true)
    (hs : s.sched = .sync view v :: rest) : step s = .next (syncStep view v { s with sched := rest }) := by
  simp [step, hcfg, agentTurn, hs]

/-- The value of a view after its synchroniser's step (R39): the one chosen, if it is on the ring path to the index. -/
def syncedView (n view index v : Nat) : Nat := if v < n ∧ subMod n v view ≤ subMod n index view then v else view

theorem syncStep_rxW (v : Nat) (s : State) :
    syncStep .rxW v s = { s with rx := { s.rx with wv := syncedView s.cfg.nRx s.rx.wv s.rx.w v } } := by
  simp only [syncStep, onPath_iff, syncedView]
  split <;> rfl

theorem syncStep_rxR (v : Nat) (s : State) :
    syncStep .rxR v s = { s with rx := { s.rx with rv := syncedView s.cfg.nRx s.rx.rv s.rx.r v } } := by
  simp only [syncStep, onPath_iff, syncedView]
  split <;> rfl

theorem syncStep_txW (v : Nat) (s : State) :
    syncStep .txW v s = { s with tx := { s.tx with wv := syncedView s.cfg.nTx s.tx.wv s.tx.w v } } := by
  simp only [syncStep, onPath_iff, syncedView]
  split <;> rfl

theorem syncStep_txR (v : Nat) (s : State) :
    syncStep .txR v s = { s with tx := { s.tx with rv := syncedView s.cfg.nTx s.tx.rv s.tx.r v } } := by
  simp only [syncStep, onPath_iff, syncedView]
  split <;> rfl

/-- Settles O13: each synchroniser's step, and a point on the ring path is no further from the index than where the path began
(R39, R70). -/
theorem synchroniserStaysOnThePath : Obligations.SynchroniserStaysOnThePath := by
  intro s v rest hcfg
  refine ⟨fun hs => ?_, fun hs => ?_, fun hs => ?_, fun hs => ?_, fun n view index hview hindex hv hle => ?_⟩
  · rw [step_sync hcfg hs, syncStep_rxW]; rfl
  · rw [step_sync hcfg hs, syncStep_rxR]; rfl
  · rw [step_sync hcfg hs, syncStep_txW]; rfl
  · rw [step_sync hcfg hs, syncStep_txR]; rfl
  · rw [subMod_sub hindex hv hview hle, Nat.sub_add_cancel hle]

/-- Settles O14: the invariant bounds what each side sees, and `Ring.free_of_good` counts the room (R40). -/
theorem viewsOnlyUnderestimate : Obligations.ViewsOnlyUnderestimate := by
  intro n q h
  have hfree := Ring.free_of_good h
  obtain ⟨-, -, -, -, -, -, -, havail, hroom, -⟩ := h
  exact ⟨by omega, havail, by omega, by omega⟩

/-! ### What a command leaves alone -/

theorem sameForeign.refl (s : State) : sameForeign s s := by simp [sameForeign]

theorem sameForeign.trans {s u t : State} (hu : sameForeign s u) (ht : sameForeign u t) : sameForeign s t := by
  simp only [sameForeign] at hu ht ⊢
  simp only [ht, hu, and_self]

theorem sameForeign_of_outside {s t : State} (h : sameOutside s t) : sameForeign s t := by
  obtain ⟨hcfg, hclock, hmem, hw, hwg, hrxwv, hrxrv, hr, hrg, htxwv, htxrv, haccept, hvalid, hdata, -⟩ := h
  exact ⟨hcfg, hclock, hmem, hw, hwg, hrxwv, hrxrv, hr, hrg, htxwv, htxrv, haccept, hvalid, hdata⟩

theorem microStep_foreign {s₀ s s' : State} (hs : sameForeign s₀ s) (h : microStep s = .ok s') : sameForeign s₀ s' :=
  hs.trans (sameForeign_of_outside (microStep_outside h))

theorem resume_foreign {s t : State} (h : resume s = .next t) : sameForeign s t :=
  runMicro_keeps (P := sameForeign s) (fun _ _ hu => hu) (fun _ _ => microStep_foreign) _ (.refl s) h

theorem launch_foreign {p : Seq} {s t : State} (h : launch p s = .next t) : sameForeign s t :=
  launch_keeps (P := sameForeign s) (p := p) (fun _ _ hu => hu) (fun _ _ => microStep_foreign) (.refl s) h

/-- Both rings, the link ports' outputs, the clock and the parameters are as before. -/
def sameRings (s t : State) : Prop :=
  t.cfg = s.cfg ∧ t.clock = s.clock ∧ t.rx = s.rx ∧ t.tx = s.tx ∧
  t.rxAccept = s.rxAccept ∧ t.txValid = s.txValid ∧ t.txData = s.txData

theorem sameRings.refl (s : State) : sameRings s s := by simp [sameRings]

theorem sameRings.foreign {s t : State} (h : sameRings s t) : sameForeign s t := by
  obtain ⟨hcfg, hclock, hrx, htx, haccept, hvalid, hdata⟩ := h
  simp [sameForeign, hcfg, hclock, hrx, htx, haccept, hvalid, hdata]

/-- What a command of the command port can do to the rings (R47): unlike `ExecEffect`, which covers every instruction, it leaves
out the two link port operations and says nothing of the CORE units. `exec_command` says that there is nothing else. -/
inductive CommandEffect (s : State) : State → Prop
  | core {t : State} (h : sameRings s t) : CommandEffect s t
  | rxPop (res : Word) (h : 0 < s.rx.avail s.cfg.nRx) :
      CommandEffect s ({ s with rx := s.rx.advance s.cfg.nRx }.respond res true)
  | txPush (b : Byte) (h : 0 < s.tx.free s.cfg.nTx) :
      CommandEffect s ({ s with tx := s.tx.push s.cfg.nTx b }.respond 1 true)
  | launch (p : Seq) {t : State} (hp : p.isStart) (h : launch p s = .next t) : CommandEffect s t
  | send (ty : Byte) (src : Except Fault (List Byte)) {u t : State}
      (hsend : sendFrame (.protoSend ty) ty s.pay.len.toNat src s = .ok u) (h : Machine.launch u.seq u = .next t) :
      CommandEffect s t

/-- A command that answers, having written CORE registers at most. -/
theorem CommandEffect.of_next {s u t : State} (h : (.next u : Host.Outcome State Fault Refusal) = .next t)
    (hu : sameRings s u) : CommandEffect s t :=
  Host.Outcome.next.inj h ▸ .core hu

/-- The same of a command that first reads, or works on a unit. -/
theorem CommandEffect.of_bind {α : Type} {x : Except Fault α} {f : α → State} {s t : State}
    (h : outcomeOf (x >>= fun a => .ok (f a)) = .next t) (hf : ∀ a, sameRings s (f a)) : CommandEffect s t := by
  obtain ⟨a, -, rfl⟩ := outcomeOf_bind_next h
  exact .core (hf a)

theorem exec_command {i : Instr} {s t : State} (hlrx : ∀ b, i ≠ .lrxPush b) (hltx : i ≠ .ltxPop) (h : exec i s = .next t) :
    CommandEffect s t := by
  cases i with
  | lrxPush b => exact absurd rfl (hlrx b)
  | ltxPop => exact absurd rfl hltx
  | nop | rxAvail | txFree | crc32Seed | crc32Put | crc32Rd | crc8Init | crc8Put | crc8Rd | decBegin | payClr | illegal =>
    exact .of_next h (.refl s)
  | csrRd | decPut | payPut =>
    simp only [exec, execCsrRd, execDecPut, execPayPut] at h
    split at h <;> exact .of_next h (.refl s)
  | encBegin => exact .of_bind h fun _ => .refl s
  | rxPeek | encPut | encEnd | encRd | decRd =>
    simp only [exec, execRxPeek, execEncPut, execEncEnd, execEncRd, execDecRd] at h
    split at h
    · exact .of_bind h fun _ => .refl s
    · exact .of_next h (.refl s)
  | rxPop =>
    simp only [exec, execRxPop] at h
    split at h
    · next hsees =>
      obtain ⟨b, -, rfl⟩ := outcomeOf_bind_next h
      exact .rxPop _ hsees
    · exact .of_next h (.refl s)
  | txPush b =>
    simp only [exec, execTxPush] at h
    split at h
    · next hfree => exact Host.Outcome.next.inj h ▸ .txPush b hfree
    · exact .of_next h (.refl s)
  | txCommit => exact .launch _ (.inl rfl) h
  | protoPoll => exact .launch _ (.inr (.inl rfl)) h
  | sensStep => exact .launch _ (.inr (.inr rfl)) h
  | protoSend ty =>
    simp only [exec, execProtoSend] at h
    split at h
    · next hsend => exact .send ty _ hsend h
    · exact absurd h nofun

theorem CommandEffect.foreign {s t : State} (h : CommandEffect s t) : sameForeign s t := by
  cases h with
  | core h => exact h.foreign
  | rxPop | txPush => exact .refl s
  | launch p hp h => exact launch_foreign h
  | send ty src hsend h => exact (sameForeign_of_outside (sendFrame_outside hsend)).trans (launch_foreign h)

/-- Settles O9: every command is one of `CommandEffect`, and no micro-step writes another domain (R47, R18). -/
theorem commandsLeaveTheOtherDomainsAlone : Obligations.CommandsLeaveTheOtherDomainsAlone :=
  ⟨fun _ _ _ hlrx hltx h => (exec_command hlrx hltx h).foreign, fun _ _ => resume_foreign⟩

/-! ### What the other agents leave alone -/

/-- LRX writes RX's producer side and its own port. -/
theorem execLrxPush_frame {b : Byte} {s t : State} (h : execLrxPush b s = .next t) :
    t.sched = s.sched ∧ t.tx = s.tx ∧ t.bus = s.bus ∧ t.clock = s.clock ∧ t.rx.wv = s.rx.wv ∧ t.rx.rv = s.rx.rv ∧
      t.txValid = s.txValid ∧ t.txData = s.txData := by
  rcases execLrxPush_cases h with ⟨-, rfl⟩ | rfl <;> simp

/-- LTX writes TX's consumer side and its own port. -/
theorem execLtxPop_frame {s t : State} (h : execLtxPop s = .next t) :
    t.sched = s.sched ∧ t.rx = s.rx ∧ t.bus = s.bus ∧ t.clock = s.clock ∧ t.tx.wv = s.tx.wv ∧ t.tx.rv = s.tx.rv ∧
      t.rxAccept = s.rxAccept := by
  rcases execLtxPop_cases h with ⟨-, b, rfl⟩ | rfl <;> simp

theorem syncStep_sched (view : View) (v : Nat) (s : State) : (syncStep view v s).sched = s.sched := by
  rcases syncStep_cases view v s with e | ⟨-, e⟩ | ⟨-, e⟩ | ⟨-, e⟩ | ⟨-, e⟩ <;> rw [e]

theorem busAnswerStep_sched (r : BusAnswer) (s : State) : (busAnswerStep r s).sched = s.sched := by
  rcases busAnswerStep_cases r s with e | ⟨-, e⟩ <;> rw [e]

theorem answerAllowed_iff (op : BusOp) (r : BusAnswer) :
    answerAllowed op r = true ↔ (op = .read ∧ ∃ v, r = .data v) ∨ (op ≠ .read ∧ (r = .ack ∨ r = .nack)) := by
  cases op <;> cases r <;> simp [answerAllowed]

/-- The whole condition under which BUS answers, as R108 words it. -/
theorem busMayAnswer_iff_table (r : BusAnswer) (s : State) :
    busMayAnswer r s = true ↔
      ∃ ph, s.bus.stop = false ∧ s.bus.pend = some ph ∧ s.bus.rsp = none ∧
        ((ph.op = .read ∧ ∃ v, r = .data v) ∨ (ph.op ≠ .read ∧ (r = .ack ∨ r = .nack))) := by
  simp only [busMayAnswer_iff, answerAllowed_iff]
  exact exists_congr fun ph => and_left_comm

theorem busAnswerStep_of_may {r : BusAnswer} {s : State} (h : busMayAnswer r s = true) :
    busAnswerStep r s = { s with bus := { s.bus with rsp := some r } } := if_pos h

theorem busAnswerStep_of_not_may {r : BusAnswer} {s : State} (h : ¬ busMayAnswer r s = true) : busAnswerStep r s = s :=
  if_neg h

/-- Settles O10: the frame of each agent's own step; BUS's two steps are R108's (R47, R13, R18, R108). -/
theorem otherAgentsLeaveTheCoreAlone : Obligations.OtherAgentsLeaveTheCoreAlone := by
  intro s t a rest hsched hcmd hrst h
  cases step_turn h with
  | goOn t hturn | rest hturn | accept c t hturn => exact absurd hsched (cmdTurn_sched_ne hturn hcmd)
  | lrx b rest' t hs hpush =>
    obtain ⟨rfl, rfl⟩ : a = .lrx b ∧ rest = rest' := by simpa [hsched] using hs
    obtain ⟨hrest, hframe⟩ := execLrxPush_frame hpush
    exact ⟨(execLrxPush_core hpush).1, hrest, fun _ => hframe, nofun, by simp, nofun, nofun⟩
  | ltx rest' t hs hpop =>
    obtain ⟨rfl, rfl⟩ : a = .ltx ∧ rest = rest' := by simpa [hsched] using hs
    obtain ⟨hrest, hframe⟩ := execLtxPop_frame hpop
    exact ⟨(execLtxPop_core hpop).1, hrest, by simp, fun _ => hframe, by simp, nofun, nofun⟩
  | sync view v rest' hs =>
    obtain ⟨rfl, rfl⟩ : a = .sync view v ∧ rest = rest' := by simpa [hsched] using hs
    obtain ⟨hcore, hbus⟩ := syncStep_core view v { s with sched := rest }
    exact ⟨hcore, syncStep_sched view v _, by simp, nofun, fun _ => hbus, nofun, nofun⟩
  | busAnswer r rest' hs =>
    obtain ⟨rfl, rfl⟩ : a = .busAnswer r ∧ rest = rest' := by simpa [hsched] using hs
    refine ⟨(busAnswerStep_core r { s with sched := rest }).1, busAnswerStep_sched r _, by simp, nofun, by simp, ?_, nofun⟩
    rintro r' ⟨⟩
    have hmay := busMayAnswer_iff_table r { s with sched := rest }
    exact ⟨fun hallowed => busAnswerStep_of_may (hmay.2 hallowed),
      fun hnot => busAnswerStep_of_not_may fun hgiven => hnot (hmay.1 hgiven)⟩
  | busTakeStop rest' hs =>
    obtain ⟨rfl, rfl⟩ : a = .busTakeStop ∧ rest = rest' := by simpa [hsched] using hs
    exact ⟨by simp [sameCore, busTakeStopStep], rfl, by simp, nofun, by simp, nofun, fun _ => rfl⟩
  | clk d rest' hs =>
    obtain ⟨rfl, rfl⟩ : a = .clk d ∧ rest = rest' := by simpa [hsched] using hs
    exact ⟨by simp [sameCore, clkStep], rfl, by simp, nofun, fun _ => rfl, nofun, nofun⟩
  | rst rest' hs => exact absurd (by simpa [hsched] using hs : a = .rst ∧ rest = rest').1 hrst

end Sys2Proof.Machine

/-! The statements of 20_memory.md, second part: each ring is a queue over every step but reset (R42). A push appends to what a ring
holds and a pop takes its head; CMD pops RX as far as it sees and pushes TX as far as it has room, and nothing else of either. -/

namespace Sys2Proof.Machine

/-! ### What a push and a pop do to the bytes held -/

/-- A push appends its byte. -/
theorem Ring.contents_push {n : Nat} {q : Ring} (h : q.good n) (hfree : 0 < q.free n) (b : Byte) :
    (q.push n b).contents n = q.contents n ++ [some b] := by
  rw [Ring.free_of_good h] at hfree
  obtain ⟨-, hw, hr, -⟩ := h
  have hcount : (q.push n b).count n = q.count n + 1 := Ring.count_push n q b hw hr (by omega)
  have hend : (q.r + q.count n) % n = q.w := add_subMod hw hr
  rw [Ring.contents, hcount, Ring.slots_succ, Ring.slots_push n _ q b hw hr le_rfl, Ring.push_mem, Ring.push_r, hend,
    Nat.mod_eq_of_lt hw, Memory.read_write_self, Ring.contents]

/-- A pop of a byte that the consumer sees takes the head. -/
theorem Ring.contents_advance {n : Nat} {q : Ring} (h : q.good n) (hsees : 0 < q.avail n) :
    (q.advance n).contents n = (q.contents n).drop 1 := by
  obtain ⟨-, hw, hr, -, -, -, -, havail, -⟩ := h
  obtain ⟨c, hc⟩ : ∃ c, q.count n = c + 1 := ⟨q.count n - 1, by omega⟩
  have hcount : (q.advance n).count n = c := by rw [Ring.count_advance n q hw hr (by omega)]; omega
  rw [Ring.contents, Ring.contents, hcount, hc, Ring.slots_cons, List.drop_one, List.tail_cons]

/-- The consumer pops a byte that it sees. -/
def Ring.Pop (n : Nat) (q q' : Ring) : Prop := 0 < q.avail n ∧ q' = q.advance n

/-- The producer pushes a byte that it has room for. -/
def Ring.Push (n : Nat) (q q' : Ring) : Prop := 0 < q.free n ∧ ∃ b, q' = q.push n b

/-- Pops take bytes from the head, no more than the consumer sees. -/
theorem Ring.contents_pops {n : Nat} {q q' : Ring} (hq : q.good n) (h : Relation.ReflTransGen (Ring.Pop n) q q') :
    ∃ k, k ≤ q.avail n ∧ q'.contents n = (q.contents n).drop k := by
  induction h using Relation.ReflTransGen.head_induction_on with
  | refl => exact ⟨0, Nat.zero_le _, rfl⟩
  | head hpop _ ih =>
    obtain ⟨hsees, rfl⟩ := hpop
    obtain ⟨k, hk, hdrop⟩ := ih (Ring.good_advance hq hsees)
    obtain ⟨-, -, hr, hwv, -⟩ := id hq
    rw [Ring.avail_advance n _ hwv hr hsees] at hk
    exact ⟨1 + k, by omega, by rw [hdrop, Ring.contents_advance hq hsees, List.drop_drop]⟩

/-- Pushes append bytes. -/
theorem Ring.contents_pushes {n : Nat} {q q' : Ring} (hq : q.good n) (h : Relation.ReflTransGen (Ring.Push n) q q') :
    ∃ bs : List Byte, q'.contents n = q.contents n ++ bs.map some := by
  induction h using Relation.ReflTransGen.head_induction_on with
  | refl => exact ⟨[], by simp⟩
  | head hpush _ ih =>
    obtain ⟨hfree, b, rfl⟩ := hpush
    obtain ⟨bs, hbs⟩ := ih (Ring.good_push hq hfree b)
    exact ⟨b :: bs, by simp [hbs, Ring.contents_push hq hfree]⟩

/-! ### What CMD does to the rings -/

/-- From `s` to `t` CMD has popped bytes of RX that it saw and pushed bytes into TX that it had room for. -/
def CmdRings (s t : State) : Prop :=
  t.cfg = s.cfg ∧ Relation.ReflTransGen (Ring.Pop s.cfg.nRx) s.rx t.rx ∧
    Relation.ReflTransGen (Ring.Push s.cfg.nTx) s.tx t.tx

theorem CmdRings.refl (s : State) : CmdRings s s := ⟨rfl, .refl, .refl⟩

theorem CmdRings.trans {s u t : State} (hu : CmdRings s u) (ht : CmdRings u t) : CmdRings s t := by
  obtain ⟨hcfg, hrx, htx⟩ := hu
  obtain ⟨hcfg', hrx', htx'⟩ := ht
  rw [hcfg] at hcfg' hrx' htx'
  exact ⟨hcfg', hrx.trans hrx', htx.trans htx'⟩

/-- A micro-step that touches neither ring. -/
theorem CmdRings.of_eq {s t : State} (hcfg : t.cfg = s.cfg) (hrx : t.rx = s.rx) (htx : t.tx = s.tx) : CmdRings s t :=
  ⟨hcfg, hrx ▸ .refl, htx ▸ .refl⟩

theorem CmdRings.pop {s t : State} (hcfg : t.cfg = s.cfg) (hsees : 0 < s.rx.avail s.cfg.nRx)
    (hrx : t.rx = s.rx.advance s.cfg.nRx) (htx : t.tx = s.tx) : CmdRings s t :=
  ⟨hcfg, .single ⟨hsees, hrx⟩, htx ▸ .refl⟩

theorem CmdRings.push {s t : State} {b : Byte} (hcfg : t.cfg = s.cfg) (hfree : 0 < s.tx.free s.cfg.nTx) (hrx : t.rx = s.rx)
    (htx : t.tx = s.tx.push s.cfg.nTx b) : CmdRings s t :=
  ⟨hcfg, hrx ▸ .refl, .single ⟨hfree, b, htx⟩⟩

theorem commitDone_rings (after : After) (ok : Bool) (len : Word) (s : State) : CmdRings s (commitDone after ok len s) := by
  cases after <;> exact .refl s

theorem roomStep_rings (after : After) (s : State) : CmdRings s (roomStep after s) := by
  unfold roomStep
  split
  · exact commitDone_rings after false 0 s
  · split
    · exact commitDone_rings after false 0 s
    · exact .refl s

/-- TX_COMMIT's loop pushes only what its room test found room for. -/
theorem commitStep_rings {after : After} {j len : Nat} {s t : State} (hg : s.Good) (hs : s.seq = .commit after j len)
    (h : commitStep after j len s = .ok t) : CmdRings s t := by
  rcases commitStep_ok h with ⟨hlt, b, -, -, rfl⟩ | ⟨-, rfl⟩
  · have hseq := hg.seq
    simp only [seqGood, hs, Bool.and_eq_true, decide_eq_true_eq] at hseq
    obtain ⟨⟨-, hroom⟩, -⟩ := hseq
    exact .push (b := b) rfl (by omega) rfl rfl
  · exact commitDone_rings after true _ s

theorem sendFrame_rings {after : After} {ty : Byte} {m : Nat} {src : Except Fault (List Byte)} {s t : State}
    (h : sendFrame after ty m src s = .ok t) : CmdRings s t := by
  rcases sendFrame_ok h with ⟨-, rfl⟩ | ⟨-, payload, e, -, -, rfl⟩
  · exact commitDone_rings after false 0 s
  · exact .refl s

/-- A turn of the drain pops at most one byte, and only one that it sees. -/
theorem drainStep_rings {acc : Word} {k : Nat} {s t : State} (h : drainStep acc k s = .ok t) : CmdRings s t := by
  rcases drainStep_ok h with ⟨-, rfl⟩ | ⟨hgo, x, -, rfl⟩
  · split <;> exact .refl s
  · exact .pop rfl (by omega) rfl rfl

theorem checkPacket_rings (p : List Byte) (acc : Word) (s : State) : CmdRings s (checkPacket p acc s) := by
  simp only [checkPacket, discardCandidate, dispatch]
  split
  · exact .refl s
  · split
    · exact .refl s
    · split
      · exact .refl s
      · split <;> exact .refl s

theorem checkStep_rings {acc : Word} {s t : State} (h : checkStep acc s = .ok t) : CmdRings s t := by
  rcases checkStep_ok h with ⟨code, rfl⟩ | ⟨p, -, rfl⟩
  · exact .refl s
  · exact checkPacket_rings p acc s

theorem xferDone_rings {x : Xfer} {ok : Bool} {s t : State} (h : xferDone x ok s = .ok t) : CmdRings s t := by
  unfold xferDone at h
  cases hk : x.kind with
  | trigT | trigRh =>
    simp only [hk] at h
    split at h <;> rw [Except.ok.injEq] at h <;> exact h ▸ .refl s
  | readT =>
    simp only [hk] at h
    split at h
    · split at h <;> rw [Except.ok.injEq] at h <;> exact h ▸ .refl s
    · rw [Except.ok.injEq] at h
      exact h ▸ .refl s
  | readRh =>
    simp only [hk] at h
    split at h
    · split at h
      · exact (sendFrame_rings h :)
      · rw [Except.ok.injEq] at h
        exact h ▸ .refl s
    · rw [Except.ok.injEq] at h
      exact h ▸ .refl s

/-- Of CMD's micro-steps only a turn of the drain pops RX, and only a turn of TX_COMMIT's loop pushes TX. -/
theorem microStep_rings {s t : State} (hg : s.Good) (h : microStep s = .ok t) : CmdRings s t := by
  unfold microStep at h
  cases hs : s.seq with
  | idle | halted => simp only [hs, Except.ok.injEq] at h; exact h ▸ .refl s
  | room after => simp only [hs, Except.ok.injEq] at h; exact h ▸ roomStep_rings after s
  | commit after j len => simp only [hs] at h; exact commitStep_rings hg hs h
  | drain acc k => simp only [hs] at h; exact drainStep_rings h
  | check acc => simp only [hs] at h; exact checkStep_rings h
  | sample =>
    simp only [hs, Except.ok.injEq] at h
    subst h
    unfold sampleStep
    split <;> exact .refl s
  | xferStart x => simp only [hs, Except.ok.injEq] at h; exact h ▸ .refl s
  | request x ph todo => simp only [hs, Except.ok.injEq] at h; exact h ▸ .refl s
  | wait x ph todo =>
    simp only [hs, Except.ok.injEq] at h
    subst h
    rcases waitStep_cases x ph todo s with ⟨r, -, e⟩ | ⟨-, -, e⟩ | ⟨-, -, e⟩ <;> rw [e] <;> exact .refl s
  | postStop x ok => simp only [hs] at h; exact (xferDone_rings h :)

/-- What CMD's loop keeps: the invariant, and how the rings came about from those of `s`. -/
def GoodRings (s t : State) : Prop := t.Good ∧ CmdRings s t

theorem GoodRings.sched {s t : State} (h : GoodRings s t) (rest : List Agent) : GoodRings s { t with sched := rest } :=
  ⟨h.1.sched rest, h.2⟩

theorem microStep_goodRings {s₀ s t : State} (hs : GoodRings s₀ s) (h : microStep s = .ok t) : GoodRings s₀ t :=
  ⟨microStep_good hs.1 h, hs.2.trans (microStep_rings hs.1 h)⟩

theorem resume_rings {s t : State} (hg : s.Good) (h : resume s = .next t) : CmdRings s t :=
  (runMicro_keeps (P := GoodRings s) (fun _ _ hu => hu.sched _) (fun _ _ => microStep_goodRings) _ ⟨hg, .refl s⟩ h).2

theorem launch_rings {p : Seq} {s t : State} (hg : (s.goto p).Good) (h : launch p s = .next t) : CmdRings s t :=
  (launch_keeps (P := GoodRings s) (fun _ _ hu => hu.sched _) (fun _ _ => microStep_goodRings) ⟨hg, .refl s⟩ h).2

theorem CommandEffect.rings {s t : State} (hs : s.Quiet) (h : CommandEffect s t) : CmdRings s t := by
  cases h with
  | core h => obtain ⟨hcfg, -, hrx, htx, -⟩ := h; exact .of_eq hcfg hrx htx
  | rxPop res hsees => exact .pop rfl hsees rfl rfl
  | txPush b hfree => exact .push rfl hfree rfl rfl
  | launch p hp h => exact launch_rings (hs.goto_good hp.plain) h
  | send ty src hsend h =>
    have hgood := sendFrame_good hs hsend
    exact (sendFrame_rings hsend).trans (launch_rings hgood h)

/-- No opcode of the command port is a link port operation. -/
theorem decodeCommand_ne_port (op : Byte) (arg : Word) :
    (∀ b, decodeCommand op arg ≠ .lrxPush b) ∧ decodeCommand op arg ≠ .ltxPop := by
  unfold decodeCommand
  split <;> exact ⟨nofun, nofun⟩

/-! ### The link ports -/

theorem execLrxPush_rings {b : Byte} {s t : State} (h : execLrxPush b s = .next t) :
    t.rx = (if 0 < s.rx.free s.cfg.nRx then s.rx.push s.cfg.nRx b else s.rx) ∧ t.tx = s.tx := by
  unfold execLrxPush at h
  split at h <;> obtain rfl := Host.Outcome.next.inj h <;> simp [*]

theorem execLtxPop_rings {s t : State} (h : execLtxPop s = .next t) :
    t.tx = (if 0 < s.tx.avail s.cfg.nTx then s.tx.advance s.cfg.nTx else s.tx) ∧ t.rx = s.rx := by
  unfold execLtxPop at h
  split at h
  · obtain ⟨b, -, rfl⟩ := outcomeOf_bind_next h
    simp [*]
  · obtain rfl := Host.Outcome.next.inj h
    simp [*]

theorem syncStep_contents (view : View) (v n : Nat) (s : State) :
    (syncStep view v s).rx.contents n = s.rx.contents n ∧ (syncStep view v s).tx.contents n = s.tx.contents n := by
  rcases syncStep_cases view v s with e | ⟨-, e⟩ | ⟨-, e⟩ | ⟨-, e⟩ | ⟨-, e⟩ <;> rw [e] <;> exact ⟨rfl, rfl⟩

theorem busAnswerStep_rings (r : BusAnswer) (s : State) :
    (busAnswerStep r s).rx = s.rx ∧ (busAnswerStep r s).tx = s.tx := by
  rcases busAnswerStep_cases r s with e | ⟨-, e⟩ <;> rw [e] <;> exact ⟨rfl, rfl⟩

/-! ### The queues -/

/-- What the link RX port offers in the next step, as far as RX accepts it. -/
def rxOffered (s : State) : List (Option Byte) :=
  match s.sched with
  | .lrx b :: _ => if 0 < s.rx.free s.cfg.nRx then [some b] else []
  | _ => []

/-- How many bytes the link TX port takes in the next step. -/
def txTaken (s : State) : Nat :=
  match s.sched with
  | .ltx :: _ => if 0 < s.tx.avail s.cfg.nTx then 1 else 0
  | _ => 0

/-- R42 over one step from `s` to `t`. -/
def QueueStep (s t : State) : Prop :=
  (∃ k, k ≤ s.rx.avail s.cfg.nRx ∧ t.rx.contents s.cfg.nRx = (s.rx.contents s.cfg.nRx ++ rxOffered s).drop k) ∧
  ∃ bs : List Byte, t.tx.contents s.cfg.nTx = (s.tx.contents s.cfg.nTx).drop (txTaken s) ++ bs.map some ∧
    ∀ a rest, s.sched = a :: rest → a ≠ .cmd → bs = []

/-- On CMD's turn the link ports are idle. -/
theorem ports_idle_of_cmdTurn {s : State} (h : cmdTurn s) : rxOffered s = [] ∧ txTaken s = 0 := by
  unfold rxOffered txTaken
  split
  · next hs => exact absurd hs (cmdTurn_sched_ne h nofun)
  · split
    · next hs => exact absurd hs (cmdTurn_sched_ne h nofun)
    · exact ⟨rfl, rfl⟩

theorem CmdRings.queueStep {s t : State} (h : CmdRings s t) (hg : s.Good) (hcmd : cmdTurn s) : QueueStep s t := by
  obtain ⟨-, hpops, hpushes⟩ := h
  obtain ⟨k, hk, hrx⟩ := Ring.contents_pops hg.rx hpops
  obtain ⟨bs, htx⟩ := Ring.contents_pushes hg.tx hpushes
  obtain ⟨hoffered, htaken⟩ := ports_idle_of_cmdTurn hcmd
  refine ⟨⟨k, hk, ?_⟩, bs, ?_, fun a rest hs ha => absurd hs (cmdTurn_sched_ne hcmd ha)⟩
  · rw [hrx, hoffered, List.append_nil]
  · rw [htx, htaken, List.drop_zero]

/-- A step of another agent pops nothing of RX and pushes nothing into TX. -/
theorem queueStep_of_ports {s t : State} (hrx : t.rx.contents s.cfg.nRx = s.rx.contents s.cfg.nRx ++ rxOffered s)
    (htx : t.tx.contents s.cfg.nTx = (s.tx.contents s.cfg.nTx).drop (txTaken s)) : QueueStep s t :=
  ⟨⟨0, Nat.zero_le _, hrx⟩, [], by simpa using htx, fun _ _ _ _ => rfl⟩

/-- A step of an agent that touches no ring but its views. -/
theorem queueStep_of_same {s t : State} (hoffered : rxOffered s = []) (htaken : txTaken s = 0)
    (hrx : t.rx.contents s.cfg.nRx = s.rx.contents s.cfg.nRx) (htx : t.tx.contents s.cfg.nTx = s.tx.contents s.cfg.nTx) :
    QueueStep s t :=
  queueStep_of_ports (by rw [hrx, hoffered, List.append_nil]) (by rw [htx, htaken, List.drop_zero])

theorem lrx_queueStep {s t : State} {b : Byte} {rest : List Agent} (hg : s.Good) (hs : s.sched = .lrx b :: rest)
    (h : execLrxPush b { s with sched := rest } = .next t) : QueueStep s t := by
  obtain ⟨hrx, htx⟩ := execLrxPush_rings h
  have htaken : txTaken s = 0 := by simp [txTaken, hs]
  refine queueStep_of_ports ?_ (by rw [htx, htaken, List.drop_zero])
  by_cases hfree : 0 < s.rx.free s.cfg.nRx
  · rw [hrx, if_pos hfree, Ring.contents_push hg.rx hfree]
    simp [rxOffered, hs, hfree]
  · rw [hrx, if_neg hfree]
    simp [rxOffered, hs, hfree]

theorem ltx_queueStep {s t : State} {rest : List Agent} (hg : s.Good) (hs : s.sched = .ltx :: rest)
    (h : execLtxPop { s with sched := rest } = .next t) : QueueStep s t := by
  obtain ⟨htx, hrx⟩ := execLtxPop_rings h
  have hoffered : rxOffered s = [] := by simp [rxOffered, hs]
  refine queueStep_of_ports (by rw [hrx, hoffered, List.append_nil]) ?_
  by_cases hsees : 0 < s.tx.avail s.cfg.nTx
  · rw [htx, if_pos hsees, Ring.contents_advance hg.tx hsees]
    simp [txTaken, hs, hsees]
  · rw [htx, if_neg hsees]
    simp [txTaken, hs, hsees]

theorem turn_queueStep {s t : State} (hg : s.Good) (hrst : ∀ rest, s.sched ≠ .rst :: rest) (h : Turn s t) : QueueStep s t := by
  cases h with
  | goOn t hcmd hrun hres => exact (resume_rings hg hres).queueStep hg hcmd
  | rest hcmd hrun => exact CmdRings.queueStep (.of_eq rfl rfl rfl) hg hcmd
  | accept c t hcmd hready hexec =>
    have hquiet : { s with sched := s.sched.tail }.accept.Quiet := { hg.quiet_of_ready hready with }
    obtain ⟨hlrx, hltx⟩ := decodeCommand_ne_port c.op c.arg
    have hrings : CmdRings s t := ((exec_command hlrx hltx hexec).rings hquiet :)
    exact hrings.queueStep hg hcmd
  | lrx b rest t hs hpush => exact lrx_queueStep hg hs hpush
  | ltx rest t hs hpop => exact ltx_queueStep hg hs hpop
  | sync view v rest hs =>
    exact queueStep_of_same (by simp [rxOffered, hs]) (by simp [txTaken, hs])
      (syncStep_contents view v _ { s with sched := rest }).1 (syncStep_contents view v _ { s with sched := rest }).2
  | busAnswer r rest hs =>
    obtain ⟨hrx, htx⟩ := busAnswerStep_rings r { s with sched := rest }
    exact queueStep_of_same (by simp [rxOffered, hs]) (by simp [txTaken, hs]) (by rw [hrx]) (by rw [htx])
  | busTakeStop rest hs => exact queueStep_of_same (by simp [rxOffered, hs]) (by simp [txTaken, hs]) rfl rfl
  | clk d rest hs => exact queueStep_of_same (by simp [rxOffered, hs]) (by simp [txTaken, hs]) rfl rfl
  | rst rest hs => exact absurd hs (hrst rest)

/-- Settles O15: CMD pops RX and pushes TX, LRX pushes RX, LTX pops TX, and no other agent changes what a ring holds (R42). -/
theorem ringsAreQueues : Obligations.RingsAreQueues :=
  fun _ _ hg hrst h => turn_queueStep hg hrst (step_turn h)

end Sys2Proof.Machine

/-! The statements of 30_encoding.md, first part: the decoder and the encoder (R55 to R59). An operand is the low bits of ARG that
its form names, so an encoding names one instruction; the rest follows from that and from the one case split over the opcodes. -/

namespace Sys2Proof.Machine

/-! ### The operand forms -/

theorem operandB8_eq (arg : Word) : operandB8 arg = arg.setWidth 8 := (BitVec.setWidth_eq_extractLsb' (by decide)).symm
theorem operandI16_eq (arg : Word) : operandI16 arg = arg.setWidth 16 := (BitVec.setWidth_eq_extractLsb' (by decide)).symm
theorem operandCsr_eq (arg : Word) : operandCsr arg = arg.setWidth 8 := (BitVec.setWidth_eq_extractLsb' (by decide)).symm
theorem operandT8_eq (arg : Word) : operandT8 arg = arg.setWidth 8 := (BitVec.setWidth_eq_extractLsb' (by decide)).symm

/-! An operand put at its place in ARG is read back. -/

@[simp] theorem operandB8_setWidth (b : Byte) : operandB8 (b.setWidth 32) = b := by simp [operandB8_eq]
@[simp] theorem operandI16_setWidth (i : Half) : operandI16 (i.setWidth 32) = i := by simp [operandI16_eq]
@[simp] theorem operandCsr_setWidth (n : Byte) : operandCsr (n.setWidth 32) = n := by simp [operandCsr_eq]
@[simp] theorem operandT8_setWidth (t : Byte) : operandT8 (t.setWidth 32) = t := by simp [operandT8_eq]

/-! ### The reserved opcodes -/

/-- The nine ranges of R58. -/
theorem reservedOp_iff (op : Byte) :
    reservedOp op = true ↔
      2 ≤ op.toNat ∧ op.toNat ≤ 0x0F ∨ 0x13 ≤ op.toNat ∧ op.toNat ≤ 0x1F ∨ 0x23 ≤ op.toNat ∧ op.toNat ≤ 0x2F ∨
      0x33 ≤ op.toNat ∧ op.toNat ≤ 0x3F ∨ 0x43 ≤ op.toNat ∧ op.toNat ≤ 0x4F ∨ 0x54 ≤ op.toNat ∧ op.toNat ≤ 0x5F ∨
      0x63 ≤ op.toNat ∧ op.toNat ≤ 0x6F ∨ 0x74 ≤ op.toNat ∧ op.toNat ≤ 0x7F ∨ 0x81 ≤ op.toNat := by
  simp [reservedOp, BitVec.le_def, or_assoc]

/-- The nine ranges are the opcodes that the other 26 rows leave. -/
theorem decodeCommand_eq_illegal_iff (op : Byte) (arg : Word) : decodeCommand op arg = .illegal op ↔ reservedOp op = true := by
  rw [reservedOp_iff]
  unfold decodeCommand
  split
  case h_27 => simp only [imp_false, true_iff] at *; omega
  all_goals simp [*]

/-! ### Encoding and decoding -/

/-- An operand is read back from its place in ARG, and a reserved opcode selects no other row. -/
theorem decode_encode {i : Instr} (hi : i.wellFormed = true) : decode (encode i) = .ok i := by
  cases i with
  | illegal op => exact congrArg Except.ok ((decodeCommand_eq_illegal_iff op 0).2 hi)
  | csrRd | protoSend | txPush | crc32Put | crc8Put | encPut | decPut | payPut | rxPeek | encRd | decRd =>
    simp [encode, decode, decodeCommand]
  | _ => rfl

/-- What a command decodes to can be encoded: the default row alone has a check to pass, and only reserved opcodes reach it. -/
theorem decodeCommand_wellFormed (op : Byte) (arg : Word) : (decodeCommand op arg).wellFormed = true := by
  have hillegal := decodeCommand_eq_illegal_iff op arg
  revert hillegal
  unfold decodeCommand
  split <;> simp [Instr.wellFormed]

/-- The form belongs to the row, which the opcode alone selects. -/
theorem argBits_decodeCommand (op : Byte) (arg arg' : Word) :
    argBits (decodeCommand op arg') = argBits (decodeCommand op arg) := by
  unfold decodeCommand
  split <;> rfl

/-- A row without an operand takes no bit of ARG. -/
theorem setWidth_of_no_operand (arg : Word) : (arg.setWidth 0).setWidth 32 = 0 := by
  simp [BitVec.of_length_zero]

/-- The port word of what a command decodes to keeps the opcode and the ARG bits of the form. -/
theorem encode_of_decodeCommand {op : Byte} {arg : Word} {i : Instr} (h : decodeCommand op arg = i) :
    encode i = .command op ((arg.setWidth (argBits i)).setWidth 32) := by
  -- A row is chosen by the opcode's number; this gives the opcode back from it.
  have hop := BitVec.ofNat_toNat 8 op
  unfold decodeCommand at h
  split at h <;> subst h <;>
    simp_all [encode, argBits, operandB8_eq, operandI16_eq, operandW32, operandCsr_eq, operandT8_eq, setWidth_of_no_operand]

/-- No two well-formed instructions share a port word. -/
theorem encode_injective {i j : Instr} (hi : i.wellFormed = true) (hj : j.wellFormed = true) (h : encode i = encode j) :
    i = j := by
  have hok := decode_encode hi
  rw [h, decode_encode hj] at hok
  exact (Except.ok.inj hok).symm

/-- Settles O16: each operand is read back from its place in ARG, and a reserved opcode selects no other row (R56, R57). -/
theorem decodeEncodeAgree : Obligations.DecodeEncodeAgree := fun _ => decode_encode

/-- Settles O17: two ARGs that agree on the form's bits give the same port word, which stands for one instruction. -/
theorem decodingIsTotalAndReadsOnlyTheForm : Obligations.DecodingIsTotalAndReadsOnlyTheForm := by
  intro op arg
  refine ⟨rfl, decodeCommand_wellFormed op arg, encode_of_decodeCommand rfl, fun arg' hform => ?_⟩
  refine encode_injective (decodeCommand_wellFormed op arg') (decodeCommand_wellFormed op arg) ?_
  rw [encode_of_decodeCommand rfl, encode_of_decodeCommand rfl, argBits_decodeCommand op arg arg', hform]

theorem exec_illegal (op : Byte) (s : State) :
    exec (.illegal op) s = .next { s with ill := true, res := 0, ok := false, rspValid := true } := rfl

/-- Settles O18: the default row of the decoder is `reservedOp`, and its instruction runs as R117 says. -/
theorem reservedOpcodesAreIllegal : Obligations.ReservedOpcodesAreIllegal := by
  refine ⟨by decide +kernel, fun op arg => ⟨decodeCommand_eq_illegal_iff op arg, fun hop s => ?_⟩⟩
  rw [(decodeCommand_eq_illegal_iff op arg).2 hop, exec_illegal]

/-- Settles O19: the decoder evaluated on each word. -/
theorem wordsOfTheTableDecode : Obligations.WordsOfTheTableDecode := ⟨rfl, rfl, rfl, rfl, rfl, rfl⟩

end Sys2Proof.Machine

/-! The statements of 30_encoding.md, second part: a step runs the instruction that a port's word stands for (R55), and the
controller's `tx.write` (R61), whose pushes a ring takes as far as it has room. -/

namespace Sys2Proof.Machine

/-! ### A step runs the decoded instruction -/

theorem step_of_valid {s : State} (h : s.cfg.valid = true) : step s = agentTurn s := by simp [step, h]

theorem handshake_of_decode {w : PortWord} {i : Instr} (h : decode w = .ok i) (s : State) : handshake w s = exec i s := by
  simp [handshake, h]

/-- With CMD ready, the command presented leaves the port and runs. -/
theorem acceptTurn_command {s : State} {c : Cmd} {cs : List Cmd} {i : Instr} (hcmds : s.cmds = c :: cs)
    (hready : s.cmdReady = true) (hdecode : decode (.command c.op c.arg) = .ok i) :
    acceptTurn s = exec i { s with cmds := cs, rspValid := false } := by
  simp [acceptTurn, State.accept, hcmds, hready, handshake_of_decode hdecode]

/-- CMD that is ready has no command in progress, so its turn is an acceptance. -/
theorem running_of_cmdReady {s : State} (h : s.cmdReady = true) : s.seq.running = false := by
  rw [((cmdReady_iff s).1 h).1]
  rfl

/-- CMD's turn with an empty schedule runs the command presented. -/
theorem step_accepts {s : State} {c : Cmd} {cs : List Cmd} {i : Instr} (hcfg : s.cfg.valid = true) (hcmds : s.cmds = c :: cs)
    (hready : s.cmdReady = true) (hdecode : decode (.command c.op c.arg) = .ok i) (hsched : s.sched = []) :
    step s = exec i { s with cmds := cs, rspValid := false } := by
  rw [step_of_valid hcfg, ← acceptTurn_command hcmds hready hdecode]
  simp [agentTurn, hsched, running_of_cmdReady hready]

/-- Settles O20: CMD accepts when it is ready, and each port's handshake runs what its word stands for (R55, R68, R69). -/
theorem stepRunsTheDecodedInstruction : Obligations.StepRunsTheDecodedInstruction := by
  intro s i hcfg _
  refine ⟨fun c cs hcmds hready hdecode => ⟨step_accepts hcfg hcmds hready hdecode, fun rest hs => ?_⟩,
    fun b rest hs hdecode => ?_, fun rest hs hdecode => ?_⟩
  · have haccept : acceptTurn { s with sched := rest } = exec i { s with cmds := cs, sched := rest, rspValid := false } :=
      acceptTurn_command (s := { s with sched := rest }) hcmds hready hdecode
    simp [step_of_valid hcfg, agentTurn, hs, running_of_cmdReady hready, haccept]
  · simp [step_of_valid hcfg, agentTurn, hs, handshake_of_decode hdecode]
  · simp [step_of_valid hcfg, agentTurn, hs, handshake_of_decode hdecode]

/-! ### Many pushes -/

/-- The ring after a push of each byte of `bs`, whether or not it has room. -/
def Ring.pushAll (n : Nat) (q : Ring) (bs : List Byte) : Ring := bs.foldl (Ring.push n) q

@[simp] theorem Ring.pushAll_nil (n : Nat) (q : Ring) : q.pushAll n [] = q := rfl
@[simp] theorem Ring.pushAll_cons (n : Nat) (q : Ring) (b : Byte) (bs : List Byte) :
    q.pushAll n (b :: bs) = (q.push n b).pushAll n bs := rfl

/-- Pushes store bytes and move W with its gray copy. -/
theorem Ring.pushAll_eq {n : Nat} {q : Ring} (hw : q.w < n) (hgray : q.wg = gray q.w) (bs : List Byte) :
    q.pushAll n bs =
      { q with
        mem := (q.pushAll n bs).mem, w := (q.w + bs.length) % n, wg := gray ((q.w + bs.length) % n) } := by
  induction bs generalizing q with
  | nil => simp [Nat.mod_eq_of_lt hw, ← hgray]
  | cons b bs ih =>
    have hpush := ih (q := q.push n b) (Nat.mod_lt _ (by omega)) rfl
    rw [Ring.pushAll_cons, hpush]
    simp [Ring.push, Nat.add_assoc, Nat.add_comm 1]

/-- Pushes that the ring has room for append their bytes. -/
theorem Ring.contents_pushAll {n : Nat} {q : Ring} (hq : q.good n) {bs : List Byte} (hroom : bs.length ≤ q.free n) :
    (q.pushAll n bs).contents n = q.contents n ++ bs.map some := by
  induction bs generalizing q with
  | nil => simp
  | cons b bs ih =>
    have hfree : 0 < q.free n := by simp only [List.length_cons] at hroom; omega
    have hrest : bs.length ≤ (q.push n b).free n := by
      rw [Ring.free_push hq hfree]; simp only [List.length_cons] at hroom; omega
    simp [ih (Ring.good_push hq hfree b) hrest, Ring.contents_push hq hfree]

/-! ### The controller's `tx.write` -/

/-- CMD is ready, its turn is next, and TX keeps its invariant: what each command of `tx.write` finds and leaves. -/
structure State.Awaiting (s : State) : Prop where
  cfg : s.cfg.valid = true
  ready : s.cmdReady = true
  sched : s.sched = []
  tx : s.tx.good s.cfg.nTx

theorem State.Good.awaiting {s : State} (h : s.Good) (hidle : s.seq = .idle) (hsched : s.sched = []) : s.Awaiting :=
  ⟨h.cfg, (cmdReady_iff s).2 ⟨hidle, h.halted_eq_false (by simp [hidle])⟩, hsched, h.tx⟩

/-- The command that the controller presents to a waiting block runs in the next step. -/
theorem State.Awaiting.step_offer {s : State} (h : s.Awaiting) {i : Instr} {op : Byte} {arg : Word}
    (hcommand : encode i = .command op arg) (hi : i.wellFormed = true) (is : List Instr) :
    step (offer (i :: is) s) = exec i { s with rspValid := false } := by
  rw [offer_command hcommand]
  exact step_accepts (s := { s with cmds := { op := op, arg := arg } :: s.cmds }) h.cfg rfl h.ready
    (hcommand ▸ decode_encode hi) h.sched

/-- A block that has taken a byte into TX and answered. -/
def State.pushed (s : State) (b : Byte) : State := { s with tx := s.tx.push s.cfg.nTx b }.respond 1 true

theorem exec_txPush (b : Byte) (s : State) :
    exec (.txPush b) s = if 0 < s.tx.free s.cfg.nTx then .next (s.pushed b) else .next (s.respond 0 false) := rfl

/-- A block after one accepted push waits again. -/
theorem State.Awaiting.pushed {s : State} (h : s.Awaiting) (hfree : 0 < s.tx.free s.cfg.nTx) (b : Byte) :
    (s.pushed b).Awaiting :=
  ⟨h.cfg, h.ready, h.sched, Ring.good_push h.tx hfree b⟩

theorem State.pushed_free {s : State} (h : s.Awaiting) (hfree : 0 < s.tx.free s.cfg.nTx) (b : Byte) :
    (s.pushed b).tx.free (s.pushed b).cfg.nTx = s.tx.free s.cfg.nTx - 1 := Ring.free_push h.tx hfree b

/-- One command of `tx.write`: the controller goes on behind an accepted push and stops at a refused one. -/
theorem State.Awaiting.play_push {s : State} (h : s.Awaiting) (n : Nat) (b : Byte) (is : List Instr) (before : List Answer) :
    play Answer.ok (n + 1) false (.txPush b :: is) before (offer (.txPush b :: is) s) =
      if 0 < s.tx.free s.cfg.nTx then
        play Answer.ok n false is (before ++ [{ res := 1, ok := true }]) (offer is (s.pushed b))
      else { answers := before ++ [{ res := 0, ok := false }], ending := .finished, last := .next (s.respond 0 false) } := by
  have hstep : step (offer (.txPush b :: is) s) = exec (.txPush b) { s with rspValid := false } :=
    h.step_offer rfl rfl is
  have hleaves : s.cmds.length < (offer (.txPush b :: is) s).cmds.length := by
    rw [offer_command rfl]
    exact Nat.lt_succ_self _
  rw [exec_txPush] at hstep
  by_cases hfree : 0 < s.tx.free s.cfg.nTx
  · rw [if_pos hfree] at hstep ⊢
    exact (play_answered n hstep hleaves rfl).trans (if_pos rfl)
  · rw [if_neg hfree] at hstep ⊢
    exact (play_answered n hstep hleaves rfl).trans (if_neg nofun)

/-- What a run of `tx.write bs` makes of a waiting block: pushes as far as there is room, each answered, and at most one refusal. -/
structure TxWritten (s : State) (bs : List Byte) (got : List Answer) (t : State) : Prop where
  answers : got.length = min bs.length (s.tx.free s.cfg.nTx + 1)
  accepted : (got.filter Answer.ok).length = min bs.length (s.tx.free s.cfg.nTx)
  state : t = { s with
    tx := s.tx.pushAll s.cfg.nTx (bs.take (s.tx.free s.cfg.nTx)), res := t.res, ok := t.ok, rspValid := t.rspValid }

theorem TxWritten.cons {s t : State} {b : Byte} {bs : List Byte} {got : List Answer} (h : s.Awaiting)
    (hfree : 0 < s.tx.free s.cfg.nTx) (hrest : TxWritten (s.pushed b) bs got t) :
    TxWritten s (b :: bs) ({ res := 1, ok := true } :: got) t := by
  obtain ⟨hanswers, haccepted, hstate⟩ := hrest
  rw [State.pushed_free h hfree] at hanswers haccepted hstate
  obtain ⟨room, hroom⟩ : ∃ room, s.tx.free s.cfg.nTx = room + 1 := ⟨_, (Nat.succ_pred_eq_of_pos hfree).symm⟩
  rw [hroom] at hanswers haccepted hstate
  refine ⟨?_, ?_, ?_⟩ <;> rw [hroom]
  · simp only [List.length_cons]; omega
  · simp only [List.filter_cons_of_pos, List.length_cons]; omega
  · rw [List.take_succ_cons, Ring.pushAll_cons]
    exact hstate

theorem TxWritten.refused {s : State} (hfull : s.tx.free s.cfg.nTx = 0) (b : Byte) (bs : List Byte) :
    TxWritten s (b :: bs) [{ res := 0, ok := false }] (s.respond 0 false) :=
  ⟨by simp [hfull], by simp [hfull], by simp [hfull, State.respond]⟩

/-- The controller presents one TX_PUSH after the other, until one is refused. -/
theorem play_txPushes {s : State} (h : s.Awaiting) (bs : List Byte) (before : List Answer) :
    ∃ got t, TxWritten s bs got t ∧
      play Answer.ok bs.length false (bs.map .txPush) before (offer (bs.map .txPush) s) =
        { answers := before ++ got, ending := .finished, last := .next t } := by
  induction bs generalizing s before with
  | nil => exact ⟨[], s, ⟨by simp, by simp, by simp⟩, by simp⟩
  | cons b bs ih =>
    rw [List.map_cons, List.length_cons, h.play_push]
    split
    · next hfree =>
      obtain ⟨got, t, hwritten, hplay⟩ := ih (h.pushed hfree b) (before ++ [{ res := 1, ok := true }])
      exact ⟨_, t, hwritten.cons h hfree, by rw [hplay, List.append_assoc]; rfl⟩
    · next hfull => exact ⟨_, _, .refused (Nat.eq_zero_of_not_pos hfull) b bs, rfl⟩

/-- Settles O60: `TxWritten` holds of the whole run, and the pushes that found room append their bytes (R61, R66). -/
theorem txWriteReturnsTheShortCount : Obligations.TxWriteReturnsTheShortCount := by
  intro s bs hgood hidle hsched
  obtain ⟨got, t, ⟨hanswers, haccepted, hstate⟩, hplay⟩ := play_txPushes (hgood.awaiting hidle hsched) bs []
  obtain ⟨-, hw, -, -, -, hgray, -⟩ := hgood.tx
  have htake : bs.take (min bs.length (s.tx.free s.cfg.nTx)) = bs.take (s.tx.free s.cfg.nTx) := by
    rw [Nat.min_comm, ← List.take_eq_take_min]
  have htx : t.tx = s.tx.pushAll s.cfg.nTx (bs.take (s.tx.free s.cfg.nTx)) := congrArg State.tx hstate
  have hring := Ring.pushAll_eq hw hgray (bs.take (s.tx.free s.cfg.nTx))
  refine ⟨t, congrArg Played.last hplay, congrArg Played.ending hplay, ?_, ?_, ?_, ?_⟩
  · exact congrArg PseudoResult.count ((congrArg (fun p => (p.answers.filter Answer.ok).length) hplay).trans haccepted)
  · exact (congrArg (fun p => p.answers.length) hplay).trans hanswers
  · rw [htx, htake, Ring.contents_pushAll hgood.tx (List.length_take_le _ _)]
  · rw [← htx, List.length_take, Nat.min_comm] at hring
    rw [← hring, htx]
    exact hstate

end Sys2Proof.Machine

/-! The statements of 40_ring_fifo.md: what each ring command and each link port answers, stores and leaves alone. A producer writes
the slot at W, a consumer reads the slot at R, and TX_COMMIT's loop is one push for each byte of the closed frame. -/

namespace Sys2Proof.Machine

/-! ### Which bytes a push stores -/

/-- A push stores its byte at W. -/
theorem Ring.read_push_self {n : Nat} {q : Ring} (hw : q.w < n) (b : Byte) : (q.push n b).mem.read q.w = some b := by
  rw [Ring.push_mem, Nat.mod_eq_of_lt hw, Memory.read_write_self]

/-- A push stores at no other place. -/
theorem Ring.read_push_other {n a : Nat} {q : Ring} (hw : q.w < n) (ha : a ≠ q.w) (b : Byte) :
    (q.push n b).mem.read a = q.mem.read a := by
  rw [Ring.push_mem, Nat.mod_eq_of_lt hw, Memory.read_write_other _ _ _ _ ha]

/-- Pushes store at the slots from W on, one for each byte, and at no other place. -/
theorem Ring.read_pushAll_other {n a : Nat} {q : Ring} (hw : q.w < n) (bs : List Byte)
    (ha : ∀ j, j < bs.length → a ≠ (q.w + j) % n) : (q.pushAll n bs).mem.read a = q.mem.read a := by
  induction bs generalizing q with
  | nil => rfl
  | cons b bs ih =>
    have hhead : a ≠ q.w := by simpa [Nat.mod_eq_of_lt hw] using ha 0 (by simp)
    have htail : ∀ j, j < bs.length → a ≠ ((q.push n b).w + j) % n := fun j hj => by
      simpa [Nat.add_assoc, Nat.add_comm 1] using ha (j + 1) (by simpa using hj)
    rw [Ring.pushAll_cons, ih (Nat.mod_lt _ (by omega)) htail, Ring.read_push_other hw hhead]

/-- Pushes that do not go round the ring store the byte `j` of the string at the slot `j` behind W. -/
theorem Ring.read_pushAll {n : Nat} {q : Ring} (hw : q.w < n) {bs : List Byte} (hround : bs.length ≤ n) {j : Nat}
    (hj : j < bs.length) : (q.pushAll n bs).mem.read ((q.w + j) % n) = some bs[j] := by
  induction bs generalizing q j with
  | nil => exact absurd hj (by simp)
  | cons b bs ih =>
    simp only [List.length_cons] at hround hj
    have hw' : (q.push n b).w < n := Nat.mod_lt _ (by omega)
    rw [Ring.pushAll_cons]
    cases j with
    | zero =>
      have hpassed : ∀ k, k < bs.length → q.w ≠ ((q.push n b).w + k) % n := fun k hk hmeet => by
        have hnear : subMod n q.w q.w = 0 := subMod_self hw
        have hfar : subMod n ((q.w + (k + 1)) % n) q.w = k + 1 := subMod_add hw (by omega)
        rw [Ring.push_w, Nat.mod_add_mod, Nat.add_assoc, Nat.add_comm 1] at hmeet
        rw [← hmeet] at hfar
        omega
      rw [Nat.add_zero, Nat.mod_eq_of_lt hw, Ring.read_pushAll_other hw' bs hpassed, Ring.read_push_self hw]
      rfl
    | succ j =>
      have htail := ih hw' (by omega) (Nat.lt_of_succ_lt_succ hj)
      rw [Ring.push_w, Nat.mod_add_mod, Nat.add_assoc, Nat.add_comm 1] at htail
      exact htail

/-! ### Frames over the byte spaces -/

/-- No byte space changed. -/
theorem sameBytesBut_of_spaces {s t : State} (h : ∀ sp, t.space sp = s.space sp) : sameBytesBut nothingStored s t :=
  fun sp a _ => by rw [State.byteAt, State.byteAt, h sp]

/-- One byte space changed, at the named places. -/
theorem sameBytesBut_of_space {s t : State} (sp₀ : Space) {stored : Nat → Prop}
    (hothers : ∀ sp, sp ≠ sp₀ → t.space sp = s.space sp)
    (hrest : ∀ a, ¬ stored a → (t.space sp₀).read a = (s.space sp₀).read a) :
    sameBytesBut (fun sp a => sp = sp₀ ∧ stored a) s t := by
  intro sp a hkept
  by_cases hsp : sp = sp₀
  · subst hsp
    exact hrest a fun ha => hkept ⟨rfl, ha⟩
  · rw [State.byteAt, State.byteAt, hothers sp hsp]

/-- A state that differs in TX and in registers has the other byte spaces unchanged. -/
theorem space_of_ne_txMem {s t : State} (hrx : t.rx.mem = s.rx.mem) (henc : t.enc.buf = s.enc.buf) (hdec : t.dec.buf = s.dec.buf)
    (hpay : t.pay.buf = s.pay.buf) (sp : Space) (hsp : sp ≠ .txMem) : t.space sp = s.space sp := by
  cases sp with
  | rxMem => exact hrx
  | txMem => exact absurd rfl hsp
  | encbuf => exact henc
  | decbuf => exact hdec
  | paybuf => exact hpay

/-! ### What a consumer reads -/

/-- A consumer reads what the slot holds. -/
theorem Ring.peek_eq_ok {n i : Nat} {q : Ring} {b : Byte} (hn : 0 < n) (sp : Space) (h : q.mem.read ((q.r + i) % n) = some b) :
    q.peek sp n i = .ok b := readByte_ok.2 ⟨Nat.mod_lt _ hn, h⟩

/-- A consumer reads the head of its ring. -/
theorem Ring.peek_head {n : Nat} {q : Ring} {b : Byte} (hr : q.r < n) (sp : Space) (h : q.mem.read q.r = some b) :
    q.peek sp n 0 = .ok b := Ring.peek_eq_ok (by omega) sp (by rwa [Nat.add_zero, Nat.mod_eq_of_lt hr])

/-! ### The counts, and the commands and ports that move one byte -/

theorem nTx_pos (c : Config) : 0 < c.nTx := Nat.two_pow_pos c.kTx

/-- Settles O22: each count is a distance on its ring; a producer that sees the ring empty sees all but one slot free (R62, R65). -/
theorem countsAreAnswered : Obligations.CountsAreAnswered := by
  refine ⟨fun _ => ⟨rfl, rfl⟩, fun s => ⟨rfl, ?_, rfl, ?_, fun hw hseen => ?_⟩⟩
  · exact Nat.le_sub_one_of_lt (subMod_lt (nRx_pos s.cfg) _ _)
  · exact Nat.le_sub_one_of_lt (subMod_lt (nTx_pos s.cfg) _ _)
  · have hfree : s.tx.free s.cfg.nTx = s.cfg.nTx - 1 - subMod s.cfg.nTx s.tx.w s.tx.rv := free_eq hw (hseen ▸ hw)
    rwa [hseen, subMod_self hw, Nat.sub_zero] at hfree

/-- RX_PEEK within what the core sees. -/
theorem exec_rxPeek_of_lt {s : State} {i : Half} {b : Byte} (hi : i.toNat < s.rx.avail s.cfg.nRx)
    (hb : s.rx.peek .rxMem s.cfg.nRx i.toNat = .ok b) : exec (.rxPeek i) s = .next (s.respond (zext8 b) true) := by
  simp [exec, execRxPeek, hi, hb, outcomeOf, bind, Except.bind]

theorem exec_rxPeek_of_le {s : State} {i : Half} (hi : s.rx.avail s.cfg.nRx ≤ i.toNat) :
    exec (.rxPeek i) s = .next (s.respond 0 false) := by
  simp [exec, execRxPeek, Nat.not_lt.2 hi]

/-- RX_POP of a ring that the core sees a byte in. -/
theorem exec_rxPop_of_pos {s : State} {b : Byte} (hsees : 0 < s.rx.avail s.cfg.nRx)
    (hb : s.rx.peek .rxMem s.cfg.nRx 0 = .ok b) :
    exec .rxPop s = .next ({ s with rx := s.rx.advance s.cfg.nRx }.respond (zext8 b) true) := by
  simp [exec, execRxPop, hsees, hb, outcomeOf, bind, Except.bind]

theorem exec_rxPop_of_empty {s : State} (hempty : s.rx.avail s.cfg.nRx = 0) : exec .rxPop s = .next (s.respond 0 false) := by
  simp [exec, execRxPop, hempty]

/-- LTX_POP of a ring that LTX sees a byte in. -/
theorem exec_ltxPop_of_pos {s : State} {b : Byte} (hsees : 0 < s.tx.avail s.cfg.nTx)
    (hb : s.tx.peek .txMem s.cfg.nTx 0 = .ok b) :
    exec .ltxPop s = .next { s with tx := s.tx.advance s.cfg.nTx, txValid := true, txData := b } := by
  simp [exec, execLtxPop, hsees, hb, outcomeOf, bind, Except.bind]

theorem exec_ltxPop_of_empty {s : State} (hempty : s.tx.avail s.cfg.nTx = 0) :
    exec .ltxPop s = .next { s with txValid := false } := by
  simp [exec, execLtxPop, hempty]

theorem exec_lrxPush (b : Byte) (s : State) :
    exec (.lrxPush b) s =
      if 0 < s.rx.free s.cfg.nRx then .next { s with rx := s.rx.push s.cfg.nRx b, rxAccept := true }
      else .next { s with rxAccept := false } := rfl

/-- Settles O23: the slot is read, or the offset is refused, and only the answer is written (R63). -/
theorem rxPeekReadsWithoutConsuming : Obligations.RxPeekReadsWithoutConsuming :=
  fun s _ => ⟨fun _ hi hb => exec_rxPeek_of_lt hi (Ring.peek_eq_ok (nRx_pos s.cfg) _ hb), fun hi => exec_rxPeek_of_le hi⟩

/-- Settles O24: the head is read and R advances; the slot keeps its byte (R64). -/
theorem rxPopTakesTheHead : Obligations.RxPopTakesTheHead := by
  refine fun s hr => ⟨fun b havail hb => ?_, exec_rxPop_of_empty⟩
  refine ⟨_, exec_rxPop_of_pos (Nat.pos_of_ne_zero havail) (Ring.peek_head hr _ hb), rfl, sameBytesBut_of_spaces fun sp => ?_⟩
  cases sp <;> rfl

/-- Settles O25: with room the command is a push, and the push stores at TX.W alone (R66). -/
theorem txPushAppendsOneByte : Obligations.TxPushAppendsOneByte := by
  refine fun s b hw => ⟨fun hroom => ?_, fun hfull => ?_⟩
  · refine ⟨s.pushed b, ?_, rfl, Ring.read_push_self hw b, ?_⟩
    · rw [exec_txPush, if_pos (Nat.pos_of_ne_zero hroom)]
    · exact sameBytesBut_of_space .txMem (space_of_ne_txMem rfl rfl rfl rfl) fun a ha => Ring.read_push_other hw ha b
  · rw [exec_txPush, if_neg (by omega)]
    rfl

/-- Settles O28: with room the handshake is a push, and the push stores at RX.W alone; without, the byte is lost (R68). -/
theorem lrxPushAppendsOneByte : Obligations.LrxPushAppendsOneByte := by
  refine fun s b => ⟨rfl, fun hw => ⟨fun hroom => ?_, fun hfull => ?_⟩⟩
  · refine ⟨{ s with rx := s.rx.push s.cfg.nRx b, rxAccept := true }, ?_, rfl, Ring.read_push_self hw b, ?_⟩
    · rw [exec_lrxPush, if_pos (Nat.pos_of_ne_zero hroom)]
    · refine sameBytesBut_of_space .rxMem (fun sp hsp => ?_) fun a ha => Ring.read_push_other hw ha b
      cases sp with
      | rxMem => exact absurd rfl hsp
      | txMem | encbuf | decbuf | paybuf => rfl
  · rw [exec_lrxPush, if_neg (by omega)]

/-- Settles O29: the head is delivered and R advances; from an empty ring only tx_valid is written (R69, log 8). -/
theorem ltxPopTakesTheHead : Obligations.LtxPopTakesTheHead := by
  refine fun s hr => ⟨fun b havail hb => ?_, exec_ltxPop_of_empty⟩
  refine ⟨_, exec_ltxPop_of_pos (Nat.pos_of_ne_zero havail) (Ring.peek_head hr _ hb), rfl, sameBytesBut_of_spaces fun sp => ?_⟩
  cases sp <;> rfl

/-! ### TX_COMMIT's effects

The tests and the loop serve every command that ends in TX_COMMIT's effects, so they are stated for each `After`. -/

/-- Where the sequencer stands idle, the end of a command only answers. -/
theorem State.finish_eq_respond {s : State} (hidle : s.seq = .idle) (res : Word) (ok : Bool) :
    s.finish res ok = s.respond res ok := by
  simp [State.finish, State.respond, hidle]

/-- The outcome of a commit ends its command. -/
theorem commitDone_idle (after : After) (ok : Bool) (len : Word) (s : State) : (commitDone after ok len s).seq = .idle := by
  cases after <;> rfl

/-- The outcome of a commit does not depend on where the sequencer stood. -/
theorem commitDone_goto (after : After) (ok : Bool) (len : Word) (p : Seq) (s : State) :
    commitDone after ok len (s.goto p) = commitDone after ok len s := by
  cases after <;> rfl

/-- What TX_COMMIT asks for before it writes: a closed, complete frame, and room for all of it. -/
def State.commits (s : State) : Prop :=
  s.enc.phase = .closed ∧ s.enc.ovf = false ∧ s.enc.len.toNat ≤ s.tx.free s.cfg.nTx

theorem roomStep_of_commits {s : State} (h : s.commits) (after : After) :
    roomStep after s = s.goto (.commit after 0 s.enc.len.toNat) := by
  obtain ⟨hphase, hovf, hroom⟩ := h
  simp [roomStep, hphase, hovf, Nat.not_lt.2 hroom]

theorem roomStep_of_not_commits {s : State} (h : ¬ s.commits) (after : After) : roomStep after s = commitDone after false 0 s := by
  unfold roomStep
  split
  · rfl
  · next hframe =>
    simp only [ne_eq, not_or, not_not, Bool.not_eq_true] at hframe
    rw [if_pos (Nat.lt_of_not_le fun hroom => h ⟨hframe.1, hframe.2, hroom⟩)]

/-- A frame that cannot be committed ends the command in its first micro-step, before any other agent's turn. -/
theorem launch_room_of_not_commits {s : State} (h : ¬ s.commits) (after : After) :
    launch (.room after) s = .next (commitDone after false 0 s) := by
  have hstep : microStep (s.goto (.room after)) = .ok (commitDone after false 0 s) := by
    rw [← commitDone_goto after false 0 (.room after)]
    exact congrArg Except.ok (roomStep_of_not_commits (s := s.goto (.room after)) h after)
  simp only [launch, hstep]
  exact resume_idle (by rw [commitDone_idle]; rfl)

/-- The state with the bytes `bs` pushed into TX. -/
def State.pushedAll (s : State) (bs : List Byte) : State := { s with tx := s.tx.pushAll s.cfg.nTx bs }

/-- A turn of TX_COMMIT's loop with a byte to come and no other agent due. -/
theorem runMicro_commit_byte {after : After} {j len : Nat} {s : State} {b : Byte} (hseq : s.seq = .commit after j len)
    (hsched : s.sched = []) (hj : j < len) (hread : readByte .encbuf s.cfg.txbufSize s.enc.buf j = .ok b) (fuel : Nat) :
    runMicro (fuel + 1) s = runMicro fuel ((s.pushedAll [b]).goto (.commit after (j + 1) len)) := by
  refine runMicro_step (by rw [hseq]; rfl) hsched (by simp [State.blocked, hseq]) ?_ fuel
  simp only [microStep, hseq, commitStep, if_pos hj, hread]
  rfl

/-- The turn of TX_COMMIT's loop behind the last byte ends the command. -/
theorem runMicro_commit_end {after : After} {len : Nat} {s : State} (hseq : s.seq = .commit after len len) (hsched : s.sched = [])
    (fuel : Nat) : runMicro (fuel + 1) s = .next (commitDone after true (zextNat len) s) := by
  have hend : microStep s = .ok (commitDone after true (zextNat len) s) := by simp [microStep, hseq, commitStep]
  rw [runMicro_step (by rw [hseq]; rfl) hsched (by simp [State.blocked, hseq]) hend]
  exact runMicro_idle (by rw [commitDone_idle]; rfl) fuel

/-- TX_COMMIT's loop, with no other agent due, pushes the bytes `bs` of the frame that are still to come, and ends. -/
theorem runMicro_commit {after : After} {j len : Nat} {s : State} {bs : List Byte} (hseq : s.seq = .commit after j len)
    (hsched : s.sched = []) (hlen : j + bs.length = len)
    (hbytes : ∀ i (h : i < bs.length), readByte .encbuf s.cfg.txbufSize s.enc.buf (j + i) = .ok bs[i])
    {fuel : Nat} (hfuel : bs.length < fuel) :
    runMicro fuel s = .next (commitDone after true (zextNat len) (s.pushedAll bs)) := by
  obtain ⟨fuel, rfl⟩ : ∃ f, fuel = f + 1 := ⟨fuel - 1, by omega⟩
  induction bs generalizing s j fuel with
  | nil =>
    rw [List.length_nil, Nat.add_zero] at hlen
    exact runMicro_commit_end (hlen ▸ hseq) hsched fuel
  | cons b bs ih =>
    rw [List.length_cons] at hlen hfuel
    obtain ⟨fuel, rfl⟩ : ∃ f, fuel = f + 1 := ⟨fuel - 1, by omega⟩
    have htail : ∀ i (h : i < bs.length), readByte .encbuf s.cfg.txbufSize s.enc.buf (j + 1 + i) = .ok bs[i] := fun i hi => by
      rw [Nat.add_assoc, Nat.add_comm 1]
      exact hbytes (i + 1) (Nat.succ_lt_succ hi)
    rw [runMicro_commit_byte (b := b) hseq hsched (by omega) (hbytes 0 (Nat.succ_pos _)),
      ih (s := (s.pushedAll [b]).goto (.commit after (j + 1) len)) rfl hsched (by omega) htail fuel (by omega)]
    exact congrArg _ (commitDone_goto after true _ (.commit after (j + 1) len) (s.pushedAll (b :: bs)))

/-- The bytes of a frame stand in ENCBUF. -/
theorem Enc.exists_frame {size : Nat} {e : Enc} (h : e.good size) :
    ∃ bs : List Byte, bs.length = e.len.toNat ∧ ∀ i (h : i < bs.length), e.buf.read i = some bs[i] := by
  obtain ⟨⟨-, -, hwritten⟩, -⟩ := h
  refine ⟨(List.range e.len.toNat).map fun i => (e.buf.read i).getD 0, by simp, fun i hi => ?_⟩
  have hi' : i < e.len.toNat := by simpa using hi
  obtain ⟨b, hb⟩ := Option.isSome_iff_exists.1 (hwritten i hi')
  simp [hb]

/-- With no other agent due, a frame that can be committed is pushed whole. -/
theorem launch_room_of_commits {s : State} (henc : s.enc.good s.cfg.txbufSize) (hsched : s.sched = []) (h : s.commits)
    (after : After) {bs : List Byte} (hlen : bs.length = s.enc.len.toNat)
    (hbytes : ∀ i (h : i < bs.length), s.enc.buf.read i = some bs[i]) :
    launch (.room after) s =
      .next (commitDone after true (zextNat s.enc.len.toNat) (s.pushedAll bs)) := by
  obtain ⟨-, hsize, -⟩ := henc
  have hstep : microStep (s.goto (.room after)) = .ok (s.goto (.commit after 0 s.enc.len.toNat)) :=
    congrArg Except.ok (roomStep_of_commits (s := s.goto (.room after)) h after)
  have hread : ∀ i (h : i < bs.length), readByte .encbuf s.cfg.txbufSize s.enc.buf (0 + i) = .ok bs[i] := fun i hi =>
    readByte_ok.2 (by rw [Nat.zero_add]; exact ⟨by omega, hbytes i hi⟩)
  have hfuel : bs.length < microFuel (s.goto (.commit after 0 s.enc.len.toNat)) := by
    have hhalf := s.enc.len.isLt
    rw [microFuel]; omega
  simp only [launch, hstep, resume]
  rw [runMicro_commit (s := s.goto _) rfl hsched (by omega) hread hfuel]
  exact congrArg _ (commitDone_goto after true _ (.commit after 0 s.enc.len.toNat) (s.pushedAll bs))

/-- TX_COMMIT of a frame that can be committed, with no other agent due. -/
theorem exec_txCommit_of_commits {s : State} (henc : s.enc.good s.cfg.txbufSize) (hidle : s.seq = .idle) (hsched : s.sched = [])
    (h : s.commits) {bs : List Byte} (hlen : bs.length = s.enc.len.toNat)
    (hbytes : ∀ i (h : i < bs.length), s.enc.buf.read i = some bs[i]) :
    exec .txCommit s = .next ((s.pushedAll bs).respond (s.enc.len.setWidth 32) true) := by
  have hlaunch := launch_room_of_commits henc hsched h .txCommit hlen hbytes
  rw [zextNat, BitVec.ofNat_toNat] at hlaunch
  exact hlaunch.trans (congrArg _ (State.finish_eq_respond (s := s.pushedAll bs) hidle _ true))

/-- TX_COMMIT of a frame that cannot be committed. -/
theorem exec_txCommit_of_not_commits {s : State} (hidle : s.seq = .idle) (h : ¬ s.commits) :
    exec .txCommit s = .next (s.respond 0 false) :=
  (launch_room_of_not_commits h .txCommit).trans (congrArg _ (State.finish_eq_respond hidle 0 false))

/-- Settles O26: the whole frame is pushed, and pushes store at the slots from TX.W on alone (R67). -/
theorem txCommitWritesTheWholeFrame : Obligations.TxCommitWritesTheWholeFrame := by
  intro s hgood hidle hsched hphase hovf hroom
  obtain ⟨bs, hlen, hbytes⟩ := Enc.exists_frame hgood.enc
  obtain ⟨-, hw, -, -, -, hgray, -⟩ := hgood.tx
  have hround : bs.length ≤ s.cfg.nTx := by
    have hfree : s.tx.free s.cfg.nTx < s.cfg.nTx := subMod_lt (nTx_pos s.cfg) _ _
    omega
  have hring := Ring.pushAll_eq hw hgray bs
  rw [hlen] at hring
  refine ⟨_, exec_txCommit_of_commits hgood.enc hidle hsched ⟨hphase, hovf, hroom⟩ hlen hbytes, ?_, fun j hj => ?_, ?_⟩
  · exact congrArg (fun q => { s with tx := q }.respond (s.enc.len.setWidth 32) true) hring
  · exact (Ring.read_pushAll hw hround (hlen ▸ hj)).trans (hbytes j (hlen ▸ hj)).symm
  · refine sameBytesBut_of_space .txMem (space_of_ne_txMem rfl rfl rfl rfl) fun a ha => Ring.read_pushAll_other hw bs ?_
    exact fun j hj hslot => ha ⟨j, hlen ▸ hj, hslot⟩

/-- Settles O27: the command ends in its first micro-step, so no other agent has a turn in it (R67). -/
theorem txCommitIsAllOrNothing : Obligations.TxCommitIsAllOrNothing := by
  refine fun s hidle hcannot => exec_txCommit_of_not_commits hidle ?_
  rintro ⟨hphase, hovf, hroom⟩
  rcases hcannot with hopen | hoverflow | hfull
  · exact hopen hphase
  · simp [hovf] at hoverflow
  · omega

end Sys2Proof.Machine

/-! The statements of 41_crc.md. A turn of a bit loop shifts one bit out and applies the polynomial exactly when that bit is 1, and the
polynomial then sets the bit at the other end (its x^0 term). So from an accumulator with that end clear the loop can be
run backwards without the polynomial: CRC-32 ends at 0 after up to 4 bytes only from the accumulator that those bytes write in little
endian (R76), and CRC-8 ends at 0 after a byte only from that byte (R83). -/

namespace Sys2Proof.Machine

/-! ### The bit loop of CRC-32, backwards (R73) -/

theorem crc32Bit_of_odd {acc : Word} (h : acc.getLsbD 0 = true) : crc32Bit acc = (acc >>> 1) ^^^ 0xEDB88320#32 := if_pos h

theorem crc32Bit_of_even {acc : Word} (h : acc.getLsbD 0 = false) : crc32Bit acc = acc >>> 1 := if_neg (Bool.eq_false_iff.1 h)

/-- The polynomial's own top bit shows that it was applied. -/
theorem two_pow_31_le_crc32Bit {acc : Word} (h : acc.getLsbD 0 = true) : 2 ^ 31 ≤ (crc32Bit acc).toNat := by
  have hpoly : (0xEDB88320#32).msb = true := by decide
  have hmsb : (crc32Bit acc).msb = true := by simp [crc32Bit_of_odd h, BitVec.msb_ushiftRight, hpoly]
  simpa [BitVec.msb_eq_decide] using hmsb

/-- A value without the top bit comes from its double alone. -/
theorem crc32Bit_toNat_eq_iff {acc : Word} {k : Nat} (hk : k < 2 ^ 31) : (crc32Bit acc).toNat = k ↔ acc.toNat = 2 * k := by
  cases h : acc.getLsbD 0 with
  | true =>
    have hodd : acc.toNat % 2 = 1 := by simpa [BitVec.getLsbD] using h
    have happlied := two_pow_31_le_crc32Bit h
    omega
  | false =>
    have heven : acc.toNat % 2 = 0 := by simpa [BitVec.getLsbD] using h
    rw [crc32Bit_of_even h, BitVec.toNat_ushiftRight, Nat.shiftRight_eq_div_pow]
    omega

/-- A value with its top `n` bits clear comes, through `n` turns, from its shift by `n` alone. -/
theorem crc32Bits_toNat_eq_iff {n k : Nat} {acc : Word} (hk : 2 ^ n * k < 2 ^ 32) :
    (crc32Bits n acc).toNat = k ↔ acc.toNat = 2 ^ n * k := by
  induction n generalizing acc with
  | zero => simp [crc32Bits]
  | succ n ih =>
    have hdouble : 2 ^ (n + 1) * k = 2 * (2 ^ n * k) := by ring
    rw [crc32Bits, ih (by omega), crc32Bit_toNat_eq_iff (by omega), hdouble]

/-- XOR with a byte clears the low 8 bits exactly of a number that ends in that byte. -/
theorem xor_byte_eq_iff {a b k : Nat} (hb : b < 256) : a ^^^ b = 256 * k ↔ a = b + 256 * k := by
  have hdiv : (a ^^^ b) / 256 = a / 256 := by simpa [Nat.div_eq_of_lt hb] using Nat.xor_div_two_pow (a := a) (b := b) (n := 8)
  have hmod : (a ^^^ b) % 256 = 0 ↔ a % 256 = b := by
    rw [show (a ^^^ b) % 256 = a % 256 ^^^ b by simpa [Nat.mod_eq_of_lt hb] using Nat.xor_mod_two_pow (a := a) (b := b) (n := 8),
      Nat.xor_eq_zero_iff]
  omega

/-- A value below 2^24 comes, through a byte, only from the accumulator with that byte in front. -/
theorem step32_toNat_eq_iff {acc : Word} {b : Byte} {k : Nat} (hk : k < 2 ^ 24) :
    (step32 acc b).toNat = k ↔ acc.toNat = b.toNat + 256 * k := by
  have hxor : (acc ^^^ zext8 b).toNat = acc.toNat ^^^ b.toNat := by
    rw [BitVec.toNat_xor, zext8, BitVec.toNat_setWidth_of_le (by decide)]
  rw [step32, crc32Bits_toNat_eq_iff (by omega), hxor]
  exact xor_byte_eq_iff b.isLt

/-! ### The strings with residue 0 (R76) -/

/-- The number whose bytes, least significant first, are `p` (20_memory.md R33). -/
def leValue (p : List Byte) : Nat := Nat.ofDigits 256 (p.map BitVec.toNat)

@[simp] theorem leValue_nil : leValue [] = 0 := rfl

@[simp] theorem leValue_cons (b : Byte) (p : List Byte) : leValue (b :: p) = b.toNat + 256 * leValue p := by
  simp [leValue, Nat.ofDigits_cons]

theorem toNat_bytes_lt (p : List Byte) : ∀ d ∈ p.map BitVec.toNat, d < 256 := by
  simpa using fun b _ => BitVec.isLt (w := 8) b

theorem leValue_lt (p : List Byte) : leValue p < 256 ^ p.length := by
  simpa [leValue] using Nat.ofDigits_lt_base_pow_length (b := 256) (by decide) (toNat_bytes_lt p)

theorem leValue_inj {p q : List Byte} (hlen : p.length = q.length) : leValue p = leValue q ↔ p = q := by
  refine ⟨fun h => ?_, congrArg leValue⟩
  have hdigits := Nat.ofDigits_inj_of_len_eq (by decide) (by simpa using hlen) (toNat_bytes_lt p) (toNat_bytes_lt q) h
  exact List.map_injective_iff.2 (fun a b => BitVec.eq_of_toNat_eq) hdigits

/-- `le32` writes its word. -/
theorem leValue_le32 (v : Word) : leValue (le32 v) = v.toNat := by
  have := v.isLt
  simp only [le32, leValue_cons, leValue_nil, BitVec.extractLsb'_toNat, Nat.shiftRight_eq_div_pow]
  omega

/-- Up to 4 bytes bring the accumulator to 0 exactly when they write it in little endian. -/
theorem crc32_eq_zero_iff {p : List Byte} (hlen : p.length ≤ 4) (acc : Word) :
    crc32 p acc = 0 ↔ acc.toNat = leValue p := by
  induction p generalizing acc with
  | nil => simp [BitVec.toNat_eq]
  | cons b p ih =>
    have hshort : p.length ≤ 3 := Nat.le_of_succ_le_succ hlen
    have hbelow : leValue p < 2 ^ 24 := calc
      leValue p < 256 ^ p.length := leValue_lt p
      _ ≤ 256 ^ 3 := Nat.pow_le_pow_right (by decide) hshort
    calc crc32 (b :: p) acc = 0
      _ ↔ crc32 p (step32 acc b) = 0 := Iff.rfl
      _ ↔ (step32 acc b).toNat = leValue p := ih (by omega) _
      _ ↔ acc.toNat = leValue (b :: p) := by rw [step32_toNat_eq_iff hbelow, leValue_cons]

/-- The 4 bytes that bring an accumulator to 0 are its `le32`. -/
theorem crc32_eq_zero_iff_eq_le32 {c : List Byte} (hlen : c.length = 4) (acc : Word) : crc32 c acc = 0 ↔ c = le32 acc := by
  rw [crc32_eq_zero_iff hlen.le, ← leValue_le32 acc, eq_comm, leValue_inj hlen]

/-- Settles O31: all three parts are the strings of up to 4 bytes that bring an accumulator to 0; the seed 0xFFFFFFFF is too large
for fewer than 4. -/
theorem crc32ResidueIsZeroExactlyForItsOwnCrc : Obligations.Crc32ResidueIsZeroExactlyForItsOwnCrc := by
  refine ⟨fun s seed => ?_, fun s c seed hlen => ?_, fun p _ hlen hzero => ?_⟩
  · rw [crc32_append]
    exact (crc32_eq_zero_iff_eq_le32 rfl _).2 rfl
  · rw [crc32_append]
    exact crc32_eq_zero_iff_eq_le32 hlen _
  · have hseed : 0xFFFFFFFF = leValue p := (crc32_eq_zero_iff (by omega) _).1 hzero
    have hbelow : leValue p < 256 ^ 3 := (leValue_lt p).trans_le (Nat.pow_le_pow_right (by decide) hlen)
    omega

/-! ### The bit loop of CRC-8 (R81) -/

/-- The polynomial's x^0 term shows that it was applied, so no turn loses a 1. -/
theorem crc8Bit_eq_zero_iff (acc : Byte) : crc8Bit acc = 0 ↔ acc = 0 := by
  cases h : acc.getLsbD 7 with
  | true =>
    have hnonzero : acc ≠ 0 := by rintro rfl; simp at h
    have happlied : (crc8Bit acc).getLsbD 0 = true := by simp [crc8Bit, h]
    refine iff_of_false (fun hzero => ?_) hnonzero
    simp [hzero] at happlied
  | false =>
    have hsmall : acc.toNat < 128 := by simpa [BitVec.msb_eq_decide] using (BitVec.msb_eq_getLsbD_last acc).trans h
    have hdouble : (crc8Bit acc).toNat = 2 * acc.toNat := by
      rw [crc8Bit, if_neg (Bool.eq_false_iff.1 h), BitVec.toNat_shiftLeft, Nat.shiftLeft_eq]
      omega
    simp [BitVec.toNat_eq, hdouble]

theorem crc8Bits_eq_zero_iff (n : Nat) (acc : Byte) : crc8Bits n acc = 0 ↔ acc = 0 := by
  induction n generalizing acc with
  | zero => rfl
  | succ n ih => rw [crc8Bits, ih, crc8Bit_eq_zero_iff]

/-- A byte brings the accumulator to 0 exactly when it is the accumulator. -/
theorem step8_eq_zero_iff (acc b : Byte) : step8 acc b = 0 ↔ b = acc := by
  rw [step8, crc8Bits_eq_zero_iff]
  exact BitVec.xor_eq_zero_iff.trans eq_comm

/-- Settles O32: the check byte is the last byte folded (R83). -/
theorem sensorReadIsGoodExactlyForItsOwnCrc : Obligations.SensorReadIsGoodExactlyForItsOwnCrc :=
  fun d0 d1 c => step8_eq_zero_iff (crc8 [d0, d1]) c

/-! ### The six commands (R78 to R80, R84 to R86) -/

theorem exec_crc32Seed (v : Word) (s : State) : exec (.crc32Seed v) s = .next ({ s with crc32 := v }.respond v true) := rfl

theorem exec_crc32Put (b : Byte) (s : State) :
    exec (.crc32Put b) s = .next ({ s with crc32 := step32 s.crc32 b }.respond (step32 s.crc32 b) true) := rfl

theorem exec_crc32Rd (s : State) : exec .crc32Rd s = .next (s.respond s.crc32 true) := rfl

theorem exec_crc8Init (s : State) : exec .crc8Init s = .next ({ s with crc8 := 0 }.respond 0 true) := rfl

theorem exec_crc8Put (b : Byte) (s : State) :
    exec (.crc8Put b) s = .next ({ s with crc8 := step8 s.crc8 b }.respond (zext8 (step8 s.crc8 b)) true) := rfl

theorem exec_crc8Rd (s : State) : exec .crc8Rd s = .next (s.respond (zext8 s.crc8) true) := rfl

/-- RES[31:8] of an answered byte (R86). -/
theorem zext8_high (b : Byte) : (zext8 b).extractLsb' 8 24 = 0 := by
  refine BitVec.eq_of_getLsbD_eq fun i _ => ?_
  simp [zext8]

/-- The corner values and the example of R79. -/
theorem step32_values :
    step32 0 0x00 = 0 ∧ step32 0xFFFFFFFF 0xFF = 0x00FFFFFF ∧ step32 0xFFFFFFFF 0x00 = 0x2DFD1072 := by decide

/-- The corner values and the example of R85. -/
theorem step8_values :
    step8 0 0x00 = 0x00 ∧ step8 0 0x01 = 0x31 ∧ step8 0 0x80 = 0x7A ∧ step8 (step8 0 0x60) 0x00 = 0x55 ∧ step8 0x55 0x55 = 0x00 := by
  decide +kernel

/-- Settles O30: each command's arm writes its accumulator and answers; the byte steps are evaluated on the values of R79 and R85. -/
theorem crcCommandsUpdateTheirAccumulator : Obligations.CrcCommandsUpdateTheirAccumulator := by
  refine ⟨fun arg => ⟨rfl, ?_, rfl, rfl, ?_, rfl⟩, fun s v b => ?_⟩
  · exact congrArg Instr.crc32Put (operandB8_eq arg)
  · exact congrArg Instr.crc8Put (operandB8_eq arg)
  · obtain ⟨hzero32, hlow32, hexample32⟩ := step32_values
    exact ⟨exec_crc32Seed v s, exec_crc32Put b s, exec_crc32Rd s, exec_crc8Init s, exec_crc8Put b s, exec_crc8Rd s,
      fun c => exec_crc32Rd (State.resetIn c), zext8_high s.crc8, hzero32, hlow32, hexample32, step8_values⟩

end Sys2Proof.Machine

/-! The statements of 42_cobs.md, first part: COBS as a function (R87, R88). A string is a block of fewer than 254 bytes, or such a block
and a zero before a rest, or a block of 254 bytes before a rest. COBS has one equation for each, and its properties follow by induction
over these three shapes. -/

namespace Sys2Proof.Machine

/-! ### Segments -/

/-- There is a first segment, also of the empty string. -/
theorem exists_segments (s : List Byte) : ∃ h t, segments s = h :: t := by
  cases s with
  | nil => exact ⟨_, _, rfl⟩
  | cons b s =>
    unfold segments
    split
    · exact ⟨_, _, rfl⟩
    · split <;> exact ⟨_, _, rfl⟩

theorem segments_cons_zero (s : List Byte) : segments (0#8 :: s) = [] :: segments s := by
  obtain ⟨h, t, hs⟩ := exists_segments s
  simp [segments, hs]

theorem segments_cons_ne {b : Byte} (hb : b ≠ 0#8) {s h : List Byte} {t : List (List Byte)} (hs : segments s = h :: t) :
    segments (b :: s) = (b :: h) :: t := by
  simp [segments, hs, hb]

/-- A string without a zero goes in front of the first segment. -/
theorem segments_append {g : List Byte} (hg : 0#8 ∉ g) {s h : List Byte} {t : List (List Byte)} (hs : segments s = h :: t) :
    segments (g ++ s) = (g ++ h) :: t := by
  induction g with
  | nil => exact hs
  | cons b g ih =>
    rw [List.mem_cons, not_or] at hg
    exact segments_cons_ne (Ne.symm hg.1) (ih hg.2)

theorem segments_of_nonzero {g : List Byte} (hg : 0#8 ∉ g) : segments g = [g] := by
  simpa using segments_append hg (s := []) rfl

theorem segments_append_zero {g : List Byte} (hg : 0#8 ∉ g) (s : List Byte) : segments (g ++ 0#8 :: s) = g :: segments s := by
  simpa using segments_append hg (segments_cons_zero s)

/-! ### Blocks -/

/-- The code byte of a block (R87); of a full block it is 0xFF. -/
def blockCode (g : List Byte) : Byte := BitVec.ofNat 8 (g.length + 1)

theorem blockCode_toNat {g : List Byte} (hg : g.length ≤ 254) : (blockCode g).toNat = g.length + 1 := by
  rw [blockCode, BitVec.toNat_ofNat]
  omega

theorem blockCode_ne_zero {g : List Byte} (hg : g.length ≤ 254) : blockCode g ≠ 0 := fun h => by
  have := blockCode_toNat hg
  simp [h] at this

theorem blockCode_eq_full_iff {g : List Byte} (hg : g.length ≤ 254) : blockCode g = 0xFF#8 ↔ g.length = 254 := by
  rw [← BitVec.toNat_inj, blockCode_toNat hg]
  simp

/-- More fuel than bytes changes nothing. -/
theorem blocksFuel_eq {n m : Nat} {g : List Byte} (hn : g.length ≤ n) (hm : g.length ≤ m) : blocksFuel n g = blocksFuel m g := by
  induction n generalizing m g with
  | zero =>
    obtain rfl : g = [] := List.length_eq_zero_iff.1 (Nat.le_zero.1 hn)
    cases m <;> simp [blocksFuel]
  | succ n ih =>
    cases m with
    | zero =>
      obtain rfl : g = [] := List.length_eq_zero_iff.1 (Nat.le_zero.1 hm)
      simp [blocksFuel]
    | succ m => rw [blocksFuel, blocksFuel, ih (m := m)] <;> rw [List.length_drop] <;> omega

theorem blocks_short {g : List Byte} (hg : g.length < 254) : blocks g = blockCode g :: g := by
  unfold blocks
  cases hlen : g.length with
  | zero => simp [blocksFuel, blockCode, hlen]
  | succ n => rw [blocksFuel, if_neg (by omega)]; rfl

theorem blocks_full {g : List Byte} (hg : g.length = 254) (h : List Byte) : blocks (g ++ h) = blockCode g :: g ++ blocks h := by
  have hlen : (g ++ h).length = h.length + 253 + 1 := by rw [List.length_append]; omega
  have hcode : blockCode g = 0xFF#8 := (blockCode_eq_full_iff hg.le).2 hg
  rw [blocks, hlen, blocksFuel, if_pos (by omega), ← hg, List.take_left, List.drop_left, hcode,
    blocksFuel_eq (by omega) le_rfl]
  rfl

/-! ### The three shapes of a string -/

theorem cobs_short {g : List Byte} (hg : 0#8 ∉ g) (hlen : g.length < 254) : cobs g = blockCode g :: g := by
  simp [cobs, segments_of_nonzero hg, blocks_short hlen]

theorem cobs_zero {g : List Byte} (hg : 0#8 ∉ g) (hlen : g.length < 254) (s : List Byte) :
    cobs (g ++ 0#8 :: s) = blockCode g :: g ++ cobs s := by
  simp [cobs, segments_append_zero hg, blocks_short hlen]

theorem cobs_full {g : List Byte} (hg : 0#8 ∉ g) (hlen : g.length = 254) (s : List Byte) :
    cobs (g ++ s) = blockCode g :: g ++ cobs s := by
  obtain ⟨h, t, hs⟩ := exists_segments s
  simp [cobs, segments_append hg hs, hs, blocks_full hlen]

/-- A string continues the block `g` by a byte at a time, until a zero or the 254th byte ends the block. -/
theorem block_induction_from {P : List Byte → Prop}
    (last : ∀ g, 0#8 ∉ g → g.length < 254 → P g)
    (zero : ∀ g s, 0#8 ∉ g → g.length < 254 → P s → P (g ++ 0#8 :: s))
    (full : ∀ g s, 0#8 ∉ g → g.length = 254 → P s → P (g ++ s))
    (s g : List Byte) (hg : 0#8 ∉ g) (hlen : g.length < 254) : P (g ++ s) := by
  induction s generalizing g with
  | nil => exact (List.append_nil g).symm ▸ last g hg hlen
  | cons b s ih =>
    have hrest : P s := ih [] List.not_mem_nil (by decide)
    by_cases hb : b = 0#8
    · exact hb ▸ zero g s hg hlen hrest
    · have hgb : 0#8 ∉ g ++ [b] := by simpa [hg] using Ne.symm hb
      have hlenb : (g ++ [b]).length = g.length + 1 := by simp
      rw [List.append_cons]
      rcases Nat.lt_or_eq_of_le (Nat.succ_le_of_lt hlen) with hshort | hfull
      · exact ih _ hgb (by omega)
      · exact full _ s hgb (by omega) hrest

/-- Induction over the blocks of a string. -/
theorem block_induction {P : List Byte → Prop} (last : ∀ g, 0#8 ∉ g → g.length < 254 → P g)
    (zero : ∀ g s, 0#8 ∉ g → g.length < 254 → P s → P (g ++ 0#8 :: s))
    (full : ∀ g s, 0#8 ∉ g → g.length = 254 → P s → P (g ++ s)) (s : List Byte) : P s :=
  block_induction_from last zero full s [] List.not_mem_nil (by decide)

/-! ### The properties of R88 -/

theorem zero_notMem_block {g : List Byte} (hg : 0#8 ∉ g) (hlen : g.length ≤ 254) : 0#8 ∉ blockCode g :: g := by
  rw [List.mem_cons, not_or]
  exact ⟨Ne.symm (blockCode_ne_zero hlen), hg⟩

/-- R88 item 1. -/
theorem zero_notMem_cobs (s : List Byte) : 0#8 ∉ cobs s := by
  induction s using block_induction with
  | last g hg hlen => exact cobs_short hg hlen ▸ zero_notMem_block hg hlen.le
  | zero g s hg hlen ih =>
    rw [cobs_zero hg hlen, List.mem_append, not_or]
    exact ⟨zero_notMem_block hg hlen.le, ih⟩
  | full g s hg hlen ih =>
    rw [cobs_full hg hlen, List.mem_append, not_or]
    exact ⟨zero_notMem_block hg hlen.le, ih⟩

/-- The full blocks that COBS splits off the segments of a string: the sum of R88 item 2. -/
def fullBlocks (s : List Byte) : Nat := ((segments s).map fun g => g.length / 254).sum

theorem fullBlocks_short {g : List Byte} (hg : 0#8 ∉ g) (hlen : g.length < 254) : fullBlocks g = 0 := by
  simp [fullBlocks, segments_of_nonzero hg, Nat.div_eq_of_lt hlen]

theorem fullBlocks_zero {g : List Byte} (hg : 0#8 ∉ g) (hlen : g.length < 254) (s : List Byte) :
    fullBlocks (g ++ 0#8 :: s) = fullBlocks s := by
  simp [fullBlocks, segments_append_zero hg, Nat.div_eq_of_lt hlen]

theorem fullBlocks_full {g : List Byte} (hg : 0#8 ∉ g) (hlen : g.length = 254) (s : List Byte) :
    fullBlocks (g ++ s) = fullBlocks s + 1 := by
  obtain ⟨h, t, hs⟩ := exists_segments s
  have hdiv : (254 + h.length) / 254 = h.length / 254 + 1 := Nat.add_div_left _ (by decide)
  simp [fullBlocks, segments_append hg hs, hs, hlen, hdiv, Nat.add_right_comm]

/-- R88 item 2: one byte more than the string, and one for each full block. -/
theorem length_cobs (s : List Byte) : (cobs s).length = s.length + 1 + fullBlocks s := by
  induction s using block_induction with
  | last g hg hlen => simp [cobs_short hg hlen, fullBlocks_short hg hlen]
  | zero g s hg hlen ih => simp only [cobs_zero hg hlen, fullBlocks_zero hg hlen, List.length_append, List.length_cons]; omega
  | full g s hg hlen ih => simp only [cobs_full hg hlen, fullBlocks_full hg hlen, List.length_append, List.length_cons]; omega

/-- A full block takes 254 bytes of the string. -/
theorem fullBlocks_le (s : List Byte) : fullBlocks s ≤ s.length / 254 := by
  induction s using block_induction with
  | last g hg hlen => simp [fullBlocks_short hg hlen]
  | zero g s hg hlen ih => rw [fullBlocks_zero hg hlen, List.length_append, List.length_cons]; omega
  | full g s hg hlen ih => rw [fullBlocks_full hg hlen, List.length_append]; omega

/-- Settles O33: the length is exact, and a segment's full blocks are among those the whole string has room for (R88). -/
theorem cobsHasNoZeroAndBoundedLength : Obligations.CobsHasNoZeroAndBoundedLength := by
  refine ⟨fun s => ⟨zero_notMem_cobs s, length_cobs s, ?_, ?_⟩, rfl⟩
  · rw [length_cobs]
    exact Nat.le_add_right _ _
  · rw [length_cobs]
    exact Nat.add_le_add_left (fullBlocks_le s) _

end Sys2Proof.Machine

/-! The statements of 42_cobs.md, second part: the encoder's commands (R90 to R92). What ENC_PUT and ENC_END do has one equation for each
case of R91 and R92; no two of the places they write are the same, for the open block's code slot lies below ENC_LEN. -/

namespace Sys2Proof.Machine

/-! ### Stores in ENCBUF -/

/-- A byte written stays through a write at another place. -/
theorem Memory.read_write_write_first (m : Memory) {i j : Nat} (h : i ≠ j) (b c : Byte) :
    ((m.write i b).write j c).read i = some b := by
  rw [Memory.read_write_other _ _ _ _ h, Memory.read_write_self]

/-- Two writes change no other place. -/
theorem Memory.read_write_write_other (m : Memory) {a i j : Nat} (h : ¬ (a = i ∨ a = j)) (b c : Byte) :
    ((m.write i b).write j c).read a = m.read a := by
  rw [not_or] at h
  rw [Memory.read_write_other _ _ _ _ h.2, Memory.read_write_other _ _ _ _ h.1]

/-- A command on the encoder stores in ENCBUF alone. -/
theorem sameBytesBut_enc {s : State} {e : Enc} {stored : Nat → Prop} (h : ∀ a, ¬ stored a → e.buf.read a = s.enc.buf.read a)
    (res : Word) (ok : Bool) :
    sameBytesBut (fun sp a => sp = .encbuf ∧ stored a) s ({ s with enc := e }.respond res ok) := by
  refine sameBytesBut_of_space .encbuf (fun sp hsp => ?_) h
  cases sp with
  | encbuf => exact absurd rfl hsp
  | rxMem | txMem | decbuf | paybuf => rfl

/-! ### The effects, case by case -/

/-- A block gets its code byte, and the next one its slot: "a zero closes the block" (R91), and so does the 254th byte. -/
theorem Enc.nextBlock_eq {size : Nat} {e : Enc} (hcp : e.cp.toNat < size) (c : Byte) :
    (e.writeCode size c).map (Enc.openBlock size) =
      .ok (if size ≤ e.len.toNat then { e with buf := e.buf.write e.cp.toNat c, ovf := true }
        else { e with
          buf := (e.buf.write e.cp.toNat c).write e.len.toNat 0, len := e.len + 1, cp := e.len, code := 1 }) := by
  rw [Enc.writeCode_ok.2 ⟨hcp, rfl⟩]
  simp only [Except.map, Enc.openBlock_eq, BitVec.ofNat_toNat, BitVec.setWidth_eq]

section Put

variable {size : Nat} {e : Enc} {b : Byte}

theorem Enc.put_data_lost (h : e.accepts = true) (hb : b ≠ 0) (hfull : size ≤ e.len.toNat) :
    e.put size b = .ok { e with ovf := true } := by
  rw [Enc.put_data h hb, if_pos hfull]

/-- A data byte stored behind the frame and counted in its block (R91). -/
def Enc.store (e : Enc) (b : Byte) : Enc := { e with buf := e.buf.write e.len.toNat b, len := e.len + 1, code := e.code + 1 }

theorem Enc.put_data_inside (h : e.accepts = true) (hb : b ≠ 0) (hroom : e.len.toNat < size) (hcode : e.code ≠ 0xFE#8) :
    e.put size b = .ok (e.store b) := by
  have hnext : e.code + 1 ≠ 0xFF#8 := by bv_omega
  rw [Enc.put_data h hb, if_neg (Nat.not_le.2 hroom)]
  exact if_neg hnext

/-- The 254th byte of a block is stored, and then the block is closed. -/
theorem Enc.put_data_fills (h : e.accepts = true) (hb : b ≠ 0) (hroom : e.len.toNat < size) (hcode : e.code = 0xFE#8) :
    e.put size b = ((e.store b).writeCode size 0xFF).map (Enc.openBlock size) := by
  have hnext : e.code + 1 = 0xFF#8 := by rw [hcode]; rfl
  rw [Enc.put_data h hb, if_neg (Nat.not_le.2 hroom)]
  exact if_pos hnext

/-- "If the overflow hits the second alloc of the full-block branch, ENC_CODE stays 0xFF" (R91). -/
theorem Enc.put_data_fills_lost (hsize : size ≤ 65535) (h : e.accepts = true) (hb : b ≠ 0) (hroom : e.len.toNat < size)
    (hcp : e.cp.toNat < size) (hcode : e.code = 0xFE#8) (hfull : size ≤ e.len.toNat + 1) :
    e.put size b =
      .ok { e with buf := (e.buf.write e.len.toNat b).write e.cp.toNat 0xFF, ovf := true, len := e.len + 1, code := 0xFF } := by
  have hsucc : (e.store b).len.toNat = e.len.toNat + 1 := half_toNat_succ hroom hsize
  rw [Enc.put_data_fills h hb hroom hcode, Enc.nextBlock_eq (e := e.store b) hcp, hsucc, if_pos hfull, Enc.store, hcode]
  rfl

theorem Enc.put_data_fills_next (hsize : size ≤ 65535) (h : e.accepts = true) (hb : b ≠ 0) (hcp : e.cp.toNat < size)
    (hcode : e.code = 0xFE#8) (hroom : e.len.toNat + 1 < size) :
    e.put size b =
      .ok { e with
        buf := ((e.buf.write e.len.toNat b).write e.cp.toNat 0xFF).write (e.len.toNat + 1) 0
        len := e.len + 2, cp := e.len + 1, code := 1 } := by
  have hfirst : e.len.toNat < size := by omega
  have hsucc : (e.store b).len.toNat = e.len.toNat + 1 := half_toNat_succ hfirst hsize
  have htwo : (e.store b).len + 1 = e.len + 2 := BitVec.add_assoc e.len 1 1
  rw [Enc.put_data_fills h hb hfirst hcode, Enc.nextBlock_eq (e := e.store b) hcp, hsucc, htwo, if_neg (Nat.not_le.2 hroom)]
  rfl

theorem Enc.put_zero_lost (h : e.accepts = true) (hcp : e.cp.toNat < size) (hfull : size ≤ e.len.toNat) :
    e.put size 0 = .ok { e with buf := e.buf.write e.cp.toNat e.code, ovf := true } := by
  rw [Enc.put_zero h, Enc.nextBlock_eq hcp, if_pos hfull]

theorem Enc.put_zero_next (h : e.accepts = true) (hcp : e.cp.toNat < size) (hroom : e.len.toNat < size) :
    e.put size 0 =
      .ok { e with
        buf := (e.buf.write e.cp.toNat e.code).write e.len.toNat 0, len := e.len + 1, cp := e.len, code := 1 } := by
  rw [Enc.put_zero h, Enc.nextBlock_eq hcp, if_neg (Nat.not_le.2 hroom)]

/-- ENC_END writes the last code byte, and the delimiter behind it (R92). -/
theorem Enc.close_eq (h : e.accepts = true) (hcp : e.cp.toNat < size) :
    e.close size = .ok { ({ e with buf := e.buf.write e.cp.toNat e.code } : Enc).delimit size with phase := .closed } := by
  obtain ⟨hphase, hovf⟩ := Enc.accepts_iff.1 h
  rw [Enc.close, if_pos hphase, if_neg (Bool.eq_false_iff.1 hovf), Enc.writeCode_ok.2 ⟨hcp, rfl⟩]
  rfl

theorem Enc.close_lost (h : e.accepts = true) (hcp : e.cp.toNat < size) (hfull : size ≤ e.len.toNat) :
    e.close size = .ok { e with buf := e.buf.write e.cp.toNat e.code, phase := .closed, ovf := true } := by
  rw [Enc.close_eq h hcp, Enc.delimit_eq, if_pos hfull]

theorem Enc.close_complete (h : e.accepts = true) (hcp : e.cp.toNat < size) (hroom : e.len.toNat < size) :
    e.close size =
      .ok { e with
        buf := (e.buf.write e.cp.toNat e.code).write e.len.toNat 0, phase := .closed, len := e.len + 1 } := by
  rw [Enc.close_eq h hcp, Enc.delimit_eq, if_neg (Nat.not_le.2 hroom)]

theorem Enc.close_overflowed (hphase : e.phase = .opened) (hovf : e.ovf = true) :
    e.close size = .ok { e with phase := .closed } := by
  rw [Enc.close, if_pos hphase, if_pos hovf]

/-- An encoder within its invariant has the open block's code slot below ENC_LEN, inside ENCBUF. -/
theorem Enc.cp_of_accepts (hgood : e.good size) (h : e.accepts = true) :
    e.cp.toNat < e.len.toNat ∧ e.cp.toNat < size := by
  obtain ⟨-, hlen, -, -, hcp, -⟩ := hgood
  obtain ⟨hphase, -⟩ := Enc.accepts_iff.1 h
  obtain ⟨-, hbelow⟩ := hcp (by simp [hphase])
  exact ⟨hbelow, by omega⟩

end Put

/-! ### The commands -/

theorem exec_encBegin {s : State} (h : 2 ≤ s.cfg.txbufSize) :
    exec .encBegin s =
      .next ({ s with enc :=
        { buf := (s.enc.buf.write 0 0).write 1 0, phase := .opened, ovf := false, len := 2, cp := 1, code := 1 } }.respond 2 true) := by
  simp [exec, execEncBegin, Enc.start_eq s.enc h, outcomeOf, bind, Except.bind]

theorem exec_encPut_ignored {s : State} (h : s.enc.accepts = false) (b : Byte) :
    exec (.encPut b) s = .next (s.respond (zext16 s.enc.len) false) := by
  simp [exec, execEncPut, h]

theorem exec_encPut_accepted {s : State} {b : Byte} {e : Enc} (h : s.enc.accepts = true)
    (hput : s.enc.put s.cfg.txbufSize b = .ok e) {ok : Bool} (hok : (!e.ovf) = ok) :
    exec (.encPut b) s = .next ({ s with enc := e }.respond (zext16 e.len) ok) := by
  simp [exec, execEncPut, h, hput, outcomeOf, bind, Except.bind, hok]

theorem exec_encEnd_ignored {s : State} (h : s.enc.phase ≠ .opened) : exec .encEnd s = .next (s.respond 0 false) := by
  simp [exec, execEncEnd, h]

theorem exec_encEnd_opened {s : State} {e : Enc} (h : s.enc.phase = .opened) (hclose : s.enc.close s.cfg.txbufSize = .ok e)
    {ok : Bool} (hok : (!e.ovf) = ok) : exec .encEnd s = .next ({ s with enc := e }.respond (zext16 e.len) ok) := by
  simp [exec, execEncEnd, h, hclose, outcomeOf, bind, Except.bind, hok]

/-- Settles O34: ENC_BEGIN looks at no register, and its two bytes are ENCBUF[0] and ENCBUF[1] (R90). -/
theorem encBeginOpensAFrame : Obligations.EncBeginOpensAFrame := by
  refine ⟨fun _ => rfl, fun s hsize => ⟨_, exec_encBegin hsize, rfl, ?_, ?_, sameBytesBut_enc (fun a ha => ?_) _ _⟩⟩
  · exact Memory.read_write_write_first _ (by decide) 0 0
  · exact Memory.read_write_self _ 1 0
  · exact Memory.read_write_write_other _ (by omega) 0 0

/-- Settles O35: each case of R91 is one equation of ENC_PUT's effects; the places it writes differ, for the code slot lies below
ENC_LEN. -/
theorem encPutFollowsItsCases : Obligations.EncPutFollowsItsCases := by
  refine ⟨fun arg => congrArg Instr.encPut (operandB8_eq arg), fun s b hgood hsize => ?_⟩
  by_cases hclosed : s.enc.phase ≠ .opened ∨ s.enc.ovf = true
  · rw [if_pos hclosed]
    refine exec_encPut_ignored (Bool.eq_false_iff.2 fun h => ?_) b
    obtain ⟨hphase, hovf⟩ := Enc.accepts_iff.1 h
    simp [hphase, hovf] at hclosed
  rw [if_neg hclosed]
  simp only [ne_eq, not_or, not_not, Bool.not_eq_true] at hclosed
  have hok : (!s.enc.ovf) = true := by simp [hclosed.2]
  have haccepts : s.enc.accepts = true := Enc.accepts_iff.2 hclosed
  obtain ⟨hbelow, hcp⟩ := Enc.cp_of_accepts hgood haccepts
  split_ifs with hlost hinside hcut hnext hlostZero
  · exact exec_encPut_accepted haccepts (Enc.put_data_lost haccepts hlost.1 hlost.2) rfl
  · have hroom : s.enc.len.toNat < s.cfg.txbufSize := Nat.lt_of_not_le fun h => hlost ⟨hinside.1, h⟩
    refine ⟨_, exec_encPut_accepted haccepts (Enc.put_data_inside haccepts hinside.1 hroom hinside.2) hok, rfl, ?_, ?_⟩
    · exact Memory.read_write_self _ _ b
    · exact sameBytesBut_enc (fun a ha => Memory.read_write_other _ _ _ _ ha) _ _
  · have hroom : s.enc.len.toNat < s.cfg.txbufSize := Nat.lt_of_not_le fun h => hlost ⟨hcut.1, h⟩
    have hcode : s.enc.code = 0xFE#8 := not_not.1 fun h => hinside ⟨hcut.1, h⟩
    refine ⟨_, exec_encPut_accepted haccepts (Enc.put_data_fills_lost hsize haccepts hcut.1 hroom hcp hcode hcut.2) rfl, rfl, ?_, ?_, ?_⟩
    · exact Memory.read_write_write_first _ (Nat.ne_of_gt hbelow) _ _
    · exact Memory.read_write_self _ _ _
    · exact sameBytesBut_enc (fun a ha => Memory.read_write_write_other _ ha _ _) _ _
  · have hroom : s.enc.len.toNat + 1 < s.cfg.txbufSize := Nat.lt_of_not_le fun h => hcut ⟨hnext, h⟩
    have hcode : s.enc.code = 0xFE#8 := not_not.1 fun h => hinside ⟨hnext, h⟩
    refine ⟨_, exec_encPut_accepted haccepts (Enc.put_data_fills_next hsize haccepts hnext hcp hcode hroom) hok, rfl, ?_, ?_, ?_,
      sameBytesBut_enc (fun a ha => ?_) _ _⟩
    · exact (Memory.read_write_other _ _ _ _ (by omega)).trans (Memory.read_write_write_first _ (Nat.ne_of_gt hbelow) _ _)
    · exact Memory.read_write_write_first _ (by omega) _ _
    · exact Memory.read_write_self _ _ _
    · rw [Memory.read_write_write_other _ (by tauto), Memory.read_write_other _ _ _ _ (by tauto)]
  · obtain rfl : b = 0 := not_not.1 hnext
    refine ⟨_, exec_encPut_accepted haccepts (Enc.put_zero_lost haccepts hcp hlostZero) rfl, rfl, ?_, ?_⟩
    · exact Memory.read_write_self _ _ _
    · exact sameBytesBut_enc (fun a ha => Memory.read_write_other _ _ _ _ ha) _ _
  · obtain rfl : b = 0 := not_not.1 hnext
    refine ⟨_, exec_encPut_accepted haccepts (Enc.put_zero_next haccepts hcp (Nat.lt_of_not_le hlostZero)) hok, rfl, ?_, ?_, ?_⟩
    · exact Memory.read_write_write_first _ (Nat.ne_of_lt hbelow) _ _
    · exact Memory.read_write_self _ _ _
    · exact sameBytesBut_enc (fun a ha => Memory.read_write_write_other _ ha _ _) _ _

/-- Settles O36: an open frame is closed, complete or not; the code slot lies below ENC_LEN (R92). -/
theorem encEndFollowsItsCases : Obligations.EncEndFollowsItsCases := by
  refine ⟨fun _ => rfl, fun s hgood hsize => ?_⟩
  split_ifs with hphase hovf hlost
  · exact exec_encEnd_ignored hphase
  · rw [ne_eq, not_not] at hphase
    exact exec_encEnd_opened hphase (Enc.close_overflowed hphase hovf) (by rw [hovf]; rfl)
  all_goals
    rw [ne_eq, not_not] at hphase
    rw [Bool.not_eq_true] at hovf
    have haccepts : s.enc.accepts = true := Enc.accepts_iff.2 ⟨hphase, hovf⟩
    obtain ⟨hbelow, hcp⟩ := Enc.cp_of_accepts hgood haccepts
  · refine ⟨_, exec_encEnd_opened hphase (Enc.close_lost haccepts hcp hlost) rfl, rfl, ?_, ?_⟩
    · exact Memory.read_write_self _ _ _
    · exact sameBytesBut_enc (fun a ha => Memory.read_write_other _ _ _ _ ha) _ _
  · refine ⟨_, exec_encEnd_opened hphase (Enc.close_complete haccepts hcp (Nat.lt_of_not_le hlost)) (by rw [hovf]; rfl), rfl, ?_, ?_, ?_⟩
    · exact Memory.read_write_write_first _ (Nat.ne_of_lt hbelow) _ _
    · exact Memory.read_write_self _ _ _
    · exact sameBytesBut_enc (fun a ha => Memory.read_write_write_other _ ha _ _) _ _

end Sys2Proof.Machine

/-! The statements of 42_cobs.md, third part: the frame that ENC_BEGIN, ENC_PUTs and ENC_END build (R94). An open frame is the bytes already
closed and the block still open. ENC_PUT follows it byte by byte as long as what it closes to fits in ENCBUF, and what it closes to is
COBS of the bytes put. -/

namespace Sys2Proof.Machine

/-! ### Strings that stand in a byte space -/

/-- The bytes `bs` stand in the contents from index `i` on. -/
def Memory.holds (m : Memory) : Nat → List Byte → Prop
  | _, [] => True
  | i, b :: bs => m.read i = some b ∧ m.holds (i + 1) bs

@[simp] theorem Memory.holds_nil (m : Memory) (i : Nat) : m.holds i [] := trivial
@[simp] theorem Memory.holds_cons {m : Memory} {i : Nat} {b : Byte} {bs : List Byte} :
    m.holds i (b :: bs) ↔ m.read i = some b ∧ m.holds (i + 1) bs := Iff.rfl

theorem Memory.holds_append {m : Memory} {i : Nat} {as bs : List Byte} :
    m.holds i (as ++ bs) ↔ m.holds i as ∧ m.holds (i + as.length) bs := by
  induction as generalizing i with
  | nil => simp
  | cons a as ih => simp [ih, and_assoc, Nat.add_assoc, Nat.add_comm 1]

/-- A write before or behind the string keeps it. -/
theorem Memory.holds_write {m : Memory} {i a : Nat} {bs : List Byte} (h : m.holds i bs) (ha : a < i ∨ i + bs.length ≤ a) (b : Byte) :
    (m.write a b).holds i bs := by
  induction bs generalizing i with
  | nil => trivial
  | cons c cs ih =>
    obtain ⟨hhead, htail⟩ := h
    rw [List.length_cons] at ha
    exact ⟨(Memory.read_write_other m a i b (by omega)).trans hhead, ih htail (by omega)⟩

/-- A byte written right behind the string continues it. -/
theorem Memory.holds_write_behind {m : Memory} {i a : Nat} {bs : List Byte} (h : m.holds i bs) (ha : a = i + bs.length) (b : Byte) :
    (m.write a b).holds i (bs ++ [b]) := by
  subst ha
  exact Memory.holds_append.2 ⟨Memory.holds_write h (.inr le_rfl) b, Memory.read_write_self m _ b, trivial⟩

theorem Memory.read_of_holds {m : Memory} {i k : Nat} {bs : List Byte} (h : m.holds i bs) (hk : k < bs.length) :
    m.read (i + k) = some bs[k] := by
  induction bs generalizing i k with
  | nil => exact absurd hk (Nat.not_lt_zero k)
  | cons b bs ih =>
    obtain ⟨hhead, htail⟩ := h
    cases k with
    | zero => exact hhead
    | succ k => simpa [Nat.add_assoc, Nat.add_comm 1] using ih htail (Nat.lt_of_succ_lt_succ hk)

theorem holdsBytes_of_holds {s : State} {sp : Space} {bs : List Byte} (h : (s.space sp).holds 0 bs) : holdsBytes s sp bs :=
  fun i hi => by simpa [State.byteAt] using Memory.read_of_holds h hi

/-! ### An open frame -/

/-- A frame under construction: the bytes already closed, and the data bytes of the block still open. -/
structure OpenFrame where
  done : List Byte
  block : List Byte

/-- What the frame closes to: the open block gets its code byte. -/
def OpenFrame.bytes (f : OpenFrame) : List Byte := f.done ++ blockCode f.block :: f.block

/-- The open block is closed and an empty one is opened. -/
def OpenFrame.next (f : OpenFrame) : OpenFrame := { done := f.bytes, block := [] }

/-- A data byte joins the open block. -/
def OpenFrame.add (f : OpenFrame) (b : Byte) : OpenFrame := { f with block := f.block ++ [b] }

/-- One byte of the string: a zero closes the block, and so does the 254th data byte (R91). -/
def OpenFrame.put (f : OpenFrame) (b : Byte) : OpenFrame :=
  if b = 0#8 then f.next else if f.block.length = 253 then (f.add b).next else f.add b

/-- The bytes of a string, in order. -/
def OpenFrame.putAll (f : OpenFrame) (s : List Byte) : OpenFrame := s.foldl OpenFrame.put f

theorem OpenFrame.length_bytes (f : OpenFrame) : f.bytes.length = f.done.length + f.block.length + 1 := by
  rw [OpenFrame.bytes, List.length_append, List.length_cons]; rfl

theorem OpenFrame.length_bytes_next (f : OpenFrame) : f.next.bytes.length = f.bytes.length + 1 := f.next.length_bytes

theorem OpenFrame.length_bytes_add (f : OpenFrame) (b : Byte) : (f.add b).bytes.length = f.bytes.length + 1 := by
  simp only [OpenFrame.length_bytes, OpenFrame.add, List.length_append, List.length_singleton]; omega

/-- Every byte makes the frame longer. -/
theorem OpenFrame.length_bytes_lt_put (f : OpenFrame) (b : Byte) : f.bytes.length < (f.put b).bytes.length := by
  unfold OpenFrame.put
  split_ifs <;> simp only [OpenFrame.length_bytes_next, OpenFrame.length_bytes_add] <;> omega

/-- A block is closed before it holds 254 bytes. -/
theorem OpenFrame.length_block_put {f : OpenFrame} (h : f.block.length < 254) (b : Byte) : (f.put b).block.length < 254 := by
  unfold OpenFrame.put
  split_ifs with hb hfull
  · exact Nat.zero_lt_succ _
  · exact Nat.zero_lt_succ _
  · rw [OpenFrame.add, List.length_append, List.length_singleton]; omega

/-- A frame closes to COBS of what was put into it. -/
theorem OpenFrame.bytes_putAll (s : List Byte) {f : OpenFrame} (hblock : 0#8 ∉ f.block) (hlen : f.block.length < 254) :
    (f.putAll s).bytes = f.done ++ cobs (f.block ++ s) := by
  induction s generalizing f with
  | nil => rw [List.append_nil, cobs_short hblock hlen]; rfl
  | cons b s ih =>
    have hnext : ∀ f : OpenFrame, (f.next.putAll s).bytes = f.bytes ++ cobs s := fun f =>
      ih (f := f.next) List.not_mem_nil (Nat.zero_lt_succ _)
    show ((f.put b).putAll s).bytes = _
    by_cases hb : b = 0#8
    · subst hb
      rw [OpenFrame.put, if_pos rfl, hnext, cobs_zero hblock hlen, OpenFrame.bytes, List.append_assoc]
    · have hadded : 0#8 ∉ (f.add b).block := by simp [OpenFrame.add, hblock, Ne.symm hb]
      have hlenb : (f.add b).block.length = f.block.length + 1 := List.length_append
      rw [OpenFrame.put, if_neg hb, List.append_cons]
      change _ = f.done ++ cobs ((f.add b).block ++ s)
      split_ifs with hfull
      · rw [hnext, cobs_full hadded (by omega), OpenFrame.bytes, List.append_assoc]; rfl
      · exact ih hadded (by omega)

/-! ### The encoder follows the frame -/

/-- The encoder holds the open frame: the closed bytes, the open block's slot at ENC_CP, and behind it the block (R89, R91). -/
structure Enc.Builds (size : Nat) (e : Enc) (f : OpenFrame) : Prop where
  accepts : e.accepts = true
  len : e.len.toNat = f.bytes.length
  fits : f.bytes.length ≤ size
  cp : e.cp.toNat = f.done.length
  code : e.code = blockCode f.block
  done : e.buf.holds 0 f.done
  block : e.buf.holds (f.done.length + 1) f.block

/-- The encoder holds the open frame, or it has overflowed, and then the frame does not fit. -/
def Enc.Follows (size : Nat) (e : Enc) (f : OpenFrame) : Prop :=
  e.Builds size f ∨ (e.phase = .opened ∧ e.ovf = true) ∧ size < f.bytes.length

section Follow

variable {size : Nat} {e : Enc} {f : OpenFrame}

/-- The open block's slot lies inside ENCBUF. -/
theorem Enc.Builds.cp_lt (h : e.Builds size f) : e.cp.toNat < size := by
  have hfits := h.fits
  rw [OpenFrame.length_bytes] at hfits
  rw [h.cp]; omega

/-- With the code byte at ENC_CP the frame is what it closes to. -/
theorem Enc.Builds.holds_writeCode (h : e.Builds size f) : (e.buf.write e.cp.toNat e.code).holds 0 f.bytes := by
  rw [OpenFrame.bytes, List.append_cons, h.cp, h.code]
  refine Memory.holds_append.2 ⟨Memory.holds_write_behind h.done (Nat.zero_add _).symm _, ?_⟩
  rw [List.length_append, List.length_singleton, Nat.zero_add]
  exact Memory.holds_write h.block (.inl (Nat.lt_succ_self _)) _

theorem Enc.Builds.store (hsize : size ≤ 65535) (h : e.Builds size f) (hroom : e.len.toNat < size) (b : Byte) :
    (e.store b).Builds size (f.add b) where
  accepts := h.accepts
  len := by rw [f.length_bytes_add, ← h.len]; exact half_toNat_succ hroom hsize
  fits := by rw [f.length_bytes_add, ← h.len]; exact hroom
  cp := h.cp
  code := by simp [Enc.store, h.code, blockCode, OpenFrame.add, BitVec.ofNat_add]
  done := Memory.holds_write h.done (.inr (by rw [h.len, f.length_bytes]; omega)) b
  block := Memory.holds_write_behind h.block (by rw [h.len, f.length_bytes]; omega) b

/-- Where the next block's slot does not fit, the encoder overflows. -/
theorem Enc.Builds.nextBlock (hsize : size ≤ 65535) (h : e.Builds size f) :
    ∃ e', (e.writeCode size e.code).map (Enc.openBlock size) = .ok e' ∧ e'.Follows size f.next := by
  refine ⟨_, Enc.nextBlock_eq h.cp_lt _, ?_⟩
  obtain ⟨hphase, hovf⟩ := Enc.accepts_iff.1 h.accepts
  split
  · next hfull =>
    refine .inr ⟨⟨hphase, rfl⟩, ?_⟩
    rw [f.length_bytes_next, ← h.len]; omega
  · next hfull =>
    have hroom : e.len.toNat < size := Nat.lt_of_not_le hfull
    exact .inl {
      accepts := h.accepts
      len := by rw [f.length_bytes_next, ← h.len]; exact half_toNat_succ hroom hsize
      fits := by rw [f.length_bytes_next, ← h.len]; exact hroom
      cp := h.len
      code := rfl
      done := Memory.holds_write h.holds_writeCode (.inr (by rw [h.len, Nat.zero_add])) 0
      block := trivial }

theorem Enc.Builds.put (hsize : size ≤ 65535) (h : e.Builds size f) (hblock : f.block.length < 254) (b : Byte) :
    ∃ e', e.put size b = .ok e' ∧ e'.Follows size (f.put b) := by
  have hlonger := f.length_bytes_lt_put b
  by_cases hb : b = 0#8
  · subst hb
    have hclosed := h.nextBlock hsize
    rw [← Enc.put_zero h.accepts] at hclosed
    rw [OpenFrame.put, if_pos rfl]
    exact hclosed
  by_cases hlost : size ≤ e.len.toNat
  · refine ⟨_, Enc.put_data_lost h.accepts hb hlost, .inr ⟨⟨(Enc.accepts_iff.1 h.accepts).1, rfl⟩, ?_⟩⟩
    rw [h.len] at hlost; omega
  have hroom : e.len.toNat < size := Nat.lt_of_not_le hlost
  have hstore := h.store hsize hroom b
  rw [OpenFrame.put, if_neg hb]
  split_ifs with hfills
  · have hcode : e.code = 0xFE#8 := by rw [h.code, blockCode, hfills]
    have hfull : (e.store b).code = 0xFF := by rw [Enc.store, hcode]; rfl
    rw [Enc.put_data_fills h.accepts hb hroom hcode, ← hfull]
    exact hstore.nextBlock hsize
  · have hcode : e.code ≠ 0xFE#8 := fun hfe => by
      have hlen := blockCode_toNat hblock.le
      rw [← h.code, hfe] at hlen
      exact hfills (Nat.succ.inj hlen).symm
    exact ⟨_, Enc.put_data_inside h.accepts hb hroom hcode, .inl hstore⟩

theorem Enc.Follows.put (hsize : size ≤ 65535) (h : e.Follows size f) (hblock : f.block.length < 254) (b : Byte) :
    ∃ e', e.put size b = .ok e' ∧ e'.Follows size (f.put b) := by
  rcases h with h | ⟨hover, hlong⟩
  · exact h.put hsize hblock b
  · have hignored : e.accepts = false := by simp [Enc.accepts, hover.2]
    exact ⟨e, Enc.put_ignored hignored b, .inr ⟨hover, hlong.trans (f.length_bytes_lt_put b)⟩⟩

theorem Enc.Follows.putAll (hsize : size ≤ 65535) (h : e.Follows size f) (hblock : f.block.length < 254) (bs : List Byte) :
    ∃ e', Enc.putAll size e bs = .ok e' ∧ e'.Follows size (f.putAll bs) := by
  induction bs generalizing e f with
  | nil => exact ⟨e, rfl, h⟩
  | cons b bs ih =>
    obtain ⟨e₁, hput, h₁⟩ := h.put hsize hblock b
    obtain ⟨e', hputAll, h'⟩ := ih h₁ (OpenFrame.length_block_put hblock b)
    refine ⟨e', ?_, h'⟩
    rw [Enc.putAll, hput]
    exact hputAll

/-- ENC_END closes the frame; it is complete exactly when the delimiter fits too. -/
theorem Enc.Follows.close (hsize : size ≤ 65535) (h : e.Follows size f) :
    ∃ e', e.close size = .ok e' ∧ e'.phase = .closed ∧ (e'.ovf = false ↔ f.bytes.length + 1 ≤ size) ∧
      (e'.ovf = false → e'.len.toNat = f.bytes.length + 1 ∧ e'.buf.holds 0 (f.bytes ++ [0])) := by
  rcases h with h | ⟨⟨hphase, hovf⟩, hlong⟩
  · rw [← h.len]
    by_cases hlost : size ≤ e.len.toNat
    · exact ⟨_, Enc.close_lost h.accepts h.cp_lt hlost, rfl, by simpa using Nat.lt_succ_of_le hlost, nofun⟩
    · have hroom : e.len.toNat < size := Nat.lt_of_not_le hlost
      refine ⟨_, Enc.close_complete h.accepts h.cp_lt hroom, rfl,
        iff_of_true (Enc.accepts_iff.1 h.accepts).2 hroom, fun _ => ⟨half_toNat_succ hroom hsize, ?_⟩⟩
      exact Memory.holds_write_behind h.holds_writeCode (by rw [h.len, Nat.zero_add]) 0
  · refine ⟨_, Enc.close_overflowed hphase hovf, rfl, iff_of_false (by simp [hovf]) (by omega), fun hcomplete => ?_⟩
    simp [hovf] at hcomplete

end Follow

/-- The frame that ENC_BEGIN opens: the leading delimiter and an empty block (R90). -/
def OpenFrame.begun : OpenFrame := { done := [0], block := [] }

/-- What was begun and put closes to the delimiter and COBS. -/
theorem OpenFrame.bytes_begun_putAll (bs : List Byte) : (OpenFrame.begun.putAll bs).bytes = [0] ++ cobs bs :=
  OpenFrame.bytes_putAll bs List.not_mem_nil (Nat.zero_lt_succ _)

theorem Enc.begun_builds {size : Nat} (hsize : 2 ≤ size) (m : Memory) :
    Enc.Builds size { buf := (m.write 0 0).write 1 0, phase := .opened, ovf := false, len := 2, cp := 1, code := 1 } .begun where
  accepts := rfl
  len := rfl
  fits := hsize
  cp := rfl
  code := rfl
  done := ⟨Memory.read_write_write_first m (by decide) 0 0, trivial⟩
  block := trivial

/-! ### The sequence of commands -/

/-- A command of the sequence that completes is followed by the rest. -/
theorem issue_cons_of_next {i : Instr} {s t : State} (h : exec i s = .next t) (is : List Instr) :
    (issue (fun _ => true) (i :: is) s).2 = (issue (fun _ => true) is t).2 := by
  simp [issue, h]

/-- ENC_PUT has its effects on the encoder, in every phase, and answers. -/
theorem exec_encPut {s : State} {b : Byte} {e : Enc} (hput : s.enc.put s.cfg.txbufSize b = .ok e) :
    ∃ res ok, exec (.encPut b) s = .next ({ s with enc := e }.respond res ok) := by
  rcases Bool.eq_false_or_eq_true s.enc.accepts with haccepts | hignored
  · exact ⟨_, _, exec_encPut_accepted haccepts hput rfl⟩
  · rw [Enc.put_ignored hignored, Except.ok.injEq] at hput
    subst hput
    exact ⟨_, _, exec_encPut_ignored hignored b⟩

/-- A sequence of ENC_PUTs changes only the encoder and the answer. -/
theorem issue_encPuts {bs : List Byte} {s : State} {e e' : Enc} (hput : Enc.putAll s.cfg.txbufSize e bs = .ok e') (is : List Instr)
    (res : Word) (ok : Bool) :
    ∃ res' ok', (issue (fun _ => true) (bs.map .encPut ++ is) ({ s with enc := e }.respond res ok)).2 =
      (issue (fun _ => true) is ({ s with enc := e' }.respond res' ok')).2 := by
  induction bs generalizing e res ok with
  | nil =>
    rw [Enc.putAll, Except.ok.injEq] at hput
    exact ⟨res, ok, hput ▸ rfl⟩
  | cons b bs ih =>
    rcases hfirst : e.put s.cfg.txbufSize b with f | e₁ <;> simp only [Enc.putAll, hfirst, bind, Except.bind, reduceCtorEq] at hput
    obtain ⟨res₁, ok₁, hexec⟩ := exec_encPut (s := { s with enc := e }.respond res ok) hfirst
    obtain ⟨res', ok', hrest⟩ := ih hput res₁ ok₁
    exact ⟨res', ok', (issue_cons_of_next hexec _).trans hrest⟩

/-- Settles O38: the encoder follows the frame from ENC_BEGIN on, and the frame closes to COBS of the bytes put (R94). -/
theorem encoderBuildsTheCobsFrame : Obligations.EncoderBuildsTheCobsFrame := by
  intro s bs hmin hmax
  have hbegun := Enc.begun_builds (by omega : 2 ≤ s.cfg.txbufSize) s.enc.buf
  obtain ⟨e₁, hput, h₁⟩ := Enc.Follows.putAll hmax (.inl hbegun) (Nat.zero_lt_succ _) bs
  obtain ⟨e₂, hclose, hphase, hfits, hcomplete⟩ := h₁.close hmax
  have hlength : (OpenFrame.begun.putAll bs).bytes.length + 1 = 2 + (cobs bs).length := by
    rw [OpenFrame.bytes_begun_putAll, List.length_append, List.length_singleton]; omega
  rw [hlength] at hfits hcomplete
  rw [OpenFrame.bytes_begun_putAll] at hcomplete
  obtain ⟨res₁, ok₁, hputs⟩ := issue_encPuts (s := s) hput [.encEnd] 2 true
  have hend := exec_encEnd_opened (s := { s with enc := e₁ }.respond res₁ ok₁) ?_ hclose rfl
  · have hissue := ((issue_cons_of_next (exec_encBegin (by omega)) _).trans hputs).trans (issue_cons_of_next hend [])
    exact ⟨_, _, Prod.ext rfl hissue, hphase, hfits,
      fun h => ⟨(hcomplete h).1, holdsBytes_of_holds (hcomplete h).2⟩, rfl⟩
  · rcases h₁ with h₁ | ⟨⟨hopened, -⟩, -⟩
    · exact (Enc.accepts_iff.1 h₁.accepts).1
    · exact hopened

end Sys2Proof.Machine

/-! The statements of 42_cobs.md, fourth part: the decoder's commands, and the reads of both buffers (R93, R95 to R97). What DEC_PUT does
has one equation for each case of R96. -/

namespace Sys2Proof.Machine

/-! ### The effects, case by case -/

section Put

variable {size : Nat} {d : Dec} {x : Byte}

theorem Dec.emitByte_lost (hfull : size ≤ d.len.toNat) (v : Byte) : d.emitByte size v = { d with st := .ovf } := if_pos hfull

theorem Dec.emitByte_stored (hroom : d.len.toNat < size) (v : Byte) :
    d.emitByte size v = { d with buf := d.buf.write d.len.toNat v, len := d.len + 1 } := if_neg (Nat.not_le.2 hroom)

theorem Dec.put_delimiter (hst : d.st = .more) : d.put size 0 = d.putDelimiter := by
  rw [Dec.put, if_pos hst, if_pos rfl]

/-- A delimiter inside a block: the block is cut short. -/
theorem Dec.put_delimiter_inside (hst : d.st = .more) (hhave : d.have_ = true) (hrem : d.rem ≠ 0#8) :
    d.put size 0 = { d with st := .err } := by
  rw [Dec.put_delimiter hst]
  simp [Dec.putDelimiter, hhave, hrem]

theorem Dec.put_delimiter_between (hst : d.st = .more) (hbetween : ¬ (d.have_ = true ∧ d.rem ≠ 0#8)) :
    d.put size 0 = { d with st := .done } := by
  rw [Dec.put_delimiter hst]
  simpa [Dec.putDelimiter] using hbetween

theorem Dec.put_code (hst : d.st = .more) (hx : x ≠ 0) (hbetween : d.have_ = false ∨ d.rem = 0) : d.put size x = d.putCode size x := by
  rw [Dec.put, if_pos hst, if_neg hx, if_pos hbetween]

/-- The first code byte, and one behind a full block: no implied zero. -/
theorem Dec.put_code_plain (hst : d.st = .more) (hx : x ≠ 0) (hbetween : d.have_ = false ∨ d.rem = 0)
    (hplain : d.have_ = false ∨ d.code = 0xFF#8) : d.put size x = { d with have_ := true, code := x, rem := x - 1 } := by
  have hnone : ¬ (d.have_ = true ∧ ¬ d.code = 0xFF#8) := by
    rintro ⟨hhave, hcode⟩
    exact hplain.elim (by simp [hhave]) hcode
  simp [Dec.put_code hst hx hbetween, Dec.putCode, hnone, hst]

/-- Any other code byte first writes the implied zero of the block before. -/
theorem Dec.put_code_emit (hst : d.st = .more) (hx : x ≠ 0) (hhave : d.have_ = true) (hrem : d.rem = 0) (hcode : d.code ≠ 0xFF#8) :
    d.put size x =
      if (d.emitByte size 0).st = .more then { d.emitByte size 0 with code := x, rem := x - 1, have_ := true }
      else d.emitByte size 0 := by
  simp [Dec.put_code hst hx (.inr hrem), Dec.putCode, hhave, hcode]

theorem Dec.put_code_lost (hst : d.st = .more) (hx : x ≠ 0) (hhave : d.have_ = true) (hrem : d.rem = 0) (hcode : d.code ≠ 0xFF#8)
    (hfull : size ≤ d.len.toNat) : d.put size x = { d with st := .ovf } := by
  simp [Dec.put_code_emit hst hx hhave hrem hcode, Dec.emitByte_lost hfull]

theorem Dec.put_code_next (hst : d.st = .more) (hx : x ≠ 0) (hhave : d.have_ = true) (hrem : d.rem = 0) (hcode : d.code ≠ 0xFF#8)
    (hroom : d.len.toNat < size) :
    d.put size x = { d with buf := d.buf.write d.len.toNat 0, len := d.len + 1, code := x, rem := x - 1 } := by
  simp [Dec.put_code_emit hst hx hhave hrem hcode, Dec.emitByte_stored hroom, hst, hhave]

theorem Dec.put_data (hst : d.st = .more) (hx : x ≠ 0) (hhave : d.have_ = true) (hrem : d.rem ≠ 0#8) :
    d.put size x = d.putData size x := by
  rw [Dec.put, if_pos hst, if_neg hx, if_neg (by simp [hhave, hrem])]

theorem Dec.put_data_lost (hst : d.st = .more) (hx : x ≠ 0) (hhave : d.have_ = true) (hrem : d.rem ≠ 0#8)
    (hfull : size ≤ d.len.toNat) : d.put size x = { d with st := .ovf } := by
  simp [Dec.put_data hst hx hhave hrem, Dec.putData, Dec.emitByte_lost hfull]

theorem Dec.put_data_stored (hst : d.st = .more) (hx : x ≠ 0) (hhave : d.have_ = true) (hrem : d.rem ≠ 0#8)
    (hroom : d.len.toNat < size) :
    d.put size x = { d with buf := d.buf.write d.len.toNat x, len := d.len + 1, rem := d.rem - 1 } := by
  simp [Dec.put_data hst hx hhave hrem, Dec.putData, Dec.emitByte_stored hroom, hst]

end Put

/-! ### The commands -/

theorem exec_decBegin (s : State) : exec .decBegin s = .next ({ s with dec := s.dec.start }.respond 0 true) := rfl

theorem exec_decPut_ignored {s : State} (h : s.dec.st ≠ .more) (x : Byte) :
    exec (.decPut x) s = .next (s.respond (decStatusWord s.dec.st) false) := by
  simp [exec, execDecPut, h]

theorem exec_decPut_taken {s : State} {x : Byte} {d : Dec} (h : s.dec.st = .more) (hput : s.dec.put s.cfg.rxbufSize x = d)
    {st : DecStatus} (hst : d.st = st) :
    exec (.decPut x) s = .next ({ s with dec := d }.respond (decStatusWord st) (decStatusOk st)) := by
  simp [exec, execDecPut, h, hput, hst]

theorem exec_encRd_of_lt {s : State} {i : Half} {b : Byte} (hi : i < s.enc.len) (hsize : i.toNat < s.cfg.txbufSize)
    (hb : s.enc.buf.read i.toNat = some b) : exec (.encRd i) s = .next (s.respond (zext8 b) true) := by
  simp [exec, execEncRd, hi, readByte_ok.2 ⟨hsize, hb⟩, outcomeOf, bind, Except.bind]

theorem exec_encRd_of_not_lt {s : State} {i : Half} (hi : ¬ i < s.enc.len) : exec (.encRd i) s = .next (s.respond 0 false) :=
  if_neg hi

theorem exec_decRd_of_lt {s : State} {i : Half} {b : Byte} (hi : i < s.dec.len) (hsize : i.toNat < s.cfg.rxbufSize)
    (hb : s.dec.buf.read i.toNat = some b) : exec (.decRd i) s = .next (s.respond (zext8 b) true) := by
  simp [exec, execDecRd, hi, readByte_ok.2 ⟨hsize, hb⟩, outcomeOf, bind, Except.bind]

theorem exec_decRd_of_not_lt {s : State} {i : Half} (hi : ¬ i < s.dec.len) : exec (.decRd i) s = .next (s.respond 0 false) :=
  if_neg hi

/-- Settles O37: a written byte below the length is read, and only the answer is written (R93, R97). -/
theorem encRdAndDecRdReadBelowTheLength : Obligations.EncRdAndDecRdReadBelowTheLength := fun _ _ _ =>
  ⟨exec_encRd_of_lt, exec_encRd_of_not_lt, exec_decRd_of_lt, exec_decRd_of_not_lt⟩

/-- Settles O39: the decoder's registers are reset, and DECBUF is not among them (R95). -/
theorem decBeginResetsTheDecoder : Obligations.DecBeginResetsTheDecoder := by
  refine ⟨fun _ => rfl, fun s => ⟨_, exec_decBegin s, rfl, sameBytesBut_of_spaces fun sp => ?_⟩⟩
  cases sp <;> rfl

/-- A command on the decoder stores in DECBUF alone. -/
theorem sameBytesBut_dec {s : State} {d : Dec} {stored : Nat → Prop} (h : ∀ a, ¬ stored a → d.buf.read a = s.dec.buf.read a)
    (res : Word) (ok : Bool) :
    sameBytesBut (fun sp a => sp = .decbuf ∧ stored a) s ({ s with dec := d }.respond res ok) := by
  refine sameBytesBut_of_space .decbuf (fun sp hsp => ?_) h
  cases sp with
  | decbuf => exact absurd rfl hsp
  | rxMem | txMem | encbuf | paybuf => rfl

/-- Settles O40: each case of R96 is one equation of DEC_PUT's effects. -/
theorem decPutFollowsItsCases : Obligations.DecPutFollowsItsCases := by
  refine ⟨fun arg => congrArg Instr.decPut (operandB8_eq arg), fun s x => ?_⟩
  by_cases hst : s.dec.st = .more
  swap
  · rw [if_pos hst]
    exact exec_decPut_ignored hst x
  rw [if_neg (not_not.2 hst)]
  split_ifs with hcut hend hplain hlost hcode
  · obtain ⟨rfl, hhave, hrem⟩ := hcut
    exact exec_decPut_taken hst (Dec.put_delimiter_inside hst hhave hrem) (st := .err) rfl
  · subst hend
    exact exec_decPut_taken hst (Dec.put_delimiter_between hst fun h => hcut ⟨rfl, h⟩) (st := .done) rfl
  · exact exec_decPut_taken hst (Dec.put_code_plain hst hend hplain.1 hplain.2) hst
  all_goals
    have hhave : s.dec.have_ = true := Bool.not_eq_false _ ▸ fun h => hplain ⟨.inl h, .inl h⟩
  · by_cases hrem : s.dec.rem = 0
    · have hff : s.dec.code ≠ 0xFF#8 := fun h => hplain ⟨.inr hrem, .inr h⟩
      exact exec_decPut_taken hst (Dec.put_code_lost hst hend hhave hrem hff hlost) (st := .ovf) rfl
    · exact exec_decPut_taken hst (Dec.put_data_lost hst hend hhave hrem hlost) (st := .ovf) rfl
  · have hff : s.dec.code ≠ 0xFF#8 := fun h => hplain ⟨.inr hcode, .inr h⟩
    refine ⟨_, exec_decPut_taken hst (Dec.put_code_next hst hend hhave hcode hff (Nat.lt_of_not_le hlost)) hst, rfl, ?_, ?_⟩
    · exact Memory.read_write_self _ _ _
    · exact sameBytesBut_dec (fun a ha => Memory.read_write_other _ _ _ _ ha) _ _
  · refine ⟨_, exec_decPut_taken hst (Dec.put_data_stored hst hend hhave hcode (Nat.lt_of_not_le hlost)) hst, rfl, ?_, ?_⟩
    · exact Memory.read_write_self _ _ _
    · exact sameBytesBut_dec (fun a ha => Memory.read_write_other _ _ _ _ ha) _ _

end Sys2Proof.Machine

/-! The statements of 42_cobs.md, fifth part: the decoder gives back what COBS encoded (R98). Between two blocks the decoder owes at most one
implied zero. A block adds that zero and its own bytes to what has been decoded, or the decoder overflows, and then they do not fit. -/

namespace Sys2Proof.Machine

/-! ### Many bytes -/

/-- DEC_PUT's effects for each byte of a string, in order. -/
def Dec.putAll (size : Nat) (d : Dec) (xs : List Byte) : Dec := xs.foldl (Dec.put size) d

@[simp] theorem Dec.putAll_nil (size : Nat) (d : Dec) : d.putAll size [] = d := rfl

@[simp] theorem Dec.putAll_cons (size : Nat) (d : Dec) (x : Byte) (xs : List Byte) :
    d.putAll size (x :: xs) = (d.put size x).putAll size xs := rfl

theorem Dec.putAll_append (size : Nat) (d : Dec) (xs ys : List Byte) :
    d.putAll size (xs ++ ys) = (d.putAll size xs).putAll size ys := List.foldl_append

theorem Dec.putAll_terminal {d : Dec} (h : d.st ≠ .more) (size : Nat) (xs : List Byte) : d.putAll size xs = d := by
  induction xs with
  | nil => rfl
  | cons x xs ih => rw [Dec.putAll_cons, Dec.put_terminal h, ih]

/-! ### What has been decoded -/

/-- The decoder runs and holds the string `out`. -/
structure Dec.Holds (size : Nat) (d : Dec) (out : List Byte) : Prop where
  more : d.st = .more
  len : d.len.toNat = out.length
  fits : out.length ≤ size
  buf : d.buf.holds 0 out

/-- The implied zero that the next code byte is to write: that of a block with a code below 0xFF. -/
def Dec.owed (d : Dec) : List Byte := if d.have_ = true ∧ d.code ≠ 0xFF#8 then [0#8] else []

/-- Between two blocks: the decoder holds the string `out` and owes `owed`, or it has overflowed, and then `out` does not fit. -/
def Dec.Decoded (size : Nat) (d : Dec) (out owed : List Byte) : Prop :=
  d.Holds size out ∧ (d.have_ = false ∨ d.rem = 0#8) ∧ d.owed = owed ∨ d.st = .ovf ∧ size < out.length

section Decode

variable {size : Nat} {d : Dec} {out owed : List Byte}

/-- DEC_BEGIN (R95): nothing is decoded, nothing owed. -/
theorem Dec.start_decoded (size : Nat) (d : Dec) : d.start.Decoded size [] [] :=
  .inl ⟨⟨rfl, rfl, Nat.zero_le _, trivial⟩, .inl rfl, rfl⟩

/-- A byte written at DEC_LEN is one more byte decoded. -/
theorem Dec.Holds.append (hsize : size ≤ 65535) (h : d.Holds size out) (hroom : d.len.toNat < size) (v : Byte) {d' : Dec}
    (hst : d'.st = d.st) (hlen : d'.len = d.len + 1) (hbuf : d'.buf = d.buf.write d.len.toNat v) : d'.Holds size (out ++ [v]) where
  more := hst.trans h.more
  len := by rw [hlen, half_toNat_succ hroom hsize, h.len, List.length_append, List.length_singleton]
  fits := by rw [List.length_append, List.length_singleton, ← h.len]; exact hroom
  buf := hbuf ▸ Memory.holds_write_behind h.buf (by rw [h.len, Nat.zero_add]) v

/-- Once a string does not fit, no longer one does. -/
theorem Dec.Decoded.overflow (hst : d.st = .ovf) (hlong : size < out.length) (xs more owed : List Byte) :
    (d.putAll size xs).Decoded size (out ++ more) owed := by
  rw [Dec.putAll_terminal (by simp [hst])]
  exact .inr ⟨hst, by rw [List.length_append]; omega⟩

/-- A byte that is to be written at the end of DECBUF overflows the decoder. -/
theorem Dec.Holds.overflow (h : d.Holds size out) (hfull : size ≤ d.len.toNat) (xs : List Byte) {more : List Byte}
    (hmore : more ≠ []) (owed : List Byte) : (Dec.putAll size { d with st := .ovf } xs).Decoded size (out ++ more) owed := by
  rw [Dec.putAll_terminal (by simp)]
  have hpos := List.length_pos_iff.2 hmore
  refine .inr ⟨rfl, ?_⟩
  rw [List.length_append, ← h.len]; omega

/-- The data bytes of a block, up to its end. -/
theorem Dec.Holds.putAll_data (hsize : size ≤ 65535) (h : d.Holds size out) (hhave : d.have_ = true) {g : List Byte}
    (hg : 0#8 ∉ g) (hrem : d.rem.toNat = g.length) : (d.putAll size g).Decoded size (out ++ g) d.owed := by
  induction g generalizing d out with
  | nil =>
    rw [List.append_nil]
    exact .inl ⟨h, .inr (BitVec.eq_of_toNat_eq hrem), rfl⟩
  | cons x g ih =>
    rw [List.mem_cons, not_or] at hg
    rw [List.length_cons] at hrem
    have hx : x ≠ 0#8 := Ne.symm hg.1
    have hinside : d.rem ≠ 0#8 := fun hzero => by simp [hzero] at hrem
    rw [Dec.putAll_cons]
    by_cases hlost : size ≤ d.len.toNat
    · rw [Dec.put_data_lost h.more hx hhave hinside hlost]
      exact h.overflow hlost g (List.cons_ne_nil x g) _
    · have hroom : d.len.toNat < size := Nat.lt_of_not_le hlost
      have hrest : (d.rem - 1).toNat = g.length := by bv_omega
      rw [Dec.put_data_stored h.more hx hhave hinside hroom, List.append_cons]
      exact ih (h.append hsize hroom x rfl rfl rfl) hhave hg.2 hrest

/-- The zero owed behind a block (R87). -/
def blockOwed (g : List Byte) : List Byte := if g.length = 254 then [] else [0#8]

theorem Dec.owed_of_code {g : List Byte} (hlen : g.length ≤ 254) (hhave : d.have_ = true) (hcode : d.code = blockCode g) :
    d.owed = blockOwed g := by
  simp [Dec.owed, blockOwed, hhave, hcode, blockCode_eq_full_iff hlen]

/-- Behind its code byte a block's length is still to come. -/
theorem blockCode_sub_one {g : List Byte} (hlen : g.length ≤ 254) : (blockCode g - 1).toNat = g.length := by
  have := blockCode_toNat hlen
  bv_omega

/-- A block whose code byte has been taken. -/
theorem Dec.Holds.putAll_opened (hsize : size ≤ 65535) (h : d.Holds size out) {g : List Byte} (hg : 0#8 ∉ g) (hlen : g.length ≤ 254)
    (hhave : d.have_ = true) (hcode : d.code = blockCode g) (hrem : d.rem = blockCode g - 1) :
    (d.putAll size g).Decoded size (out ++ g) (blockOwed g) := by
  rw [← Dec.owed_of_code hlen hhave hcode]
  exact h.putAll_data hsize hhave hg (hrem ▸ blockCode_sub_one hlen)

/-- A block: its code byte writes the zero owed, and its data bytes follow. -/
theorem Dec.Decoded.putAll_block (hsize : size ≤ 65535) (h : d.Decoded size out owed) {g : List Byte} (hg : 0#8 ∉ g)
    (hlen : g.length ≤ 254) : (d.putAll size (blockCode g :: g)).Decoded size (out ++ owed ++ g) (blockOwed g) := by
  have hcode := blockCode_ne_zero hlen
  rcases h with ⟨h, hbetween, rfl⟩ | ⟨hst, hlong⟩
  · rw [Dec.putAll_cons]
    by_cases howes : d.have_ = true ∧ d.code ≠ 0xFF#8
    · obtain ⟨hhave, hshort⟩ := howes
      have hzero : d.rem = 0 := hbetween.resolve_left (by simp [hhave])
      rw [Dec.owed, if_pos ⟨hhave, hshort⟩]
      by_cases hlost : size ≤ d.len.toNat
      · rw [Dec.put_code_lost h.more hcode hhave hzero hshort hlost, List.append_assoc]
        exact h.overflow hlost g (List.cons_ne_nil 0 g) _
      · have hroom : d.len.toNat < size := Nat.lt_of_not_le hlost
        rw [Dec.put_code_next h.more hcode hhave hzero hshort hroom]
        refine Dec.Holds.putAll_opened hsize ?_ hg hlen hhave rfl rfl
        exact h.append hsize hroom 0 rfl rfl rfl
    · have hplain : d.have_ = false ∨ d.code = 0xFF#8 := by
        rwa [not_and_or, Bool.not_eq_true, not_not] at howes
      rw [Dec.owed, if_neg howes, List.append_nil, Dec.put_code_plain h.more hcode hbetween hplain]
      refine Dec.Holds.putAll_opened hsize ?_ hg hlen rfl rfl rfl
      exact ⟨h.more, h.len, h.fits, h.buf⟩
  · rw [List.append_assoc]
    exact Dec.Decoded.overflow hst hlong _ _ _

/-- COBS of a string adds the zero owed and the string. -/
theorem Dec.Decoded.putAll_cobs (hsize : size ≤ 65535) (h : d.Decoded size out owed) (s : List Byte) :
    ∃ owed', (d.putAll size (cobs s)).Decoded size (out ++ owed ++ s) owed' := by
  induction s using block_induction generalizing d out owed with
  | last g hg hlen => exact ⟨_, cobs_short hg hlen ▸ h.putAll_block hsize hg hlen.le⟩
  | zero g s hg hlen ih =>
    obtain ⟨owed', hrest⟩ := ih (h.putAll_block hsize hg hlen.le)
    rw [blockOwed, if_neg hlen.ne, List.append_assoc, List.append_assoc] at hrest
    rw [cobs_zero hg hlen, Dec.putAll_append]
    exact ⟨owed', hrest⟩
  | full g s hg hlen ih =>
    obtain ⟨owed', hrest⟩ := ih (h.putAll_block hsize hg hlen.le)
    rw [blockOwed, if_pos hlen, List.append_nil, List.append_assoc] at hrest
    rw [cobs_full hg hlen, Dec.putAll_append]
    exact ⟨owed', hrest⟩

/-- A delimiter between two blocks ends the frame, and no zero is owed any more. -/
theorem Dec.Decoded.put_delimiter (h : d.Decoded size out owed) :
    (out.length ≤ size → (d.put size 0).st = .done ∧ (d.put size 0).len.toNat = out.length ∧ (d.put size 0).buf.holds 0 out) ∧
    (size < out.length → (d.put size 0).st = .ovf) := by
  rcases h with ⟨h, hbetween, -⟩ | ⟨hst, hlong⟩
  · rw [Dec.put_delimiter_between h.more (by rintro ⟨hhave, hrem⟩; exact hbetween.elim (by simp [hhave]) hrem)]
    exact ⟨fun _ => ⟨rfl, h.len, h.buf⟩, fun hlong => absurd h.fits (Nat.not_le.2 hlong)⟩
  · rw [Dec.put_terminal (by simp [hst])]
    exact ⟨fun hfits => absurd hfits (Nat.not_le.2 hlong), fun _ => hst⟩

end Decode

/-! ### The sequence of commands -/

/-- DEC_PUT has its effects on the decoder, in every status, and answers. -/
theorem exec_decPut (s : State) (x : Byte) :
    ∃ res ok, exec (.decPut x) s = .next ({ s with dec := s.dec.put s.cfg.rxbufSize x }.respond res ok) := by
  by_cases hst : s.dec.st = .more
  · exact ⟨_, _, exec_decPut_taken hst rfl rfl⟩
  · rw [Dec.put_terminal hst]
    exact ⟨_, _, exec_decPut_ignored hst x⟩

/-- A sequence of DEC_PUTs changes only the decoder and the answer. -/
theorem issue_decPuts (xs : List Byte) (s : State) (d : Dec) (res : Word) (ok : Bool) :
    ∃ res' ok', (issue (fun _ => true) (xs.map .decPut) ({ s with dec := d }.respond res ok)).2 =
      .next ({ s with dec := d.putAll s.cfg.rxbufSize xs }.respond res' ok') := by
  induction xs generalizing d res ok with
  | nil => exact ⟨res, ok, rfl⟩
  | cons x xs ih =>
    obtain ⟨res₁, ok₁, hexec⟩ := exec_decPut ({ s with dec := d }.respond res ok) x
    obtain ⟨res', ok', hrest⟩ := ih (d.put s.cfg.rxbufSize x) res₁ ok₁
    exact ⟨res', ok', (issue_cons_of_next hexec _).trans hrest⟩

/-- DEC_BEGIN and the DEC_PUTs of a string. -/
theorem issue_decode (xs : List Byte) (s : State) :
    ∃ rs res ok, issue (fun _ => true) (.decBegin :: xs.map .decPut) s =
      (rs, .next ({ s with dec := s.dec.start.putAll s.cfg.rxbufSize xs }.respond res ok)) := by
  obtain ⟨res, ok, hputs⟩ := issue_decPuts xs s s.dec.start 0 true
  exact ⟨_, res, ok, Prod.ext rfl ((issue_cons_of_next (exec_decBegin s) _).trans hputs)⟩

/-- Settles O41: COBS of a string is decoded block by block, and the delimiter then ends the frame (R98). -/
theorem decoderInvertsCobs : Obligations.DecoderInvertsCobs := by
  intro s bs hsize
  obtain ⟨owed, hdecoded⟩ := (Dec.start_decoded s.cfg.rxbufSize s.dec).putAll_cobs hsize bs
  rw [List.append_nil, List.nil_append] at hdecoded
  constructor
  · obtain ⟨hfits, hlong⟩ := hdecoded.put_delimiter
    obtain ⟨rs, res, ok, hissue⟩ := issue_decode (cobs bs ++ [0]) s
    rw [Dec.putAll_append] at hissue
    refine ⟨rs, _, hissue, fun h => ?_, hlong, rfl⟩
    obtain ⟨hdone, hlen, hbytes⟩ := hfits h
    exact ⟨hdone, hlen, holdsBytes_of_holds hbytes⟩
  · obtain ⟨rs, res, ok, hissue⟩ := issue_decode (cobs bs) s
    refine ⟨rs, _, hissue, ?_⟩
    rcases hdecoded with ⟨h, -⟩ | ⟨hovf, -⟩
    · exact .inl h.more
    · exact .inr hovf

end Sys2Proof.Machine

/-! The statements of 43_protocol.md, first part: the payload buffer (R99, R100) and a send (R101 to R103). The worst case that R101 tests
bounds every frame, so a send that passes it builds a complete frame in ENCBUF, and TX_COMMIT's effects then send all of it or nothing. -/

namespace Sys2Proof.Machine

/-! ### The payload buffer -/

theorem exec_payClr (s : State) : exec .payClr s = .next ({ s with pay := { s.pay with len := 0 } }.respond 0 true) := rfl

theorem exec_payPut_of_room {s : State} (h : s.pay.len.toNat < s.cfg.payMax) (b : Byte) :
    exec (.payPut b) s = .next ({ s with pay := s.pay.append b }.respond (zext16 (s.pay.len + 1)) true) := if_pos h

theorem exec_payPut_of_full {s : State} (h : ¬ s.pay.len.toNat < s.cfg.payMax) (b : Byte) :
    exec (.payPut b) s = .next (s.respond (zext16 s.pay.len) false) := if_neg h

/-- Settles O42: with room the byte is appended, and a write at PAY_LEN stores at no other place (R99, R100). -/
theorem payloadIsStagedByteByByte : Obligations.PayloadIsStagedByteByByte := by
  refine ⟨fun arg => ⟨rfl, congrArg Instr.payPut (operandB8_eq arg)⟩, fun s b => ⟨exec_payClr s, fun hroom => ?_, fun hfull => ?_⟩⟩
  · refine ⟨_, exec_payPut_of_room hroom b, rfl, Memory.read_write_self s.pay.buf _ b, ?_⟩
    refine sameBytesBut_of_space .paybuf (fun sp hsp => ?_) fun a ha => Memory.read_write_other s.pay.buf _ a b ha
    cases sp with
    | paybuf => exact absurd rfl hsp
    | rxMem | txMem | encbuf | decbuf => rfl
  · exact exec_payPut_of_full hfull b

/-! ### The size of a frame (R101) -/

theorem length_packet (t : Byte) (payload : List Byte) : (packet t payload).length = packetLength payload.length := by
  simp only [packet, packetBody, packetLength, le32, List.length_append, List.length_cons, List.length_nil]

/-- FRAME_MAX bounds every frame: its COBS grows by a byte for each 254. -/
theorem length_frame_le (p : List Byte) : (frame p).length ≤ frameMax p.length := by
  have hcobs := length_cobs p
  have hblocks := fullBlocks_le p
  simp only [frame, frameMax, List.length_append, List.length_cons, List.length_nil]
  omega

/-! ### The frame in ENCBUF (R102) -/

/-- A frame that fits ENCBUF is built whole. -/
theorem buildFrame_of_fits {size : Nat} (hsize : size ≤ 65535) {t : Byte} {payload : List Byte}
    (hfits : (frame (packet t payload)).length ≤ size) (e : Enc) :
    ∃ e', buildFrame size t payload e = .ok e' ∧ e'.phase = .closed ∧ e'.ovf = false ∧
      e'.len.toNat = (frame (packet t payload)).length ∧ e'.buf.holds 0 (frame (packet t payload)) := by
  have hframe : frame (packet t payload) = (OpenFrame.begun.putAll (packet t payload)).bytes ++ [0] := by
    rw [OpenFrame.bytes_begun_putAll, frame]
  rw [hframe] at hfits ⊢
  rw [List.length_append, List.length_singleton] at hfits ⊢
  have hlonger := (OpenFrame.begun.putAll (packet t payload)).length_bytes
  have hmin : 2 ≤ size := by omega
  obtain ⟨e₁, hput, h₁⟩ := Enc.Follows.putAll hsize (.inl (Enc.begun_builds hmin e.buf)) (Nat.zero_lt_succ _) (packet t payload)
  obtain ⟨e₂, hclose, hphase, hcomplete, hheld⟩ := h₁.close hsize
  have hovf := hcomplete.2 hfits
  refine ⟨e₂, ?_, hphase, hovf, hheld hovf⟩
  simp only [buildFrame, Enc.start_eq e hmin, hput, bind, Except.bind]
  exact hclose

/-! ### A send -/

/-- A send up to its TX_COMMIT: CRC32_ACC holds the packet's CRC and ENCBUF its frame, and TX_COMMIT's effects are next. -/
def State.framed (s : State) (after : After) (t : Byte) (payload : List Byte) (e : Enc) : State :=
  { s with crc32 := Machine.crc32 (packetBody t payload) crc32Seed, enc := e }.goto (.room after)

theorem sendFrame_rejected {m : Nat} {s : State} (h : s.cfg.txbufSize < frameMax (packetLength m)) (after : After) (t : Byte)
    (src : Except Fault (List Byte)) : sendFrame after t m src s = .ok (commitDone after false 0 s) := if_pos h

theorem sendFrame_framed {m : Nat} {s : State} {t : Byte} {payload : List Byte} {e : Enc}
    (h : frameMax (packetLength m) ≤ s.cfg.txbufSize) (hbuild : buildFrame s.cfg.txbufSize t payload s.enc = .ok e) (after : After) :
    sendFrame after t m (.ok payload) s = .ok (s.framed after t payload e) := by
  simp only [sendFrame, if_neg (Nat.not_lt.2 h), hbuild, bind, Except.bind]
  rfl

/-- A command that has ended at once has no micro-step to take. -/
theorem launch_idle {s : State} (h : s.seq = .idle) : launch s.seq s = .next s := by
  have hstep : microStep (s.goto s.seq) = .ok s := by
    show microStep s = .ok s
    simp [microStep, h]
  simp only [launch, hstep]
  exact resume_idle (by rw [h]; rfl)

/-- Settles O43: the size check comes first, and the rejected send ends before any other agent's turn (R101). -/
theorem oversizedSendIsRejected : Obligations.OversizedSendIsRejected := by
  intro s t hidle n hover
  have hsend := sendFrame_rejected hover (.protoSend t) t (readBytes .paybuf s.cfg.payMax s.pay.buf 0 s.pay.len.toNat)
  simp only [exec, execProtoSend, hsend]
  rw [launch_idle (commitDone_idle _ _ _ s)]
  exact congrArg _ (State.finish_eq_respond (s := s.emit (.send t false)) hidle 0 false)

/-- PROTO_SEND of a payload whose frame ENCBUF has room for. -/
theorem exec_protoSend_framed {s : State} {t : Byte} {payload : List Byte} {e : Enc} (hpay : s.pay.good s.cfg.payMax)
    (hlen : payload.length = s.pay.len.toNat) (hbytes : holdsBytes s .paybuf payload)
    (hmax : frameMax (packetLength payload.length) ≤ s.cfg.txbufSize)
    (hbuild : buildFrame s.cfg.txbufSize t payload s.enc = .ok e) :
    exec (.protoSend t) s = launch (.room (.protoSend t)) (s.framed (.protoSend t) t payload e) := by
  obtain ⟨-, hsize⟩ := hpay
  have hread : readBytes .paybuf s.cfg.payMax s.pay.buf 0 payload.length = .ok payload :=
    readBytes_ok payload 0 fun k hk => by rw [Nat.zero_add]; exact ⟨by omega, hbytes k hk⟩
  simp only [exec, execProtoSend, ← hlen, hread, sendFrame_framed hmax hbuild]
  rfl

/-- The state behind a PROTO_SEND of a frame that was built: the CRC, the frame, the event and the answer. -/
def State.sent (s : State) (t : Byte) (payload : List Byte) (e : Enc) (ok : Bool) (len : Word) : State :=
  { s with
    crc32 := Machine.crc32 (packetBody t payload) crc32Seed, enc := e
    trace := s.trace ++ [.send t ok], res := len, ok := ok, rspValid := true }

/-- TX_COMMIT's effects inside a PROTO_SEND end in its event and its answer (R103). -/
theorem commitDone_framed {s : State} (hidle : s.seq = .idle) (t : Byte) (payload : List Byte) (e : Enc) (ok : Bool) (len : Word) :
    commitDone (.protoSend t) ok len (s.framed (.protoSend t) t payload e) = s.sent t payload e ok len := by
  rw [State.framed, commitDone_goto]
  exact State.finish_eq_respond (s := State.emit { s with crc32 := _, enc := e } (.send t ok)) hidle len ok

/-- Of the byte spaces the building of a frame writes ENCBUF alone. -/
theorem State.sent_space (s : State) (t : Byte) (payload : List Byte) (e : Enc) (ok : Bool) (len : Word) {sp : Space}
    (hsp : sp ≠ .encbuf) : (s.sent t payload e ok len).space sp = s.space sp := by
  cases sp with
  | encbuf => exact absurd rfl hsp
  | rxMem | txMem | decbuf | paybuf => rfl

/-- Pushes store in TX alone, at the slots from W on. -/
theorem sameBytesBut_pushedAll {s : State} (hw : s.tx.w < s.cfg.nTx) (bs : List Byte) :
    sameBytesBut (fun sp a => sp = .txMem ∧ ∃ j, j < bs.length ∧ a = (s.tx.w + j) % s.cfg.nTx) s (s.pushedAll bs) :=
  sameBytesBut_of_space .txMem (space_of_ne_txMem rfl rfl rfl rfl) fun _ ha =>
    Ring.read_pushAll_other hw bs fun j hj hslot => ha ⟨j, hj, hslot⟩

/-- A send whose frame is built and fits TX, with no other agent due. -/
theorem launch_framed_of_room {s : State} (hg : s.Good) (hidle : s.seq = .idle) (hsched : s.sched = []) {t : Byte}
    {payload f : List Byte} {e : Enc} (hbuild : buildFrame s.cfg.txbufSize t payload s.enc = .ok e) (hphase : e.phase = .closed)
    (hovf : e.ovf = false) (hlen : e.len.toNat = f.length) (hheld : e.buf.holds 0 f) (hroom : f.length ≤ s.tx.free s.cfg.nTx) :
    launch (.room (.protoSend t)) (s.framed (.protoSend t) t payload e) =
      .next ((s.pushedAll f).sent t payload e true (zextNat f.length)) := by
  have henc := buildFrame_good (sizes_le_of_valid hg.cfg).1 hg.enc hbuild
  have hlaunch := launch_room_of_commits (s := s.framed (.protoSend t) t payload e) henc hsched
    ⟨hphase, hovf, hlen.trans_le hroom⟩ (.protoSend t) hlen.symm
    fun i hi => (congrArg e.buf.read (Nat.zero_add i)).symm.trans (Memory.read_of_holds hheld hi)
  rw [← hlen]
  exact hlaunch.trans (congrArg _ (commitDone_framed (s := s.pushedAll f) hidle t payload e true _))

/-- A send whose frame is built and does not fit TX: it ends before any other agent's turn. -/
theorem launch_framed_of_no_room {s : State} (hidle : s.seq = .idle) {t : Byte} {payload : List Byte} {e : Enc}
    (hfull : s.tx.free s.cfg.nTx < e.len.toNat) :
    launch (.room (.protoSend t)) (s.framed (.protoSend t) t payload e) = .next (s.sent t payload e false 0) := by
  have hcannot : ¬ (s.framed (.protoSend t) t payload e).commits := fun ⟨_, _, hroom⟩ => Nat.not_le.2 hfull hroom
  exact (launch_room_of_not_commits hcannot _).trans (congrArg _ (commitDone_framed hidle t payload e false 0))

/-- Settles O44: the frame is built in ENCBUF, and TX_COMMIT's effects push it whole or not at all (R102, R103, R67). -/
theorem protoSendSendsTheFrame : Obligations.ProtoSendSendsTheFrame := by
  intro s t payload hg hidle hsched hlen hbytes hmax body c f fits
  have hsize := (sizes_le_of_valid hg.cfg).1
  have hframe : f.length ≤ s.cfg.txbufSize := by
    refine (length_frame_le (packet t payload)).trans ?_
    rw [length_packet]
    exact hmax
  obtain ⟨e, hbuild, hphase, hovf, hlenf, hheld⟩ := buildFrame_of_fits hsize hframe s.enc
  rw [exec_protoSend_framed hg.pay hlen hbytes hmax hbuild]
  obtain ⟨-, hw, -, -, -, hgray, -⟩ := hg.tx
  by_cases hroom : fits
  · have hlaunch := launch_framed_of_room hg hidle hsched hbuild hphase hovf hlenf hheld hroom
    refine ⟨_, hlaunch, rfl, hphase, hovf, hlenf, holdsBytes_of_holds hheld, fun _ => ⟨?_, ?_, ?_⟩, fun hfull => absurd hroom hfull⟩
    · exact Ring.contents_pushAll hg.tx hroom
    · exact congrArg (fun q => State.sent { s with tx := q } t payload e true (zextNat f.length)) (Ring.pushAll_eq hw hgray f)
    · intro sp a hkept
      rw [not_or] at hkept
      exact (congrArg (Memory.read · a) (State.sent_space _ _ _ _ _ _ hkept.1)).trans (sameBytesBut_pushedAll hw f sp a hkept.2)
  · have hlaunch := launch_framed_of_no_room hidle (payload := payload) (t := t) (hlenf.symm ▸ Nat.lt_of_not_le hroom)
    refine ⟨_, hlaunch, rfl, hphase, hovf, hlenf, holdsBytes_of_holds hheld, fun hfits => absurd hfits hroom, fun _ => ⟨rfl, ?_⟩⟩
    exact fun sp a hkept => congrArg (Memory.read · a) (State.sent_space _ _ _ _ _ _ hkept)

end Sys2Proof.Machine

/-! The statements of 43_protocol.md, second part: PROTO_POLL one micro-step at a time (R104 to R107). Each turn of the drain and each
outcome of the check has one equation. Neither faults in a Good state, and the turn's bound is never met, so a poll that no other agent
interrupts ends drained or halted. -/

namespace Sys2Proof.Machine

/-! ### One turn of the drain (R104) -/

theorem microStep_drain {s : State} {acc : Word} {k : Nat} (h : s.seq = .drain acc k) : microStep s = drainStep acc k s := by
  simp only [microStep, h]

theorem microStep_check {s : State} {acc : Word} (h : s.seq = .check acc) : microStep s = checkStep acc s := by
  simp only [microStep, h]

/-- A drain that popped nothing ends the command (R107). -/
theorem drainStep_empty {s : State} (h : s.cfg.rxcandSize ≤ 0 ∨ s.rx.avail s.cfg.nRx = 0) (acc : Word) :
    drainStep acc 0 s = .ok (s.finish acc true) := if_pos h

/-- A drain that popped a candidate ends in its check. -/
theorem drainStep_end {s : State} {k : Nat} (h : s.cfg.rxcandSize ≤ k ∨ s.rx.avail s.cfg.nRx = 0) (hk : k ≠ 0) (acc : Word) :
    drainStep acc k s = .ok (s.goto (.check acc)) := by
  simp only [drainStep, if_pos h, if_neg hk]

/-- The state behind the pop of a candidate's byte number `k`: the first one begins a new frame in the decoder. -/
def State.popped (s : State) (k : Nat) (x : Byte) : State :=
  { s with
    rx := s.rx.advance s.cfg.nRx
    dec := (if k = 0 then s.dec.start else s.dec).put s.cfg.rxbufSize x }

theorem drainStep_pop {s : State} {k : Nat} {x : Byte} (hk : k < s.cfg.rxcandSize) (havail : s.rx.avail s.cfg.nRx ≠ 0)
    (hx : s.rx.peek .rxMem s.cfg.nRx 0 = .ok x) (acc : Word) :
    drainStep acc k s = .ok ((s.popped k x).goto (if x = 0 then .check acc else .drain acc (k + 1))) := by
  have hgo : ¬ (s.cfg.rxcandSize ≤ k ∨ s.rx.avail s.cfg.nRx = 0) := not_or.2 ⟨Nat.not_le.2 hk, havail⟩
  simp only [drainStep, if_neg hgo, hx]
  rfl

/-- The drain gives a byte to the decoder as the commands do: DEC_BEGIN before the first, then DEC_PUT. -/
theorem exec_candidate_byte (s : State) (k : Nat) (x : Byte) :
    ∃ u v, (if k = 0 then exec .decBegin s else .next s) = .next u ∧ exec (.decPut x) u = .next v ∧ v.dec = (s.popped k x).dec := by
  unfold State.popped
  split
  · obtain ⟨res, ok, hput⟩ := exec_decPut ({ s with dec := s.dec.start }.respond 0 true) x
    exact ⟨_, _, exec_decBegin s, hput, rfl⟩
  · obtain ⟨res, ok, hput⟩ := exec_decPut s x
    exact ⟨_, _, rfl, hput, rfl⟩

/-! ### The check and its outcomes (R105, R106) -/

theorem checkStep_err {s : State} (h : s.dec.st = .err) (acc : Word) :
    checkStep acc s = .ok (discardCandidate .decErr acc s) := by simp only [checkStep, h]

theorem checkStep_ovf {s : State} (h : s.dec.st = .ovf) (acc : Word) :
    checkStep acc s = .ok (discardCandidate .decOvf acc s) := by simp only [checkStep, h]

theorem checkStep_more {s : State} (h : s.dec.st = .more) (acc : Word) :
    checkStep acc s = .ok (discardCandidate .incomplete acc s) := by simp only [checkStep, h]

theorem checkStep_undersize {s : State} (hst : s.dec.st = .done) (hlen : s.dec.len.toNat < 2) (acc : Word) :
    checkStep acc s = .ok (discardCandidate .undersize acc s) := by
  simp only [checkStep, hst, headerSize, if_pos hlen]

theorem checkStep_packet {s : State} {p : List Byte} (hst : s.dec.st = .done) (hlen : 2 ≤ s.dec.len.toNat)
    (hread : readBytes .decbuf s.cfg.rxbufSize s.dec.buf 0 s.dec.len.toNat = .ok p) (acc : Word) :
    checkStep acc s = .ok (checkPacket p acc s) := by
  simp only [checkStep, hst, headerSize, if_neg (Nat.not_lt.2 hlen), hread, bind, Except.bind]

theorem checkPacket_crc {p : List Byte} (h : crc32 p crc32Seed ≠ 0) (acc : Word) (s : State) :
    checkPacket p acc s = discardCandidate .crc acc { s with crc32 := crc32 p crc32Seed } := if_pos h

theorem checkPacket_version {p : List Byte} (hcrc : crc32 p crc32Seed = 0) (h : p.head? ≠ some protoVersion) (acc : Word)
    (s : State) : checkPacket p acc s = discardCandidate .version acc { s with crc32 := 0 } := by
  simp only [checkPacket, hcrc, ne_eq, not_true_eq_false, if_false, if_pos h]

theorem checkPacket_accepted {p : List Byte} (hcrc : crc32 p crc32Seed = 0) (h : p.head? = some protoVersion) (acc : Word)
    (s : State) : checkPacket p acc s = dispatch (p.getD 1 0) (acc + 1) { s with crc32 := 0 } := by
  simp only [checkPacket, hcrc, h, ne_eq, not_true_eq_false, if_false]

/-- An accepted packet is dispatched by the type byte that stands second in it. -/
theorem dispatch_type {p : List Byte} {ty : Byte} (hty : p[1]? = some ty) (acc : Word) (s : State) :
    dispatch (p.getD 1 0) acc s =
      if p[1]? = some s.cfg.typeReset then haltReset (s.emit (.dispatch s.cfg.typeReset))
      else if p[1]? = some s.cfg.typeNopIn then (s.emit (.dispatch s.cfg.typeNopIn)).goto (.drain acc 0)
      else (s.emit (.ignored (p.getD 1 0))).goto (.drain acc 0) := by
  have hget : p.getD 1 0 = ty := by rw [List.getD_eq_getElem?_getD, hty, Option.getD_some]
  simp only [dispatch, hget, hty, Option.some.injEq]
  split_ifs with hreset hnop
  · rw [hreset]
  · rw [hnop]
  · rfl

/-- The tests on the bytes of a packet, in the spec's order (R105), and its dispatch (R106). -/
theorem checkPacket_eq {p : List Byte} (hlen : 2 ≤ p.length) (acc : Word) (s : State) :
    checkPacket p acc s =
      if crc32 p crc32Seed ≠ 0 then discardCandidate .crc acc { s with crc32 := crc32 p crc32Seed }
      else if p.head? ≠ some protoVersion then discardCandidate .version acc { s with crc32 := 0 }
      else if p[1]? = some s.cfg.typeReset then haltReset ({ s with crc32 := 0 }.emit (.dispatch s.cfg.typeReset))
      else if p[1]? = some s.cfg.typeNopIn then
        ({ s with crc32 := 0 }.emit (.dispatch s.cfg.typeNopIn)).goto (.drain (acc + 1) 0)
      else ({ s with crc32 := 0 }.emit (.ignored (p.getD 1 0))).goto (.drain (acc + 1) 0) := by
  by_cases hcrc : crc32 p crc32Seed = 0
  · rw [if_neg (not_not.2 hcrc)]
    by_cases hversion : p.head? = some protoVersion
    · rw [if_neg (not_not.2 hversion), checkPacket_accepted hcrc hversion]
      exact dispatch_type (List.getElem?_eq_getElem hlen) (acc + 1) { s with crc32 := 0 }
    · rw [if_pos hversion, checkPacket_version hcrc hversion]
  · rw [if_pos hcrc, checkPacket_crc hcrc]

/-- The bytes that stand in DECBUF are what the check reads. -/
theorem readBytes_decbuf {s : State} {p : List Byte} (hlen : p.length = s.dec.len.toNat) (hbytes : holdsBytes s .decbuf p)
    (hsize : p.length ≤ s.cfg.rxbufSize) : readBytes .decbuf s.cfg.rxbufSize s.dec.buf 0 s.dec.len.toNat = .ok p := by
  rw [← hlen]
  exact readBytes_ok p 0 fun k hk => by rw [Nat.zero_add]; exact ⟨by omega, hbytes k hk⟩

/-- All the tests of the check, in the spec's order (R105). -/
theorem checkStep_eq {s : State} {p : List Byte} (hlen : p.length = s.dec.len.toNat) (hbytes : holdsBytes s .decbuf p)
    (hsize : p.length ≤ s.cfg.rxbufSize) (acc : Word) :
    checkStep acc s = .ok
      (if s.dec.st = .err then discardCandidate .decErr acc s
      else if s.dec.st = .ovf then discardCandidate .decOvf acc s
      else if s.dec.st = .more then discardCandidate .incomplete acc s
      else if p.length < 2 then discardCandidate .undersize acc s
      else checkPacket p acc s) := by
  cases hst : s.dec.st with
  | err => rw [checkStep_err hst, if_pos rfl]
  | ovf => rw [checkStep_ovf hst, if_neg nofun, if_pos rfl]
  | more => rw [checkStep_more hst, if_neg nofun, if_neg nofun, if_pos rfl]
  | done =>
    rw [if_neg nofun, if_neg nofun, if_neg nofun]
    split_ifs with hshort
    · exact checkStep_undersize hst (hlen ▸ hshort) acc
    · exact checkStep_packet hst (by omega) (readBytes_decbuf hlen hbytes hsize) acc

/-- Settles O45: the equations of the drain's turn and of the check (R104 to R106). -/
theorem candidateIsCheckedInOrder : Obligations.CandidateIsCheckedInOrder := by
  refine ⟨fun s acc k hseq => ⟨fun hend => ⟨fun hk => ?_, fun hk => ?_⟩, fun x hk havail hr hx => ?_⟩,
    fun s acc p hseq hlen hbytes hsize => ?_⟩
  · subst hk
    rw [microStep_drain hseq, drainStep_empty hend]
    rfl
  · rw [microStep_drain hseq, drainStep_end hend hk.ne']
    rfl
  · obtain ⟨u, v, hbegin, hput, hdec⟩ := exec_candidate_byte s k x
    refine ⟨u, v, hbegin, hput, ?_⟩
    rw [microStep_drain hseq, drainStep_pop hk havail (Ring.peek_head hr _ hx), hdec]
    rfl
  · intro again r
    rw [microStep_check hseq, checkStep_eq hlen hbytes hsize]
    by_cases hshort : p.length < 2
    · simp only [if_pos hshort]
      rfl
    · rw [checkPacket_eq (Nat.le_of_not_lt hshort)]
      rfl

/-! ### A poll that pops nothing (R107) -/

/-- A command of several micro-steps goes on behind its first one. -/
theorem launch_of_microStep {p : Seq} {s u : State} (h : microStep (s.goto p) = .ok u) : launch p s = resume u := by
  simp only [launch, h]

/-- Settles O46: the first turn of the drain ends the command, before any other agent's turn (R107). -/
theorem pollOfAnEmptyRing : Obligations.PollOfAnEmptyRing := by
  intro s hidle hempty
  have hfirst : microStep (s.goto (.drain 0 0)) = .ok (s.finish 0 true) :=
    (microStep_drain rfl).trans (drainStep_empty (s := s.goto _) (.inr hempty) 0)
  have hpoll := (launch_of_microStep hfirst).trans (resume_idle rfl)
  rw [State.finish_eq_respond hidle] at hpoll
  exact hpoll

/-! ### A poll does not fault -/

/-- Written bytes inside a space are read. -/
theorem readBytes_goes_on (sp : Space) {size : Nat} {m : Memory} (n i : Nat)
    (h : ∀ k, k < n → i + k < size ∧ (m.read (i + k)).isSome = true) : ∃ bs, readBytes sp size m i n = .ok bs := by
  induction n generalizing i with
  | zero => exact ⟨[], rfl⟩
  | succ n ih =>
    obtain ⟨hi, hwritten⟩ := h 0 (Nat.succ_pos n)
    obtain ⟨b, hb⟩ := Option.isSome_iff_exists.1 hwritten
    obtain ⟨bs, hbs⟩ := ih (i + 1) fun k hk => by
      rw [Nat.add_assoc, Nat.add_comm 1]
      exact h (k + 1) (Nat.succ_lt_succ hk)
    have hhead : readByte sp size m i = .ok b := readByte_ok.2 ⟨hi, hb⟩
    exact ⟨b :: bs, by simp only [readBytes, hhead, hbs, bind, Except.bind]⟩

/-- What a consumer sees at the head of its ring is written. -/
theorem Ring.peek_goes_on {n : Nat} {q : Ring} (h : q.good n) (hsees : q.avail n ≠ 0) (sp : Space) : ∃ x, q.peek sp n 0 = .ok x := by
  obtain ⟨-, hw, -, -, -, -, -, havail, -, hheld⟩ := h
  obtain ⟨x, hx⟩ := Option.isSome_iff_exists.1 (hheld 0 (by omega))
  exact ⟨x, Ring.peek_eq_ok (by omega) sp hx⟩

theorem drainStep_goes_on {s : State} (hrx : s.rx.good s.cfg.nRx) (acc : Word) (k : Nat) : ∃ t, drainStep acc k s = .ok t := by
  by_cases hend : s.cfg.rxcandSize ≤ k ∨ s.rx.avail s.cfg.nRx = 0
  · exact ⟨_, if_pos hend⟩
  · obtain ⟨hk, havail⟩ := not_or.1 hend
    obtain ⟨x, hx⟩ := Ring.peek_goes_on hrx havail .rxMem
    exact ⟨_, drainStep_pop (Nat.lt_of_not_le hk) havail hx acc⟩

theorem checkStep_goes_on {s : State} (hdec : s.dec.good s.cfg.rxbufSize) (acc : Word) : ∃ t, checkStep acc s = .ok t := by
  obtain ⟨⟨-, -, hwritten⟩, hlen, -⟩ := hdec
  cases hst : s.dec.st with
  | err => exact ⟨_, checkStep_err hst acc⟩
  | ovf => exact ⟨_, checkStep_ovf hst acc⟩
  | more => exact ⟨_, checkStep_more hst acc⟩
  | done =>
    by_cases hshort : s.dec.len.toNat < 2
    · exact ⟨_, checkStep_undersize hst hshort acc⟩
    · obtain ⟨p, hp⟩ := readBytes_goes_on .decbuf (size := s.cfg.rxbufSize) (m := s.dec.buf) s.dec.len.toNat 0 fun k hk => by
        rw [Nat.zero_add]
        exact ⟨by omega, hwritten k hk⟩
      exact ⟨_, checkStep_packet hst (Nat.le_of_not_lt hshort) hp acc⟩

/-- With an empty schedule, CMD's loop keeps a property that every micro-step keeps, and does not fault where none does. -/
theorem runMicro_goes_on {P : State → Prop} (hsched : ∀ u, P u → u.sched = [])
    (hstep : ∀ u, P u → u.seq.running = true → ∃ v, microStep u = .ok v ∧ P v) (fuel : Nat) {s : State} (hs : P s) :
    ∃ t, runMicro fuel s = .next t ∧ P t := by
  induction fuel generalizing s with
  | zero => exact ⟨s, rfl, hs⟩
  | succ n ih =>
    by_cases hr : s.seq.running = true
    · by_cases hb : s.blocked = true
      · exact ⟨s, runMicro_blocked (hsched s hs) hb _, hs⟩
      · obtain ⟨v, hv, hPv⟩ := hstep s hs hr
        rw [runMicro_step hr (hsched s hs) (Bool.not_eq_true _ ▸ hb) hv]
        exact ih hPv
    · exact ⟨s, runMicro_idle (Bool.not_eq_true _ ▸ hr) _, hs⟩

/-! ### What a poll leaves alone, and how it ends (R107, R123) -/

/-- What no micro-step of PROTO_POLL writes. -/
abbrev samePollFrame (s t : State) : Prop :=
  t.cfg = s.cfg ∧ t.pay = s.pay ∧ t.enc = s.enc ∧ t.tx = s.tx ∧ t.crc8 = s.crc8 ∧ t.sens = s.sens ∧ t.ill = s.ill ∧
  t.bus = s.bus ∧ t.cmds = s.cmds ∧ t.sched = s.sched

/-- Nothing has been answered since the state `s`. -/
abbrev sameAnswer (s t : State) : Prop := t.res = s.res ∧ t.ok = s.ok ∧ t.rspValid = s.rspValid

/-- Where a PROTO_POLL begun in the state `s` can stand: at a turn of a drain or a check, at its end, or halted. -/
inductive PollStatus (s t : State) : Prop
  | draining (acc : Word) (k : Nat) (hseq : t.seq = .drain acc k) (hanswer : sameAnswer s t)
  | checking (acc : Word) (hseq : t.seq = .check acc) (hanswer : sameAnswer s t)
  | drained (hseq : t.seq = .idle) (hok : t.ok = true) (hrsp : t.rspValid = true) (hempty : t.rx.avail t.cfg.nRx = 0)
  | halted (hseq : t.seq = .halted) (hanswer : sameAnswer s t)

/-- A PROTO_POLL begun in the state `s`, with no other agent due, in progress or over. -/
structure Polling (s t : State) : Prop where
  good : t.Good
  sched : t.sched = []
  frame : samePollFrame s t
  status : PollStatus s t

/-- A dispatch emits an event, and then the next drain begins or the block halts. -/
theorem dispatch_cases (ty : Byte) (acc : Word) (s : State) :
    ∃ e, dispatch ty acc s = (s.emit e).goto (.drain acc 0) ∨ dispatch ty acc s = haltReset (s.emit e) := by
  unfold dispatch
  split_ifs
  · exact ⟨_, .inr rfl⟩
  · exact ⟨_, .inl rfl⟩
  · exact ⟨_, .inl rfl⟩

/-- What a check can do: it writes CRC32_ACC and an event, and then the next drain begins or the block halts. -/
theorem checkStep_cases {acc : Word} {s t : State} (h : checkStep acc s = .ok t) :
    ∃ crc e, (∃ acc', t = ({ s with crc32 := crc }.emit e).goto (.drain acc' 0)) ∨ t = haltReset ({ s with crc32 := crc }.emit e) := by
  rcases checkStep_ok h with ⟨code, rfl⟩ | ⟨p, -, rfl⟩
  · exact ⟨s.crc32, _, .inl ⟨acc, rfl⟩⟩
  · by_cases hcrc : crc32 p crc32Seed = 0
    · by_cases hversion : p.head? = some protoVersion
      · obtain ⟨e, hdispatch⟩ := dispatch_cases (p.getD 1 0) (acc + 1) { s with crc32 := 0 }
        rw [checkPacket_accepted hcrc hversion]
        exact ⟨0, e, hdispatch.imp_left fun hdrain => ⟨acc + 1, hdrain⟩⟩
      · exact ⟨_, _, .inl ⟨acc, checkPacket_version hcrc hversion acc s⟩⟩
    · exact ⟨_, _, .inl ⟨acc, checkPacket_crc hcrc acc s⟩⟩

theorem drainStep_status {s u v : State} {acc : Word} {k : Nat} (hcand : 1 ≤ u.cfg.rxcandSize) (hanswer : sameAnswer s u)
    (h : drainStep acc k u = .ok v) : samePollFrame u v ∧ PollStatus s v := by
  rcases drainStep_ok h with ⟨hend, rfl⟩ | ⟨-, x, -, rfl⟩
  · by_cases hk : k = 0
    · rw [if_pos hk]
      exact ⟨by simp [samePollFrame], .drained rfl rfl rfl (hend.resolve_left (by omega))⟩
    · rw [if_neg hk]
      exact ⟨by simp [samePollFrame], .checking acc rfl hanswer⟩
  · refine ⟨by simp [samePollFrame], ?_⟩
    by_cases hx : x = 0
    · exact .checking acc (if_pos hx) hanswer
    · exact .draining acc (k + 1) (if_neg hx) hanswer

theorem checkStep_status {s u v : State} {acc : Word} (hanswer : sameAnswer s u) (h : checkStep acc u = .ok v) :
    samePollFrame u v ∧ PollStatus s v := by
  obtain ⟨crc, e, ⟨acc', rfl⟩ | rfl⟩ := checkStep_cases h
  · exact ⟨by simp [samePollFrame], .draining acc' 0 rfl hanswer⟩
  · exact ⟨by simp [samePollFrame], .halted rfl hanswer⟩

theorem rxcandSize_of_valid {c : Config} (h : c.valid = true) : 1 ≤ c.rxcandSize ∧ c.rxcandSize ≤ 65535 := by
  have hsizes := ((config_valid_iff c).1 h).1
  simp only [Config.sizesOk, decide_eq_true_eq] at hsizes
  omega

/-- A poll in progress takes its next micro-step. -/
theorem Polling.microStep {s u : State} (h : Polling s u) (hr : u.seq.running = true) :
    ∃ v, microStep u = .ok v ∧ Polling s v := by
  have next {v : State} (hv : Machine.microStep u = .ok v) (heffect : samePollFrame u v ∧ PollStatus s v) : Polling s v :=
    { good := microStep_good h.good hv
      sched := (microStep_sched hv).trans h.sched
      frame := by simpa only [samePollFrame, h.frame] using heffect.1
      status := heffect.2 }
  cases h.status with
  | draining acc k hseq hanswer =>
    obtain ⟨v, hv⟩ := drainStep_goes_on h.good.rx acc k
    have hstep := (microStep_drain hseq).trans hv
    exact ⟨v, hstep, next hstep (drainStep_status (rxcandSize_of_valid h.good.cfg).1 hanswer hv)⟩
  | checking acc hseq hanswer =>
    obtain ⟨v, hv⟩ := checkStep_goes_on h.good.dec acc
    have hstep := (microStep_check hseq).trans hv
    exact ⟨v, hstep, next hstep (checkStep_status hanswer hv)⟩
  | drained hseq | halted hseq => simp [hseq, Seq.running] at hr

/-- A poll never waits on the bus, so where a turn of CMD ends with no other agent due, the poll is over. -/
theorem Polling.over {s t : State} (h : Polling s t) (hover : TurnOver t) : t.seq.running = false := by
  rcases hover with hended | ⟨hblocked, -⟩ | ⟨a, rest, hsched, -⟩
  · exact hended
  · cases h.status with
    | draining _ _ hseq | checking _ hseq => simp [State.blocked, hseq] at hblocked
    | drained hseq | halted hseq => rw [hseq]; rfl
  · simp [h.sched] at hsched

/-- A poll that no other agent interrupts runs to its end. -/
theorem Polling.resume {s u : State} (h : Polling s u) : ∃ t, resume u = .next t ∧ Polling s t ∧ t.seq.running = false := by
  obtain ⟨t, ht, hpolling⟩ := runMicro_goes_on (P := Polling s) (fun _ hu => hu.sched) (fun _ hu => hu.microStep) (microFuel u) h
  have hfuel : turnLeft u ≤ microFuel u := Nat.add_le_add_right (stepsLeft_le_of_good h.good) _
  exact ⟨t, ht, hpolling, hpolling.over (runMicro_turnOver _ hfuel ht)⟩

theorem Polling.start {s : State} (hg : s.Good) (hidle : s.seq = .idle) (hsched : s.sched = []) :
    Polling s (s.goto (.drain 0 0)) where
  good := (hg.quiet (by simp [hidle]) (by simp [hidle])).goto_good rfl
  sched := hsched
  frame := by simp [samePollFrame]
  status := .draining 0 0 rfl ⟨rfl, rfl, rfl⟩

/-- Settles O47: every micro-step of a poll goes on and keeps `Polling`, and the turn's bound is never met (R107, R123). -/
theorem pollEndsDrainedOrHalted : Obligations.PollEndsDrainedOrHalted := by
  intro s hg hidle hsched
  obtain ⟨u, hfirst, hu⟩ := (Polling.start hg hidle hsched).microStep rfl
  obtain ⟨t, ht, hpolling, hover⟩ := hu.resume
  obtain ⟨hcfg, hpay, henc, htx, hcrc8, hsens, hill, hbus, hcmds, -⟩ := hpolling.frame
  refine ⟨t, (launch_of_microStep hfirst).trans ht, hpay, henc, htx, hcrc8, hsens, hill, hbus, hcmds, ?_⟩
  cases hpolling.status with
  | draining _ _ hseq | checking _ hseq => simp [hseq, Seq.running] at hover
  | drained hseq hok hrsp hempty =>
    exact .inl ⟨hseq, hpolling.good.halted_eq_false (by simp [hseq]), hok, hrsp, hcfg ▸ hempty⟩
  | halted hseq hanswer =>
    obtain ⟨hres, hok, hrsp⟩ := hanswer
    have hhalted := hpolling.good.seq
    simp only [seqGood, hseq] at hhalted
    exact .inr ⟨hseq, hhalted, hok, hres, hrsp⟩

end Sys2Proof.Machine

/-! The statements of 43_protocol.md, third part: PROTO_POLL on a whole frame in RX (R103 to R107). The leading delimiter is a candidate of
its own, discarded as UNDERSIZE; the drain of what follows feeds the decoder COBS and its delimiter, which gives the packet back, and the
packet passes every test of the check. -/

namespace Sys2Proof.Machine

/-! ### Many pops -/

/-- A consumer that sees a byte reads it at the head, and behind it sees the rest. -/
theorem Ring.visible_cons {n : Nat} (hn : 0 < n) {q : Ring} {b : Option Byte} {rest : List (Option Byte)}
    (h : q.visible n = b :: rest) : q.avail n ≠ 0 ∧ q.mem.read (q.r % n) = b ∧ (q.advance n).visible n = rest := by
  have hlen : q.avail n = rest.length + 1 := by rw [← Ring.slots_length n (q.avail n) q]; exact congrArg List.length h
  have hrest : (q.advance n).avail n = rest.length := by rw [avail_advance_of_pos hn q (by omega), hlen, Nat.add_sub_cancel]
  rw [Ring.visible, hlen, Ring.slots_cons, List.cons.injEq] at h
  rw [Ring.visible, hrest]
  exact ⟨by omega, h⟩

/-- Behind the bytes popped a consumer sees the rest. -/
theorem Ring.visible_advance_iterate {n : Nat} (hn : 0 < n) {q : Ring} {xs rest : List (Option Byte)}
    (h : q.visible n = xs ++ rest) : ((Ring.advance n)^[xs.length] q).visible n = rest := by
  induction xs generalizing q with
  | nil => exact h
  | cons x xs ih =>
    obtain ⟨-, -, hrest⟩ := Ring.visible_cons hn h
    exact ih hrest

/-- Pops move R with its gray copy. -/
theorem Ring.advance_iterate {n : Nat} {q : Ring} (hr : q.r < n) (hgray : q.rg = gray q.r) (k : Nat) :
    (Ring.advance n)^[k] q = { q with r := (q.r + k) % n, rg := gray ((q.r + k) % n) } := by
  induction k generalizing q with
  | zero => simp [Nat.mod_eq_of_lt hr, ← hgray]
  | succ k ih =>
    rw [Function.iterate_succ_apply, ih (Nat.mod_lt _ (by omega)) rfl]
    simp [Ring.advance, Nat.add_assoc, Nat.add_comm 1]

/-- A consumer that pops all it sees has R at its view of W. -/
theorem Ring.advance_iterate_avail {n : Nat} {q : Ring} (h : q.good n) :
    (Ring.advance n)^[q.avail n] q = { q with r := q.wv, rg := gray q.wv } := by
  obtain ⟨-, -, hr, hwv, -, -, hgray, -⟩ := h
  rw [Ring.advance_iterate hr hgray, Ring.avail, add_subMod hwv hr]

/-! ### The drain of a candidate (R104) -/

/-- The decoder as a candidate's byte number `k` finds it. -/
def State.candidate (s : State) (k : Nat) : State := { s with dec := if k = 0 then s.dec.start else s.dec }

/-- The bytes `xs` popped from RX into the decoder. -/
def State.fed (s : State) (xs : List Byte) : State :=
  { s with rx := (Ring.advance s.cfg.nRx)^[xs.length] s.rx, dec := s.dec.putAll s.cfg.rxbufSize xs }

theorem State.candidate_of_ne {s : State} {k : Nat} (hk : k ≠ 0) : s.candidate k = s := by
  rw [State.candidate, if_neg hk]

/-- A turn of the drain that sees a byte, below the bound of a candidate. -/
theorem drainStep_byte {s : State} {k : Nat} {x : Byte} {rest : List (Option Byte)} (hk : k < s.cfg.rxcandSize)
    (hvisible : s.rx.visible s.cfg.nRx = some x :: rest) (acc : Word) :
    drainStep acc k s = .ok (((s.candidate k).fed [x]).goto (if x = 0 then .check acc else .drain acc (k + 1))) := by
  obtain ⟨havail, hread, -⟩ := Ring.visible_cons (nRx_pos s.cfg) hvisible
  exact drainStep_pop hk havail (Ring.peek_eq_ok (nRx_pos s.cfg) .rxMem hread) acc

/-- With no other agent due, the loop takes a turn of the drain. -/
theorem runMicro_drainStep {s t : State} {acc : Word} {k : Nat} (hseq : s.seq = .drain acc k) (hsched : s.sched = [])
    (h : drainStep acc k s = .ok t) (fuel : Nat) : runMicro (fuel + 1) s = runMicro fuel t :=
  runMicro_step (by rw [hseq]; rfl) hsched (by simp [State.blocked, hseq]) ((microStep_drain hseq).trans h) fuel

/-- With no other agent due, the loop takes a check. -/
theorem runMicro_checkStep {s t : State} {acc : Word} (hseq : s.seq = .check acc) (hsched : s.sched = [])
    (h : checkStep acc s = .ok t) (fuel : Nat) : runMicro (fuel + 1) s = runMicro fuel t :=
  runMicro_step (by rw [hseq]; rfl) hsched (by simp [State.blocked, hseq]) ((microStep_check hseq).trans h) fuel

theorem runMicro_drain_byte {s : State} {acc : Word} {k : Nat} {x : Byte} {rest : List (Option Byte)}
    (hseq : s.seq = .drain acc k) (hsched : s.sched = []) (hk : k < s.cfg.rxcandSize)
    (hvisible : s.rx.visible s.cfg.nRx = some x :: rest) (fuel : Nat) :
    runMicro (fuel + 1) s =
      runMicro fuel (((s.candidate k).fed [x]).goto (if x = 0 then .check acc else .drain acc (k + 1))) :=
  runMicro_drainStep hseq hsched (drainStep_byte hk hvisible acc) fuel

/-- With no other agent due, the drain pops a candidate up to its delimiter and goes on to its check. -/
theorem runMicro_drain {s : State} {acc : Word} {k : Nat} {xs : List Byte} {rest : List (Option Byte)}
    (hseq : s.seq = .drain acc k) (hsched : s.sched = []) (hzero : 0#8 ∉ xs) (hcand : k + xs.length < s.cfg.rxcandSize)
    (hvisible : s.rx.visible s.cfg.nRx = (xs ++ [0]).map some ++ rest) (fuel : Nat) :
    runMicro (fuel + (xs.length + 1)) s = runMicro fuel (((s.candidate k).fed (xs ++ [0])).goto (.check acc)) := by
  induction xs generalizing s k with
  | nil => exact runMicro_drain_byte hseq hsched hcand hvisible fuel
  | cons x xs ih =>
    rw [List.mem_cons, not_or] at hzero
    rw [List.length_cons] at hcand
    have hx : x ≠ 0 := Ne.symm hzero.1
    obtain ⟨-, -, hrest⟩ := Ring.visible_cons (nRx_pos s.cfg) hvisible
    rw [List.length_cons, ← Nat.add_assoc, runMicro_drain_byte hseq hsched (by omega) hvisible, if_neg hx,
      ih (s := ((s.candidate k).fed [x]).goto (.drain acc (k + 1))) rfl hsched hzero.2
        (show k + 1 + xs.length < s.cfg.rxcandSize by omega) hrest,
      State.candidate_of_ne (Nat.succ_ne_zero k)]
    rfl

/-! ### The packet (R50, R51) -/

theorem crc32_packet (t : Byte) (payload : List Byte) : crc32 (packet t payload) crc32Seed = 0 := by
  rw [packet, crc32_append]
  exact (crc32_eq_zero_iff_eq_le32 rfl _).2 rfl

theorem two_le_length_packet (t : Byte) (payload : List Byte) : 2 ≤ (packet t payload).length := by
  rw [length_packet, packetLength, headerSize, Nat.add_assoc]
  exact Nat.le_add_right _ _

/-- A frame has ended, and its packet stands in DECBUF. -/
structure Dec.HasPacket (d : Dec) (p : List Byte) : Prop where
  done : d.st = .done
  len : d.len.toNat = p.length
  bytes : d.buf.holds 0 p

/-- The decoder gives a packet back from its frame's COBS and delimiter (R98). -/
theorem Dec.start_putAll_hasPacket {size : Nat} (hsize : size ≤ 65535) {p : List Byte} (hfits : p.length ≤ size) (d : Dec) :
    (d.start.putAll size (cobs p ++ [0])).HasPacket p := by
  obtain ⟨owed, hdecoded⟩ := (Dec.start_decoded size d).putAll_cobs hsize p
  rw [List.append_nil, List.nil_append] at hdecoded
  obtain ⟨hst, hlen, hheld⟩ := hdecoded.put_delimiter.1 hfits
  rw [Dec.putAll_append]
  exact ⟨hst, hlen, hheld⟩

/-! ### A poll of a whole frame -/

/-- A frame's leading delimiter is a candidate of its own, and is discarded as UNDERSIZE (R105). -/
theorem runMicro_check_delimiter {s : State} {acc : Word} (hseq : s.seq = .check acc) (hsched : s.sched = [])
    (hst : s.dec.st = .done) (hlen : s.dec.len = 0) (fuel : Nat) :
    runMicro (fuel + 1) s = runMicro fuel (discardCandidate .undersize acc s) :=
  runMicro_checkStep hseq hsched (checkStep_undersize hst (by simp [hlen]) acc) fuel

/-- A packet that a send builds passes every test, and is dispatched by its type (R105, R106). -/
theorem runMicro_check_packet {s : State} {acc : Word} {t : Byte} {payload : List Byte} (hseq : s.seq = .check acc)
    (hsched : s.sched = []) (hd : s.dec.HasPacket (packet t payload)) (hsize : (packet t payload).length ≤ s.cfg.rxbufSize)
    (fuel : Nat) :
    runMicro (fuel + 1) s = runMicro fuel (dispatch t (acc + 1) { s with crc32 := 0 }) := by
  have hlen : 2 ≤ s.dec.len.toNat := hd.len ▸ two_le_length_packet t payload
  have hread := readBytes_decbuf hd.len.symm (holdsBytes_of_holds (s := s) (sp := .decbuf) hd.bytes) hsize
  rw [runMicro_checkStep hseq hsched (checkStep_packet hd.done hlen hread acc),
    checkPacket_accepted (crc32_packet t payload) rfl]
  rfl

theorem dispatch_goto (ty : Byte) (acc : Word) (p : Seq) (s : State) : dispatch ty acc (s.goto p) = dispatch ty acc s := rfl

/-- The state in which a packet is dispatched: `k` bytes popped, and the packet in the decoder `d`. -/
def State.received (s : State) (k : Nat) (d : Dec) : State :=
  { s with rx := (Ring.advance s.cfg.nRx)^[k] s.rx, dec := d, crc32 := 0 }

/-- Where all that CMD sees has been popped, RX.R stands at RX.WV. -/
theorem State.received_all {s : State} (h : s.rx.good s.cfg.nRx) {k : Nat} (hall : k = s.rx.avail s.cfg.nRx) (d : Dec) :
    s.received k d =
      { s with rx := { s.rx with r := s.rx.wv, rg := Machine.gray s.rx.wv }, dec := d, crc32 := 0 } := by
  rw [State.received, hall, Ring.advance_iterate_avail h]

/-- The drain of a packet's COBS and delimiter, its check and its dispatch. -/
theorem runMicro_drain_packet {s : State} {acc : Word} {t : Byte} {payload : List Byte} {rest : List (Option Byte)}
    (hseq : s.seq = .drain acc 0) (hsched : s.sched = []) (hcfg : s.cfg.valid = true)
    (hvisible : s.rx.visible s.cfg.nRx = (cobs (packet t payload) ++ [0]).map some ++ rest)
    (hcand : (cobs (packet t payload)).length + 1 ≤ s.cfg.rxcandSize) (hsize : (packet t payload).length ≤ s.cfg.rxbufSize) :
    ∃ d : Dec, d.HasPacket (packet t payload) ∧ ∀ fuel,
      runMicro (fuel + 1 + ((cobs (packet t payload)).length + 1)) s =
        runMicro fuel (dispatch t (acc + 1) (s.received (cobs (packet t payload) ++ [0]).length d)) := by
  obtain ⟨-, hmax, -⟩ := sizes_le_of_valid hcfg
  have hd := Dec.start_putAll_hasPacket hmax hsize s.dec
  refine ⟨_, hd, fun fuel => ?_⟩
  rw [runMicro_drain hseq hsched (zero_notMem_cobs _) (by rwa [Nat.zero_add]) hvisible,
    runMicro_check_packet (s := ((s.candidate 0).fed (cobs (packet t payload) ++ [0])).goto (.check acc)) rfl hsched hd hsize fuel]
  exact congrArg _ (dispatch_goto t (acc + 1) (.check acc) (s.received (cobs (packet t payload) ++ [0#8]).length
    (s.dec.start.putAll s.cfg.rxbufSize (cobs (packet t payload) ++ [0]))))

/-- PROTO_POLL, with no other agent due, of an RX that begins with a frame as a send builds it, up to the dispatch of its packet;
the turn has some micro-steps left. -/
theorem exec_protoPoll_frame {s : State} {t : Byte} {payload : List Byte} {rest : List (Option Byte)} (hcfg : s.cfg.valid = true)
    (hsched : s.sched = []) (hvisible : s.rx.visible s.cfg.nRx = (frame (packet t payload)).map some ++ rest)
    (hcand : (cobs (packet t payload)).length + 1 ≤ s.cfg.rxcandSize) (hsize : (packet t payload).length ≤ s.cfg.rxbufSize) :
    ∃ (d : Dec) (fuel : Nat), d.HasPacket (packet t payload) ∧ exec .protoPoll s =
      runMicro (fuel + 1) (dispatch t 1 ((s.emit (.discard .undersize)).received (frame (packet t payload)).length d)) := by
  have hmax := (rxcandSize_of_valid hcfg).2
  have hfirst : microStep (s.goto (.drain 0 0)) = .ok (((s.candidate 0).fed [0]).goto (.check 0)) :=
    (microStep_drain rfl).trans (drainStep_byte (s := s.goto (.drain 0 0)) (show 0 < s.cfg.rxcandSize by omega) hvisible 0)
  obtain ⟨-, -, hrest⟩ := Ring.visible_cons (nRx_pos s.cfg) hvisible
  obtain ⟨d, hd, hpacket⟩ := runMicro_drain_packet (s := discardCandidate .undersize 0 ((s.candidate 0).fed [0]))
    rfl hsched hcfg hrest hcand hsize
  obtain ⟨fuel, hfuel⟩ : ∃ fuel, 262144 = fuel + 1 + 1 + ((cobs (packet t payload)).length + 1) + 1 :=
    ⟨262140 - (cobs (packet t payload)).length, by omega⟩
  have hturn : microFuel (((s.candidate 0).fed [0]).goto (.check 0)) = 262144 :=
    congrArg (fun l : List Agent => 262144 + l.length) hsched
  refine ⟨d, fuel, hd, (launch_of_microStep hfirst).trans ?_⟩
  rw [resume, hturn, hfuel, runMicro_check_delimiter (s := ((s.candidate 0).fed [0]).goto (.check 0)) rfl hsched rfl rfl]
  exact (hpacket (fuel + 1)).trans (congrArg _ (dispatch_goto t 1 (.drain 0 0)
    ((s.emit (.discard .undersize)).received (frame (packet t payload)).length d)))

/-! ### What follows the dispatch (R106, R107) -/

theorem dispatch_reset (acc : Word) (s : State) :
    dispatch s.cfg.typeReset acc s = haltReset (s.emit (.dispatch s.cfg.typeReset)) := if_pos rfl

/-- The event of an accepted packet that does not halt the block. -/
def acceptEvent (c : Config) (ty : Byte) : Event := if ty = c.typeNopIn then .dispatch ty else .ignored ty

theorem dispatch_accept {ty : Byte} {s : State} (h : ty ≠ s.cfg.typeReset) (acc : Word) :
    dispatch ty acc s = (s.emit (acceptEvent s.cfg ty)).goto (.drain acc 0) := by
  rw [dispatch, if_neg h, acceptEvent]
  split_ifs <;> rfl

/-- With no other agent due, a drain that pops nothing ends the command. -/
theorem runMicro_drain_empty {s : State} {acc : Word} (hseq : s.seq = .drain acc 0) (hsched : s.sched = [])
    (hempty : s.rx.avail s.cfg.nRx = 0) (fuel : Nat) : runMicro (fuel + 1) s = .next (s.finish acc true) := by
  rw [runMicro_drainStep hseq hsched (drainStep_empty (.inr hempty) acc)]
  exact runMicro_idle rfl fuel

/-- With no other agent due and nothing more to see in RX, an accepted packet that does not halt the block ends the poll. -/
theorem runMicro_dispatch_accept {ty : Byte} {s : State} (hty : ty ≠ s.cfg.typeReset) (hsched : s.sched = [])
    (hempty : s.rx.avail s.cfg.nRx = 0) (acc : Word) (fuel : Nat) :
    runMicro (fuel + 1) (dispatch ty acc s) = .next ((s.emit (acceptEvent s.cfg ty)).finish acc true) := by
  rw [dispatch_accept hty]
  exact runMicro_drain_empty (s := (s.emit (acceptEvent s.cfg ty)).goto (.drain acc 0)) rfl hsched hempty fuel

/-- Settles O48: behind the dispatch RX is empty as seen, and the next drain ends the command (R107). -/
theorem polledFrameIsAccepted : Obligations.PolledFrameIsAccepted := by
  intro s t payload hg hidle hsched ht hvisible hcand hsize
  obtain ⟨d, fuel, hd, hpoll⟩ :=
    exec_protoPoll_frame (rest := []) hg.cfg hsched (hvisible.trans (List.append_nil _).symm) hcand hsize
  have hall : (frame (packet t payload)).length = s.rx.avail s.cfg.nRx := by
    rw [← Ring.slots_length s.cfg.nRx (s.rx.avail s.cfg.nRx) s.rx, ← List.length_map (f := some), ← hvisible]
    rfl
  have hreceived := State.received_all (s := s.emit (.discard .undersize)) hg.rx hall d
  obtain ⟨-, -, -, hwv, -⟩ := hg.rx
  rw [hreceived] at hpoll
  refine ⟨_, hpoll.trans (runMicro_dispatch_accept ?_ ?_ ?_ 1 fuel), ?_, hd.done, hd.len, holdsBytes_of_holds hd.bytes⟩
  · exact ht
  · exact hsched
  · exact subMod_self hwv
  · simp only [State.finish, State.respond, State.emit, acceptEvent, List.append_assoc, List.cons_append, List.nil_append, hidle]

/-- Settles O49: the dispatch of a RESET halts the block, and no byte behind the frame is popped (R106, R123). -/
theorem polledResetHaltsTheBlock : Obligations.PolledResetHaltsTheBlock := by
  intro s payload rest hg hidle hsched hvisible hcand hsize
  obtain ⟨d, fuel, -, hpoll⟩ := exec_protoPoll_frame hg.cfg hsched hvisible hcand hsize
  have hhalt := dispatch_reset 1 ((s.emit (.discard .undersize)).received (frame (packet s.cfg.typeReset payload)).length d)
  refine ⟨_, hpoll.trans ((congrArg _ hhalt).trans (runMicro_idle rfl _)), rfl, rfl, rfl, rfl, rfl, rfl, ?_, ?_⟩
  · rw [← List.length_map (f := some)]
    exact Ring.visible_advance_iterate (nRx_pos s.cfg) hvisible
  · exact List.append_assoc _ _ _

end Sys2Proof.Machine

/-! The statements of 44_sensor_bus.md, first part: the conversions (R111), and the two micro-steps of SENS_STEP that test the clock:
the wait on a phase (R108, R109) and the dwell (R113). -/

namespace Sys2Proof.Machine

/-! ### The conversions (R111) -/

/-- A number in the range of a 32-bit register is held unchanged. -/
theorem i32_toInt {v : Int} (hlow : -2 ^ 31 ≤ v) (hhigh : v < 2 ^ 31) : (i32 v).toInt = v := by
  rw [i32, BitVec.toInt_ofInt]
  exact Int.bmod_eq_of_le (by omega) (by omega)

/-- Both conversions scale a 16-bit code by a factor over 65536 and truncate, so the code comes to less than the factor. -/
theorem scaledCode_lt {factor : Nat} (hfactor : 0 < factor) (code : Half) :
    factor * code.toNat / 65536 < factor := by
  rw [Nat.div_lt_iff_lt_mul (by decide)]
  exact Nat.mul_lt_mul_of_pos_left code.isLt hfactor

/-- Settles O51: the scaled code lies below its factor, so neither range leaves 32 bits. -/
theorem conversionsAreExact : Obligations.ConversionsAreExact := by
  refine ⟨rfl, fun code => ?_⟩
  have hcode := code.isLt
  have htemp := scaledCode_lt (factor := 17572) (by decide) code
  have hhum := scaledCode_lt (factor := 12500) (by decide) code
  have hlowT : -4685 ≤ convT code := by simp only [convT]; omega
  have hhighT : convT code ≤ 12886 := by simp only [convT]; omega
  have hlowRh : -600 ≤ convRh code := by simp only [convRh]; omega
  have hhighRh : convRh code ≤ 11899 := by simp only [convRh]; omega
  refine ⟨by omega, by simp [convT], hlowT, hhighT, i32_toInt (by omega) (by omega),
    by simp [convRh], hlowRh, hhighRh, i32_toInt (by omega) (by omega)⟩

/-! ### One wait step (R108, R109) -/

theorem waitStep_answered {s : State} {r : BusAnswer} (h : s.bus.rsp = some r) (x : Xfer) (ph : Phase) (todo : List Phase) :
    waitStep x ph todo s = { s with bus := { s.bus with pend := none, rsp := none } }.goto (afterAnswer x ph todo r) := by
  simp only [waitStep, h]

theorem waitStep_timedOut {s : State} {x : Xfer} (h : s.bus.rsp = none) (htime : timedOut x s = true) (ph : Phase)
    (todo : List Phase) :
    waitStep x ph todo s = { s with bus := { s.bus with pend := none } }.goto (.postStop x false) := by
  simp only [waitStep, h, if_pos htime]

theorem waitStep_waiting {s : State} {x : Xfer} (h : s.bus.rsp = none) (htime : timedOut x s = false) (ph : Phase)
    (todo : List Phase) : waitStep x ph todo s = s := by
  simp [waitStep, h, htime]

theorem timedOut_iff (x : Xfer) (s : State) : timedOut x s = true ↔ s.cfg.busTimeoutMs ≤ s.clock - x.t0 := decide_eq_true_iff

theorem timedOut_eq_false_iff (x : Xfer) (s : State) : timedOut x s = false ↔ s.clock - x.t0 < s.cfg.busTimeoutMs := by
  rw [← Bool.not_eq_true, timedOut_iff, BitVec.not_le]

theorem afterAnswer_nack (x : Xfer) (ph : Phase) (todo : List Phase) : afterAnswer x ph todo .nack = .postStop x false := by
  unfold afterAnswer
  cases ph.op <;> rfl

theorem afterAnswer_ack (x : Xfer) {ph : Phase} (h : ph.op ≠ .read) (todo : List Phase) :
    afterAnswer x ph todo .ack = nextPhase x todo := by
  unfold afterAnswer
  cases hop : ph.op with
  | read => exact absurd hop h
  | startW | startR | write => rfl

theorem afterAnswer_data (x : Xfer) {ph : Phase} (h : ph.op = .read) (todo : List Phase) (v : Byte) :
    afterAnswer x ph todo (.data v) = nextPhase { x with got := x.got ++ [v] } todo := by
  simp only [afterAnswer, h]

/-- Settles O50: an answer that is there is taken before the timeout is looked at (R108, R121). -/
theorem waitStepTestsTheAnswerFirst : Obligations.WaitStepTestsTheAnswerFirst := by
  intro s x ph todo hseq
  have hstep : microStep s = .ok (waitStep x ph todo s) := by simp only [microStep, hseq]
  rw [hstep]
  refine ⟨fun hrsp htime => ?_, fun hrsp htime => ?_, fun r hrsp => ⟨afterAnswer x ph todo r, ?_, ?_, ?_, ?_, ?_, ?_⟩⟩
  · exact congrArg Except.ok (waitStep_timedOut hrsp ((timedOut_iff x s).2 htime) ph todo)
  · exact congrArg Except.ok (waitStep_waiting hrsp ((timedOut_eq_false_iff x s).2 htime) ph todo)
  · exact congrArg Except.ok (waitStep_answered hrsp x ph todo)
  · rintro rfl
    exact afterAnswer_nack x ph todo
  · rintro rfl hop rfl
    exact afterAnswer_ack x hop []
  · rintro rfl hop ph' todo' rfl
    exact afterAnswer_ack x hop (ph' :: todo')
  · rintro v rfl hop rfl
    exact afterAnswer_data x hop [] v
  · rintro v rfl hop ph' todo' rfl
    exact afterAnswer_data x hop (ph' :: todo') v

/-! ### The dwell test (R113) -/

theorem sampleStep_early {s : State} (h : s.clock - s.sens.tlast < s.sens.dwell) :
    sampleStep s = s.finish (sensIdleWord s.sens.state) true := if_pos h

/-- The transaction that a state of the sensor machine starts with. -/
def SensState.firstXfer : SensState → XferKind
  | .clear => .trigT
  | .readTemperature => .readT
  | .readHumidity => .readRh

/-- The transaction that a SENS_STEP which acts begins with: the clock has been sampled. -/
def State.sampled (s : State) : Xfer := { kind := s.sens.state.firstXfer, now := s.clock, t0 := s.clock, got := [] }

theorem sampleStep_due {s : State} (h : s.sens.dwell ≤ s.clock - s.sens.tlast) :
    sampleStep s = s.goto (.xferStart s.sampled) := by
  have hact : ¬ elapsed s.clock s.sens.tlast < s.sens.dwell := BitVec.not_lt.2 h
  simp only [sampleStep, if_neg hact, State.sampled]
  cases s.sens.state <;> rfl

theorem sensIdleWord_eq (st : SensState) : sensIdleWord st = (sensStateBits st).setWidth 32 := by cases st <;> rfl

/-- Settles O52: the command ends in its first micro-step, so no other agent has a turn in it (R113). -/
theorem sensStepBeforeTheDwell : Obligations.SensStepBeforeTheDwell := by
  intro s hidle hearly
  have hfirst : microStep (s.goto .sample) = .ok (s.finish (sensIdleWord s.sens.state) true) :=
    congrArg Except.ok (sampleStep_early (s := s.goto .sample) hearly)
  have hexec : exec .sensStep s = .next (s.finish (sensIdleWord s.sens.state) true) :=
    (launch_of_microStep hfirst).trans (resume_idle rfl)
  rw [hexec, sensIdleWord_eq, State.finish_eq_respond hidle]
  rfl

end Sys2Proof.Machine

/-! The statements of 44_sensor_bus.md, second part: SENS_STEP over many steps of the machine (R108, R109, R113). Inside a turn of
CMD its micro-steps chain (`Takes`), and the steps of all agents chain to a run (`Runs`). While a transaction runs only the
sequencer, the bus port and the schedule change (`State.onBus`), so each lemma about a transaction names just these three. -/

namespace Sys2Proof.Machine

/-! ### Chains of micro-steps and of turns -/

/-- `k` micro-steps of one turn of CMD lead from `s` to `t`. -/
def Takes (k : Nat) (s t : State) : Prop := ∀ fuel, runMicro (fuel + k) s = runMicro fuel t

theorem Takes.trans {j k : Nat} {s u t : State} (hu : Takes j s u) (ht : Takes k u t) : Takes (j + k) s t := fun fuel => by
  rw [← ht fuel, ← hu (fuel + k), Nat.add_assoc, Nat.add_comm k j]

/-- A micro-step of a command that does not wait takes an entry of the schedule, if any is left. -/
theorem Takes.of_microStep {s t : State} (hturn : cmdTurn s) (hrun : s.seq.running = true) (hgo : s.blocked = false)
    (h : microStep { s with sched := s.sched.tail } = .ok t) : Takes 1 s t := by
  intro fuel
  match hs : s.sched with
  | [] =>
    rw [hs, List.tail_nil, ← hs] at h
    exact runMicro_step hrun hs hgo h fuel
  | a :: rest =>
    obtain rfl : a = .cmd := by simpa [cmdTurn, hs] using hturn
    rw [hs] at h
    exact runMicro_cmd hrun hs h fuel

/-- Where a turn of CMD is over its loop does nothing. -/
theorem runMicro_over {s : State} (h : TurnOver s) (fuel : Nat) : runMicro fuel s = .next s := by
  rcases h with hidle | ⟨hblocked, hsched⟩ | ⟨a, rest, hsched, ha⟩
  · exact runMicro_idle hidle fuel
  · exact runMicro_blocked hsched hblocked fuel
  · exact runMicro_yield hsched ha fuel

/-- A chain of micro-steps to the end of the turn, within the model's bound, is the turn. -/
theorem Takes.resume {k : Nat} {s t : State} (h : Takes k s t) (hk : k ≤ 262144) (hover : TurnOver t) : resume s = .next t := by
  obtain ⟨fuel, hfuel⟩ : ∃ fuel, microFuel s = fuel + k := ⟨microFuel s - k, by rw [microFuel]; omega⟩
  rw [Machine.resume, hfuel, h fuel]
  exact runMicro_over hover fuel

/-- On CMD's turn a command in progress goes on. -/
theorem Takes.step {k : Nat} {s t : State} (h : Takes k s t) (hk : k ≤ 262144) (hcfg : s.cfg.valid = true)
    (hrun : s.seq.running = true) (hturn : cmdTurn s) (hover : TurnOver t) : step s = .next t := by
  rw [← h.resume hk hover, step_of_valid hcfg, agentTurn]
  match hs : s.sched with
  | [] => exact if_pos hrun
  | a :: rest =>
    obtain rfl : a = .cmd := by simpa [cmdTurn, hs] using hturn
    exact if_pos hrun

theorem turnOver_of_idle {s : State} (h : s.seq = .idle) : TurnOver s := .inl (by rw [h]; rfl)

theorem turnOver_of_due {s : State} {a : Agent} {rest : List Agent} (h : s.sched = a :: rest) (ha : a ≠ .cmd) : TurnOver s :=
  .inr (.inr ⟨a, rest, h, ha⟩)

/-- `n` steps of the machine lead from `s` to `t`. -/
def Runs (n : Nat) (s t : State) : Prop := core.run n s = .next t

theorem Runs.of_step {s t : State} (h : step s = .next t) : Runs 1 s t := by
  have hstep : core.step s = .next t := h
  simp only [Runs, Host.Core.run, hstep]

theorem Runs.trans {m n : Nat} {s u t : State} (hu : Runs m s u) (ht : Runs n u t) : Runs (m + n) s t := by
  induction m generalizing s with
  | zero =>
    obtain rfl : s = u := Host.Outcome.next.inj hu
    rwa [Nat.zero_add]
  | succ m ih =>
    rw [Nat.succ_add]
    simp only [Runs, Host.Core.run] at hu ih ⊢
    split at hu
    · exact ih hu
    · exact absurd hu nofun
    · exact absurd hu nofun

/-! ### The parts of the state that a transaction changes -/

/-- The state with the sequencer at `p`, the bus port `b` and the schedule `l`: all that changes while a transaction runs. -/
def State.onBus (s : State) (p : Seq) (b : Bus) (l : List Agent) : State := { s with seq := p, bus := b, sched := l }

/-- The bus port with a phase asked for and no stop posted. -/
def Bus.asking (ph : Phase) : Bus := { pend := some ph, rsp := none, stop := false }

/-- The bus port with an answer that CMD has not taken. -/
def Bus.answered (ph : Phase) (r : BusAnswer) : Bus := { pend := some ph, rsp := some r, stop := false }

/-- The bus port behind a transaction: its stop is posted. -/
def Bus.stopped : Bus := { pend := none, rsp := none, stop := true }

section Transaction

variable {s : State} {x : Xfer} {ph : Phase} {todo : List Phase} {b : Bus} {l : List Agent}

/-! ### The micro-steps of a transaction -/

theorem takes_xferStart (hturn : cmdTurn (s.onBus (.xferStart x) b l)) :
    Takes 1 (s.onBus (.xferStart x) b l)
      (s.onBus (nextPhase { x with t0 := s.clock, got := [] } (x.kind.phases s.cfg)) b l.tail) :=
  .of_microStep hturn rfl rfl rfl

theorem takes_request (hturn : cmdTurn (s.onBus (.request x ph todo) b l)) :
    Takes 1 (s.onBus (.request x ph todo) b l) (s.onBus (.wait x ph todo) { b with pend := some ph } l.tail) :=
  .of_microStep hturn rfl rfl rfl

/-- A transaction begins with the request of its first phase. -/
theorem takes_start (hphases : x.kind.phases s.cfg = ph :: todo) (hturn : cmdTurn (s.onBus (.xferStart x) b l))
    (hturn' : cmdTurn (s.onBus (.xferStart x) b l.tail)) :
    Takes 2 (s.onBus (.xferStart x) b l)
      (s.onBus (.wait { x with t0 := s.clock, got := [] } ph todo) { b with pend := some ph } l.tail.tail) := by
  have hfirst := takes_xferStart hturn
  rw [hphases] at hfirst
  exact hfirst.trans (takes_request hturn')

/-- CMD is blocked in a wait whose phase is neither answered nor timed out. -/
theorem blocked_wait : (s.onBus (.wait x ph todo) b l).blocked = (b.rsp.isNone && !timedOut x s) := rfl

theorem takes_answer {r : BusAnswer} (hrsp : b.rsp = some r) (hturn : cmdTurn (s.onBus (.wait x ph todo) b l)) :
    Takes 1 (s.onBus (.wait x ph todo) b l)
      (s.onBus (afterAnswer x ph todo r) { b with pend := none, rsp := none } l.tail) := by
  refine .of_microStep hturn rfl ?_ ?_
  · rw [blocked_wait, hrsp]
    rfl
  · exact congrArg Except.ok (waitStep_answered (s := s.onBus (.wait x ph todo) b l.tail) hrsp x ph todo)

theorem takes_timeout (hrsp : b.rsp = none) (htime : timedOut x s = true) (hturn : cmdTurn (s.onBus (.wait x ph todo) b l)) :
    Takes 1 (s.onBus (.wait x ph todo) b l) (s.onBus (.postStop x false) { b with pend := none, rsp := none } l.tail) := by
  have hwait := waitStep_timedOut (s := s.onBus (.wait x ph todo) b l.tail) hrsp htime ph todo
  have hkept : ({ b with pend := none } : Bus) = { b with pend := none, rsp := none } := by rw [hrsp]
  refine .of_microStep hturn rfl ?_ (congrArg Except.ok (hwait.trans (congrArg (s.onBus _ · l.tail) hkept)))
  rw [blocked_wait, hrsp, htime]
  rfl

theorem takes_stop {ok : Bool} {t : State} (hdone : xferDone x ok (s.onBus (.postStop x ok) { b with stop := true } l.tail) = .ok t)
    (hturn : cmdTurn (s.onBus (.postStop x ok) b l)) : Takes 1 (s.onBus (.postStop x ok) b l) t :=
  .of_microStep hturn rfl rfl hdone

/-- The answer to the last phase of a transaction, or one that fails it, is followed by the stop. -/
theorem takes_last {r : BusAnswer} {x' : Xfer} {ok : Bool} {t : State} (hlast : afterAnswer x ph todo r = .postStop x' ok)
    (hdone : xferDone x' ok (s.onBus (.postStop x' ok) .stopped l.tail.tail) = .ok t)
    (hturn : cmdTurn (s.onBus (.wait x ph todo) (.answered ph r) l))
    (hturn' : cmdTurn (s.onBus (.wait x ph todo) (.answered ph r) l.tail)) :
    Takes 2 (s.onBus (.wait x ph todo) (.answered ph r) l) t := by
  have hanswer := takes_answer (b := .answered ph r) rfl hturn
  rw [hlast] at hanswer
  exact hanswer.trans (takes_stop hdone hturn')

/-! ### The steps of BUS and CLK -/

theorem step_onBus (hcfg : s.cfg.valid = true) (p : Seq) : step (s.onBus p b l) = agentTurn (s.onBus p b l) :=
  step_of_valid hcfg

theorem step_busAnswer {r : BusAnswer} (hcfg : s.cfg.valid = true) (hr : answerAllowed ph.op r = true) :
    step (s.onBus (.wait x ph todo) (.asking ph) (.busAnswer r :: l)) = .next (s.onBus (.wait x ph todo) (.answered ph r) l) := by
  have hmay : busMayAnswer r (s.onBus (.wait x ph todo) (.asking ph) l) = true := (busMayAnswer_iff _ _).2 ⟨ph, rfl, rfl, rfl, hr⟩
  exact (step_onBus hcfg _).trans (congrArg Host.Outcome.next (busAnswerStep_of_may hmay))

theorem step_busTakeStop (hcfg : s.cfg.valid = true) {p : Seq} :
    step (s.onBus p { pend := some ph, rsp := none, stop := true } (.busTakeStop :: l)) = .next (s.onBus p (.asking ph) l) :=
  step_onBus hcfg p

theorem step_clk (hcfg : s.cfg.valid = true) {p : Seq} (d : Nat) :
    step (s.onBus p b (.clk d :: l)) = .next ({ s with clock := s.clock + BitVec.ofNat 32 d }.onBus p b l) :=
  step_onBus hcfg p

/-! ### Phases of a transaction -/

/-- BUS answers a phase, and CMD asks for the next one. -/
theorem runs_phase {r : BusAnswer} {x' : Xfer} {ph' : Phase} {todo' : List Phase} {a : Agent} (hcfg : s.cfg.valid = true)
    (hr : answerAllowed ph.op r = true) (hnext : afterAnswer x ph todo r = .request x' ph' todo') (ha : a ≠ .cmd) :
    Runs 2 (s.onBus (.wait x ph todo) (.asking ph) (.busAnswer r :: .cmd :: .cmd :: a :: l))
      (s.onBus (.wait x' ph' todo') (.asking ph') (a :: l)) := by
  have hanswer : Takes 1 (s.onBus (.wait x ph todo) (.answered ph r) (.cmd :: .cmd :: a :: l))
      (s.onBus (afterAnswer x ph todo r) .reset (.cmd :: a :: l)) := takes_answer (b := .answered ph r) rfl (.inr rfl)
  rw [hnext] at hanswer
  have hasks := hanswer.trans (takes_request (.inr rfl))
  have hturn := hasks.step (by decide) hcfg rfl (.inr rfl) (turnOver_of_due rfl ha)
  exact (Runs.of_step (step_busAnswer hcfg hr)).trans (Runs.of_step hturn)

/-- BUS answers, and that ends the transaction and the command. -/
theorem runs_last {r : BusAnswer} {x' : Xfer} {ok : Bool} {t : State} (hcfg : s.cfg.valid = true)
    (hr : answerAllowed ph.op r = true) (hlast : afterAnswer x ph todo r = .postStop x' ok)
    (hdone : xferDone x' ok (s.onBus (.postStop x' ok) .stopped []) = .ok t) (hidle : t.seq = .idle) :
    Runs 2 (s.onBus (.wait x ph todo) (.asking ph) [.busAnswer r]) t := by
  have hends := takes_last (l := []) hlast hdone (.inl rfl) (.inl rfl)
  have hturn := hends.step (by decide) hcfg rfl (.inl rfl) (turnOver_of_idle hidle)
  exact (Runs.of_step (step_busAnswer hcfg hr)).trans (Runs.of_step hturn)

/-- The clock passes the timeout of a transaction that BUS does not answer, and that ends the transaction and the command. -/
theorem runs_timeout {d : Nat} {u t : State} (hcfg : s.cfg.valid = true) (hu : u = { s with clock := s.clock + BitVec.ofNat 32 d })
    (htime : timedOut x u = true) (hdone : xferDone x false (u.onBus (.postStop x false) .stopped []) = .ok t)
    (hidle : t.seq = .idle) : Runs 2 (s.onBus (.wait x ph todo) (.asking ph) [.clk d]) t := by
  subst hu
  have hends := (takes_timeout (b := .asking ph) (ph := ph) (todo := todo) (l := []) rfl htime (.inl rfl)).trans
    (takes_stop hdone (.inl rfl))
  have hturn := hends.step (by decide) hcfg rfl (.inl rfl) (turnOver_of_idle hidle)
  exact (Runs.of_step (step_clk hcfg d)).trans (Runs.of_step hturn)

end Transaction

/-! ### The start of a SENS_STEP (R113) -/

/-- A SENS_STEP that acts samples the clock and goes on to its first transaction. -/
theorem exec_sensStep_due {s : State} (h : s.sens.dwell ≤ s.clock - s.sens.tlast) :
    exec .sensStep s = resume (s.onBus (.xferStart s.sampled) s.bus s.sched) := by
  have hfirst : microStep (s.goto .sample) = .ok (s.onBus (.xferStart s.sampled) s.bus s.sched) :=
    congrArg Except.ok (sampleStep_due (s := s.goto .sample) h)
  exact launch_of_microStep hfirst

/-- A start or repeated start with the address (R109). -/
def Phase.start (op : BusOp) (a : BusAddr) : Phase := { op := op, addr := a, wdata := 0, last := false }

/-- The write of one byte (R109). -/
def Phase.byteOut (a : BusAddr) (v : Byte) : Phase := { op := .write, addr := a, wdata := v, last := false }

/-- The read of one byte (R109). -/
def Phase.byteIn (a : BusAddr) (last : Bool) : Phase := { op := .read, addr := a, wdata := 0, last := last }

theorem xferPhases_trigger (a : BusAddr) (v : Byte) : xferPhases a [v] 0 = [.start .startW a, .byteOut a v] := rfl

theorem xferPhases_reading (a : BusAddr) :
    xferPhases a [] 3 = [.start .startR a, .byteIn a false, .byteIn a false, .byteIn a true] := rfl

/-- The first phase of each state's transaction, and the phases to come. -/
theorem exists_phases (st : SensState) (c : Config) :
    ∃ ph todo, st.firstXfer.phases c = ph :: todo ∧ ph.addr = c.sensorAddr.setWidth 7 ∧
      (st = .clear → ph.op = .startW ∧ todo.map (fun p => (p.op, p.wdata)) = [(.write, c.cmdTrigT)]) ∧
      (st = .readTemperature ∨ st = .readHumidity → ph.op = .startR ∧
        todo.map (fun p => (p.op, p.last)) = [(.read, false), (.read, false), (.read, true)]) := by
  cases st with
  | clear => exact ⟨_, _, xferPhases_trigger _ c.cmdTrigT, rfl, fun _ => ⟨rfl, rfl⟩, by simp⟩
  | readTemperature | readHumidity => exact ⟨_, _, xferPhases_reading _, rfl, nofun, fun _ => ⟨rfl, rfl⟩⟩

theorem timedOut_at_once (x : Xfer) (s : State) (h : x.t0 = s.clock) : timedOut x s = true ↔ s.cfg.busTimeoutMs = 0 := by
  rw [timedOut_iff, h, BitVec.sub_self]
  exact BitVec.le_zero_iff

/-- Settles O54: the turn of CMD ends in the wait on the first phase, which is neither answered nor timed out. -/
theorem sensStepStartsItsTransaction : Obligations.SensStepStartsItsTransaction := by
  intro s hidle hsched hrsp hdwell htimeout
  obtain ⟨ph, todo, hphases, haddr, hclear, hread⟩ := exists_phases s.sens.state s.cfg
  have hstart := takes_start (s := s) (x := s.sampled) (b := s.bus) (l := []) hphases (.inl rfl) (.inl rfl)
  have htime : timedOut s.sampled s = false := by
    rw [← Bool.not_eq_true, timedOut_at_once _ _ rfl]
    exact (BitVec.pos_iff_ne_zero _).1 htimeout
  have hblocked : (s.onBus (.wait s.sampled ph todo) { s.bus with pend := some ph } []).blocked = true := by
    rw [blocked_wait, hrsp, htime]
    rfl
  have hturn : resume (s.onBus (.xferStart s.sampled) s.bus []) =
      .next (s.onBus (.wait s.sampled ph todo) { s.bus with pend := some ph } []) :=
    hstart.resume (by decide) (.inr (.inl ⟨hblocked, rfl⟩))
  refine ⟨s.sampled, ph, todo, ?_, rfl, rfl, rfl, haddr, ?_, ?_, ?_⟩
  · rw [exec_sensStep_due hdwell, hsched, hturn, State.onBus, ← hsched]
  · exact fun hst => ⟨congrArg SensState.firstXfer hst, hclear hst⟩
  · exact fun hst => ⟨congrArg SensState.firstXfer hst, hread (.inl hst)⟩
  · exact fun hst => ⟨congrArg SensState.firstXfer hst, hread (.inr hst)⟩

/-! ### The ends of a SENS_STEP (R113) -/

/-- The state behind a SENS_STEP that acted, with no other agent due: the sensor unit `m`, the stop posted, the answer. -/
def State.acted (s : State) (m : Sens) (res : Word) : State :=
  { s with sens := m, bus := .stopped, sched := [], res := res, ok := true, rspValid := true }

theorem sensDone_onBus {s : State} (hidle : s.seq = .idle) (now : Word) (fail emit sent : Bool) (p : Seq) :
    sensDone now fail emit sent (s.onBus p .stopped []) =
      s.acted { s.sens with tlast := now } (sensActedWord s.sens.state fail emit sent) := by
  simp only [sensDone, State.finish, State.respond, State.onBus, State.acted, hidle]

/-- RES of the ends of SENS_STEP (R113). -/
theorem sensActedWord_values :
    sensActedWord .readTemperature false false false = 0x11 ∧ sensActedWord .readHumidity false false false = 0x12 ∧
    sensActedWord .clear true false false = 0x30 ∧ sensActedWord .clear false true true = 0xD0 ∧
    sensActedWord .clear false true false = 0x50 := by decide

/-- The state behind a SENS_STEP, sampled at `now`, that failed: the machine is in Clear. -/
def State.failed (s : State) (now : Word) : State :=
  s.acted { s.sens with state := .clear, dwell := s.cfg.dwellClear, tlast := now } 0x30

theorem sensFail_onBus {s : State} (hidle : s.seq = .idle) (now : Word) (p : Seq) :
    sensFail now (s.onBus p .stopped []) = s.failed now := by
  obtain ⟨-, -, hres, -⟩ := sensActedWord_values
  rw [State.failed, ← hres]
  exact sensDone_onBus (s := { s with sens := { s.sens with state := .clear, dwell := s.cfg.dwellClear } })
    hidle now true false false p

section Ends

variable {s : State} {x : Xfer}

/-- A transaction that failed ends the step, whichever it was. -/
theorem xferDone_failed (hidle : s.seq = .idle) (p : Seq) : xferDone x false (s.onBus p .stopped []) = .ok (s.failed x.now) := by
  rw [← sensFail_onBus hidle x.now p, xferDone]
  cases x.kind <;> rfl

theorem xferDone_trigT (h : x.kind = .trigT) (hidle : s.seq = .idle) (p : Seq) :
    xferDone x true (s.onBus p .stopped []) =
      .ok (s.acted { s.sens with state := .readTemperature, dwell := s.cfg.dwellT, tlast := x.now } 0x11) := by
  obtain ⟨hres, -⟩ := sensActedWord_values
  rw [← hres]
  simp only [xferDone, h, if_pos]
  exact congrArg Except.ok (sensDone_onBus
    (s := { s with sens := { s.sens with state := .readTemperature, dwell := s.cfg.dwellT } }) hidle x.now false false false p)

theorem xferDone_trigRh {code : Half} (h : x.kind = .trigRh code) (hidle : s.seq = .idle) (p : Seq) :
    xferDone x true (s.onBus p .stopped []) =
      .ok (s.acted { s.sens with
        state := .readHumidity, dwell := s.cfg.dwellRh, tlast := x.now, temp := i32 (convT code) } 0x12) := by
  obtain ⟨-, hres, -⟩ := sensActedWord_values
  rw [← hres]
  simp only [xferDone, h, if_pos]
  exact congrArg Except.ok (sensDone_onBus
    (s := { s with sens := { s.sens with temp := i32 (convT code), state := .readHumidity, dwell := s.cfg.dwellRh } })
    hidle x.now false false false p)

/-- A read whose check byte is wrong ends the step, in either reading state. -/
theorem xferDone_badCrc (h : x.kind = .readT ∨ x.kind = .readRh) (hcrc : crcResidue x.got ≠ 0) (hidle : s.seq = .idle) (p : Seq) :
    xferDone x true (s.onBus p .stopped []) = .ok ({ s with crc8 := crcResidue x.got }.failed x.now) := by
  have hfail := congrArg (Except.ok (ε := Fault)) (sensFail_onBus (s := { s with crc8 := crcResidue x.got }) hidle x.now p)
  rw [← hfail]
  rcases h with h | h <;> simp only [xferDone, h, if_pos, if_neg hcrc] <;> rfl

theorem xferDone_readT (h : x.kind = .readT) (hcrc : crcResidue x.got = 0) (p : Seq) (b : Bus) (l : List Agent) :
    xferDone x true (s.onBus p b l) =
      .ok ({ s with crc8 := 0 }.onBus (.xferStart { x with kind := .trigRh (rawCode x.got) }) b l) := by
  simp only [xferDone, h, if_pos, hcrc]
  rfl

/-- The state with a humidity reading whose check byte is right. -/
def State.humidity (s : State) (code : Half) : State :=
  { s with crc8 := 0, sens := { s.sens with hum := i32 (convRh code) } }

theorem xferDone_readRh (h : x.kind = .readRh) (hcrc : crcResidue x.got = 0) :
    xferDone x true s = sendFrame (.measurement x.now) s.cfg.typeMeasurements 8
      (.ok (measurementPayload s.sens.temp (i32 (convRh (rawCode x.got))))) (s.humidity (rawCode x.got)) := by
  simp only [xferDone, h, if_pos, hcrc]
  rfl

end Ends

/-- Settles O53: the timeout of the first phase has passed as soon as CMD waits on it. -/
theorem sensStepWithZeroTimeoutFailsAtOnce : Obligations.SensStepWithZeroTimeoutFailsAtOnce := by
  intro s hidle hsched hpend hrsp hdwell htimeout
  obtain ⟨ph, todo, hphases, -⟩ := exists_phases s.sens.state s.cfg
  have htime : timedOut s.sampled s = true := (timedOut_at_once _ _ rfl).2 htimeout
  have hstart := takes_start (s := s) (x := s.sampled) (b := s.bus) (l := []) hphases (.inl rfl) (.inl rfl)
  have hends := (hstart.trans (takes_timeout hrsp htime (.inl rfl))).trans (takes_stop (xferDone_failed hidle _) (.inl rfl))
  rw [exec_sensStep_due hdwell, hsched, hends.resume (by decide) (turnOver_of_idle hidle), State.failed, State.acted, ← hsched]
  rfl

/-! ### SENS_STEP from the command port (R113) -/

/-- The state with the command on the port accepted, `cs` behind it. -/
def State.taken (s : State) (cs : List Cmd) : State := { s with cmds := cs, rspValid := false }

/-- A block that awaits SENS_STEP on its port, with the dwell elapsed and no stop posted. -/
structure State.SensDue (s : State) (cs : List Cmd) : Prop where
  good : s.Good
  idle : s.seq = .idle
  cmds : ∃ arg, s.cmds = { op := 0x80, arg := arg } :: cs
  stop : s.bus.stop = false
  dwell : s.sens.dwell ≤ s.clock - s.sens.tlast

section Due

variable {s : State} {cs : List Cmd}

theorem State.SensDue.bus_eq (h : s.SensDue cs) : s.bus = .reset := by
  have hquiet := h.good.quiet (by simp [h.idle]) (by simp [h.idle])
  have hstop := h.stop
  rw [Bus.reset, ← hquiet.pend, ← hquiet.rsp, ← hstop]

/-- The step that accepts SENS_STEP ends in the wait on the first phase. -/
theorem State.SensDue.runs_start (h : s.SensDue cs) {ph : Phase} {todo : List Phase} {a : Agent} {l : List Agent}
    (hphases : s.sens.state.firstXfer.phases s.cfg = ph :: todo) (hsched : s.sched = .cmd :: .cmd :: .cmd :: a :: l)
    (ha : a ≠ .cmd) :
    Runs 1 s ((s.taken cs).onBus (.wait s.sampled ph todo) (.asking ph) (a :: l)) := by
  obtain ⟨arg, hcmds⟩ := h.cmds
  have hready : s.cmdReady = true := (cmdReady_iff s).2 ⟨h.idle, h.good.halted_eq_false (by simp [h.idle])⟩
  have haccept := ((stepRunsTheDecodedInstruction s .sensStep h.good.cfg rfl).1 _ cs hcmds hready rfl).2 _ hsched
  have hexec := exec_sensStep_due (s := { s with cmds := cs, sched := .cmd :: .cmd :: a :: l, rspValid := false }) h.dwell
  have hstart := takes_start (s := s.taken cs) (x := s.sampled) (b := s.bus) (l := .cmd :: .cmd :: a :: l) hphases
    (.inr rfl) (.inr rfl)
  have hasks : ({ s.bus with pend := some ph } : Bus) = .asking ph := by rw [h.bus_eq]; rfl
  rw [hasks] at hstart
  exact Runs.of_step (haccept.trans (hexec.trans (hstart.resume (by decide) (turnOver_of_due rfl ha))))

end Due

theorem phases_clear {s : State} (h : s.sens.state = .clear) :
    s.sens.state.firstXfer.phases s.cfg =
      [.start .startW (sensorBusAddr s.cfg), .byteOut (sensorBusAddr s.cfg) s.cfg.cmdTrigT] := by
  rw [h]
  exact xferPhases_trigger _ _

theorem phases_reading {s : State} (h : s.sens.state = .readTemperature ∨ s.sens.state = .readHumidity) :
    s.sens.state.firstXfer.phases s.cfg =
      [.start .startR (sensorBusAddr s.cfg), .byteIn (sensorBusAddr s.cfg) false, .byteIn (sensorBusAddr s.cfg) false,
        .byteIn (sensorBusAddr s.cfg) true] := by
  rcases h with h | h <;> rw [h] <;> exact xferPhases_reading _

/-- Settles O55: BUS acknowledges START_W, then WRITE, and the stop ends the command (R109, R113). -/
theorem clearTriggersTheTemperature : Obligations.ClearTriggersTheTemperature := by
  intro s arg cs hg hidle hcmds hstop hstate hdwell hsched
  have hdue : s.SensDue cs := ⟨hg, hidle, ⟨arg, hcmds⟩, hstop, hdwell⟩
  have hkind : s.sampled.kind = .trigT := congrArg SensState.firstXfer hstate
  have hstart := hdue.runs_start (phases_clear hstate) hsched nofun
  have hwrite := hstart.trans (runs_phase (x := s.sampled) hg.cfg rfl rfl nofun)
  have hlast : afterAnswer s.sampled (.byteOut (sensorBusAddr s.cfg) s.cfg.cmdTrigT) [] .ack = .postStop s.sampled true := rfl
  have hdone := xferDone_trigT (s := s.taken cs) hkind hidle (.postStop s.sampled true)
  exact hwrite.trans (runs_last hg.cfg rfl hlast hdone hidle)

end Sys2Proof.Machine

/-! The statements of 44_sensor_bus.md, third part: the two reading states (R112, R113). Both read three bytes and test the check
byte. A good temperature is followed by a second transaction, the humidity trigger; a good humidity by the send of a measurement,
whose frame every configuration has room for in ENCBUF, so that only the room in TX decides whether it is sent. -/

namespace Sys2Proof.Machine

/-! ### A read of three bytes (R109, R112) -/

/-- The agents' turns in which a SENS_STEP is accepted and BUS answers its read of three bytes. -/
def readTurns (d0 d1 c : Byte) : List Agent :=
  [.cmd, .cmd, .cmd, .busAnswer .ack, .cmd, .cmd, .busAnswer (.data d0), .cmd, .cmd, .busAnswer (.data d1), .cmd, .cmd,
    .busAnswer (.data c)]

/-- A SENS_STEP in a reading state comes to the answer of its last phase; with CMD's next turn its transaction is over. -/
theorem State.SensDue.runs_read {s : State} {cs : List Cmd} (h : s.SensDue cs) {d0 d1 c : Byte} {l : List Agent}
    (hstate : s.sens.state = .readTemperature ∨ s.sens.state = .readHumidity) (hsched : s.sched = readTurns d0 d1 c ++ l) :
    Runs 8 s ((s.taken cs).onBus (.wait { s.sampled with got := [d0, d1] } (.byteIn (sensorBusAddr s.cfg) true) [])
      (.answered (.byteIn (sensorBusAddr s.cfg) true) (.data c)) l) := by
  have hcfg := h.good.cfg
  have hstart := h.runs_start (phases_reading hstate) hsched nofun
  have hfirst := hstart.trans (runs_phase (s := s.taken cs) (x := s.sampled) hcfg rfl rfl nofun)
  have hsecond := hfirst.trans (runs_phase (s := s.taken cs) (x := s.sampled) hcfg rfl rfl nofun)
  have hthird := hsecond.trans (runs_phase (s := s.taken cs) (x := { s.sampled with got := [d0] }) hcfg rfl rfl nofun)
  exact hthird.trans (.of_step (step_busAnswer (s := s.taken cs) hcfg rfl))

/-! ### A reading whose check byte is wrong, and a trigger that fails (R109, R112) -/

theorem crcResidue_eq_zero_iff (d0 d1 c : Byte) : crcResidue [d0, d1, c] = 0 ↔ c = crc8 [d0, d1] :=
  sensorReadIsGoodExactlyForItsOwnCrc d0 d1 c

/-- The last byte of a read is kept, and the transaction goes on to its stop. -/
theorem afterAnswer_lastByte (x : Xfer) (a : BusAddr) (last : Bool) (d0 d1 c : Byte) :
    afterAnswer { x with got := [d0, d1] } (.byteIn a last) [] (.data c) = .postStop { x with got := [d0, d1, c] } true := rfl

/-- In either reading state a wrong check byte ends the step: the machine reverts to Clear. -/
theorem State.SensDue.runs_badRead {s : State} {cs : List Cmd} (h : s.SensDue cs) {d0 d1 c : Byte}
    (hstate : s.sens.state = .readTemperature ∨ s.sens.state = .readHumidity) (hcrc : c ≠ Machine.crc8 [d0, d1])
    (hsched : s.sched = readTurns d0 d1 c) :
    Runs 9 s ({ s.taken cs with crc8 := Machine.crc8 [d0, d1, c] }.failed s.clock) := by
  have hkind : s.sampled.kind = .readT ∨ s.sampled.kind = .readRh :=
    hstate.imp (congrArg SensState.firstXfer) (congrArg SensState.firstXfer)
  have hresidue : crcResidue [d0, d1, c] ≠ 0 := fun hzero => hcrc ((crcResidue_eq_zero_iff d0 d1 c).1 hzero)
  have hdone := xferDone_badCrc (s := s.taken cs) (x := { s.sampled with got := [d0, d1, c] }) hkind hresidue h.idle
    (.postStop { s.sampled with got := [d0, d1, c] } true)
  have hends := takes_last (l := []) (afterAnswer_lastByte s.sampled (sensorBusAddr s.cfg) true d0 d1 c) hdone (.inl rfl) (.inl rfl)
  have hturn := hends.step (by decide) h.good.cfg rfl (.inl rfl) (turnOver_of_idle h.idle)
  exact (h.runs_read hstate (hsched.trans (List.append_nil _).symm)).trans (.of_step hturn)

section Trigger

variable {s : State} {x : Xfer} {ph : Phase} {todo : List Phase}

/-- A NACK fails the step. -/
theorem runs_nack (hcfg : s.cfg.valid = true) (hidle : s.seq = .idle) (hop : ph.op ≠ .read) :
    Runs 2 (s.onBus (.wait x ph todo) (.asking ph) [.busAnswer .nack]) (s.failed x.now) :=
  runs_last hcfg ((answerAllowed_iff _ _).2 (.inr ⟨hop, .inr rfl⟩)) (afterAnswer_nack x ph todo)
    (xferDone_failed hidle (.postStop x false)) hidle

/-- A phase that BUS leaves unanswered until the timeout fails the step. -/
theorem runs_silence (hcfg : s.cfg.valid = true) (hidle : s.seq = .idle) (ht0 : x.t0 = s.clock) :
    Runs 2 (s.onBus (.wait x ph todo) (.asking ph) [.clk s.cfg.busTimeoutMs.toNat])
      ({ s with clock := s.clock + s.cfg.busTimeoutMs }.failed x.now) := by
  have hclock : BitVec.ofNat 32 s.cfg.busTimeoutMs.toNat = s.cfg.busTimeoutMs := by simp
  have htime : timedOut x { s with clock := s.clock + s.cfg.busTimeoutMs } = true := by
    rw [timedOut_iff, ht0, BitVec.add_comm, BitVec.add_sub_cancel]
    exact BitVec.le_refl _
  have hdone := xferDone_failed (s := { s with clock := s.clock + s.cfg.busTimeoutMs }) (x := x) hidle (.postStop x false)
  exact runs_timeout hcfg (by rw [hclock]) htime hdone hidle

end Trigger

/-! ### The humidity trigger behind a temperature reading (R113) -/

/-- The humidity trigger that follows a temperature reading of a SENS_STEP sampled at `now`. -/
def humidityTrigger (now : Word) (d0 d1 : Byte) : Xfer := { kind := .trigRh (be16 d0 d1), now := now, t0 := now, got := [] }

/-- The state in which the humidity trigger waits on a phase: the command is accepted and the reading was good. -/
def State.triggering (s : State) (cs : List Cmd) : State := { s.taken cs with crc8 := 0 }

theorem xferPhases_humidityTrigger (c : Config) (now : Word) (d0 d1 : Byte) :
    (humidityTrigger now d0 d1).kind.phases c = [.start .startW (sensorBusAddr c), .byteOut (sensorBusAddr c) c.cmdTrigRh] :=
  xferPhases_trigger _ _

/-- A good temperature reading is followed by the humidity trigger, whose first phase BUS can answer once it has taken the stop. -/
theorem State.SensDue.runs_goodRead {s : State} {cs : List Cmd} (h : s.SensDue cs) {d0 d1 c : Byte} {l : List Agent}
    (hstate : s.sens.state = .readTemperature) (hcrc : c = Machine.crc8 [d0, d1])
    (hsched : s.sched = readTurns d0 d1 c ++ (.cmd :: .cmd :: .cmd :: .cmd :: .busTakeStop :: l)) :
    Runs 10 s ((s.triggering cs).onBus
      (.wait (humidityTrigger s.clock d0 d1) (.start .startW (sensorBusAddr s.cfg))
        [.byteOut (sensorBusAddr s.cfg) s.cfg.cmdTrigRh])
      (.asking (.start .startW (sensorBusAddr s.cfg))) l) := by
  have hkind : s.sampled.kind = .readT := congrArg SensState.firstXfer hstate
  have hdone := xferDone_readT (s := s.taken cs) (x := { s.sampled with got := [d0, d1, c] }) hkind
    ((crcResidue_eq_zero_iff d0 d1 c).2 hcrc) (.postStop { s.sampled with got := [d0, d1, c] } true) .stopped
    (.cmd :: .cmd :: .busTakeStop :: l)
  have hread := takes_last (l := .cmd :: .cmd :: .cmd :: .cmd :: .busTakeStop :: l)
    (afterAnswer_lastByte s.sampled (sensorBusAddr s.cfg) true d0 d1 c) hdone (.inr rfl) (.inr rfl)
  have hstart := takes_start (s := s.triggering cs) (b := .stopped)
    (x := { s.sampled with kind := .trigRh (be16 d0 d1), got := [d0, d1, c] }) (l := .cmd :: .cmd :: .busTakeStop :: l)
    (xferPhases_humidityTrigger s.cfg s.clock d0 d1) (.inr rfl) (.inr rfl)
  have hturn := (hread.trans hstart).step (by decide) h.good.cfg rfl (.inr rfl) (turnOver_of_due rfl nofun)
  have htrigger := (h.runs_read (.inl hstate) hsched).trans (.of_step hturn)
  exact htrigger.trans (.of_step (step_busTakeStop (s := s.triggering cs) h.good.cfg))

/-- Settles O56: a good read is followed by the humidity trigger, which ends as BUS and CLK let it; a wrong check byte ends the step
before any trigger (R112, R113). -/
theorem readTemperatureStoresACheckedReading : Obligations.ReadTemperatureStoresACheckedReading := by
  intro s arg cs d0 d1 c hg hidle hcmds hstop hstate hdwell
  have hdue : s.SensDue cs := ⟨hg, hidle, ⟨arg, hcmds⟩, hstop, hdwell⟩
  refine ⟨fun hcrc hsched => ?_, fun hcrc hsched => ?_, fun hcrc trigger n ms hfails hsched => ?_⟩
  · have hwrite := (hdue.runs_goodRead hstate hcrc hsched).trans (runs_phase (s := s.triggering cs) hg.cfg rfl rfl nofun)
    have hdone := xferDone_trigRh (s := s.triggering cs) (x := humidityTrigger s.clock d0 d1) rfl hidle
      (.postStop (humidityTrigger s.clock d0 d1) true)
    have hlast : afterAnswer (humidityTrigger s.clock d0 d1) (.byteOut (sensorBusAddr s.cfg) s.cfg.cmdTrigRh) [] .ack =
        .postStop (humidityTrigger s.clock d0 d1) true := rfl
    exact hwrite.trans (runs_last hg.cfg rfl hlast hdone hidle)
  · exact hdue.runs_badRead (.inl hstate) hcrc hsched
  · have hstart := hdue.runs_goodRead hstate hcrc hsched
    have hsame : s.clock + (0 : Word) = s.clock := BitVec.add_zero s.clock
    simp only [List.mem_cons, List.not_mem_nil, or_false, Prod.mk.injEq] at hfails
    rcases hfails with ⟨rfl, rfl, rfl⟩ | ⟨rfl, rfl, rfl⟩ | ⟨rfl, rfl, rfl⟩ | ⟨rfl, rfl, rfl⟩
    · rw [hsame]
      exact hstart.trans (runs_nack (s := s.triggering cs) hg.cfg hidle nofun)
    · have hwrite := hstart.trans (runs_phase (s := s.triggering cs) hg.cfg rfl rfl nofun)
      rw [hsame]
      exact hwrite.trans (runs_nack (s := s.triggering cs) hg.cfg hidle nofun)
    · exact hstart.trans (runs_silence (s := s.triggering cs) hg.cfg hidle rfl)
    · have hwrite := hstart.trans (runs_phase (s := s.triggering cs) hg.cfg rfl rfl nofun)
      exact hwrite.trans (runs_silence (s := s.triggering cs) hg.cfg hidle rfl)

/-! ### TX_COMMIT's effects inside a SENS_STEP (R67) -/

theorem microStep_room {s : State} {after : After} (h : s.seq = .room after) : microStep s = .ok (roomStep after s) := by
  simp only [microStep, h]

/-- With no other agent due, the test for room is the next micro-step. -/
theorem runMicro_room {s : State} {after : After} (hseq : s.seq = .room after) (hsched : s.sched = []) (fuel : Nat) :
    runMicro (fuel + 1) s = runMicro fuel (roomStep after s) :=
  runMicro_step (by rw [hseq]; rfl) hsched (by simp [State.blocked, hseq]) (microStep_room hseq) fuel

/-- A frame that cannot be committed is lost whole. -/
theorem takes_room_of_not_commits {s : State} {after : After} (hseq : s.seq = .room after) (hsched : s.sched = [])
    (h : ¬ s.commits) : Takes 1 s (commitDone after false 0 s) := fun fuel => by
  rw [runMicro_room hseq hsched, roomStep_of_not_commits h]

/-- A frame that can be committed is pushed whole. -/
theorem takes_room_of_commits {s : State} {after : After} {bs : List Byte} (hseq : s.seq = .room after) (hsched : s.sched = [])
    (hsize : s.enc.len.toNat ≤ s.cfg.txbufSize) (h : s.commits) (hlen : s.enc.len.toNat = bs.length)
    (hheld : s.enc.buf.holds 0 bs) :
    Takes (bs.length + 2) s (commitDone after true (zextNat bs.length) (s.pushedAll bs)) := by
  intro fuel
  have hread : ∀ i (hi : i < bs.length), readByte .encbuf s.cfg.txbufSize s.enc.buf (0 + i) = .ok bs[i] := fun i hi =>
    readByte_ok.2 ⟨by omega, Memory.read_of_holds hheld hi⟩
  have hcommit := runMicro_commit (s := s.goto (.commit after 0 bs.length)) rfl hsched (Nat.zero_add _) hread
    (show bs.length < fuel + bs.length + 1 by omega)
  have hend : runMicro fuel (commitDone after true (zextNat bs.length) (s.pushedAll bs)) = .next _ :=
    runMicro_idle (by rw [commitDone_idle]; rfl) fuel
  rw [← Nat.add_assoc fuel, runMicro_room hseq hsched, roomStep_of_commits h, hlen, hend, hcommit]
  exact congrArg _ (commitDone_goto after true _ (.commit after 0 bs.length) (s.pushedAll bs))

/-! ### The measurement (R52, R102, R113) -/

theorem length_measurementFrame (t : Byte) (temp hum : Word) : (frame (packet t (measurementPayload temp hum))).length = 17 := by
  have hpacket : (packet t (measurementPayload temp hum)).length = 14 := length_packet t _
  have hcobs := length_cobs (packet t (measurementPayload temp hum))
  have hblocks := fullBlocks_le (packet t (measurementPayload temp hum))
  rw [hpacket] at hcobs hblocks
  simp only [frame, List.length_append, List.length_singleton, hcobs]
  omega

/-- The frame of a measurement of the temperature in the sensor unit and the humidity `hum`. -/
def State.measurementFrame (s : State) (hum : Word) : List Byte :=
  frame (packet s.cfg.typeMeasurements (measurementPayload s.sens.temp hum))

/-- The state behind a SENS_STEP that measured the humidity `hum`: `e` holds the frame, and `q` has it if it was sent. -/
def State.measured (s : State) (cs : List Cmd) (hum : Word) (e : Enc) (q : Ring) (sent : Bool) : State :=
  { s.taken cs with
    crc8 := 0, enc := e, tx := q, trace := s.trace ++ [Event.meas s.sens.temp hum sent]
    crc32 := Machine.crc32 (packetBody s.cfg.typeMeasurements (measurementPayload s.sens.temp hum)) crc32Seed }.acted
      { s.sens with state := .clear, dwell := s.cfg.dwellClear, tlast := s.clock, hum := hum }
      (sensActedWord .clear false true sent)

/-- The state in which TX_COMMIT's effects are next, the measurement's frame in ENCBUF. -/
def State.measuring (s : State) (cs : List Cmd) (code : Half) (e : Enc) : State :=
  (((s.taken cs).onBus .idle .stopped []).humidity code).framed (.measurement s.clock) s.cfg.typeMeasurements
    (measurementPayload s.sens.temp (i32 (convRh code))) e

/-- The outcome of the send completes the measurement either way. -/
theorem commitDone_measuring {s : State} (hidle : s.seq = .idle) (cs : List Cmd) (code : Half) (e : Enc) (q : Ring)
    (sent : Bool) (len : Word) :
    commitDone (.measurement s.clock) sent len { s.measuring cs code e with tx := q } =
      s.measured cs (i32 (convRh code)) e q sent :=
  sensDone_onBus (s := { s.taken cs with
    crc8 := 0, enc := e, tx := q, trace := s.trace ++ [Event.meas s.sens.temp (i32 (convRh code)) sent]
    crc32 := crc32 (packetBody s.cfg.typeMeasurements (measurementPayload s.sens.temp (i32 (convRh code)))) crc32Seed
    sens := { s.sens with state := .clear, dwell := s.cfg.dwellClear, hum := i32 (convRh code) } }) hidle s.clock false true sent
    (.room (.measurement s.clock))

/-- Every configuration has room for a measurement's frame in ENCBUF. -/
theorem txbufSize_of_valid {c : Config} (h : c.valid = true) : 17 ≤ c.txbufSize :=
  txbufSize_of_sizesOk ((config_valid_iff c).1 h).1

/-- A good humidity reading comes to TX_COMMIT's effects with its frame whole in ENCBUF. -/
theorem xferDone_goodHumidity {s : State} (hcfg : s.cfg.valid = true) (cs : List Cmd) {x : Xfer} (hkind : x.kind = .readRh)
    (hnow : x.now = s.clock) (hcrc : crcResidue x.got = 0) (p : Seq) :
    ∃ e, xferDone x true ((s.taken cs).onBus p .stopped []) = .ok (s.measuring cs (rawCode x.got) e) ∧
      e.phase = .closed ∧ e.ovf = false ∧ e.len.toNat = 17 ∧
      e.buf.holds 0 (s.measurementFrame (i32 (convRh (rawCode x.got)))) := by
  have hroom : 17 ≤ s.cfg.txbufSize := txbufSize_of_valid hcfg
  have hlength := length_measurementFrame s.cfg.typeMeasurements s.sens.temp (i32 (convRh (rawCode x.got)))
  obtain ⟨e, hbuild, hphase, hovf, hlen, hheld⟩ :=
    buildFrame_of_fits (sizes_le_of_valid hcfg).1 (hlength.trans_le hroom) s.enc
  refine ⟨e, ?_, hphase, hovf, hlen.trans hlength, hheld⟩
  rw [xferDone_readRh hkind hcrc, hnow]
  exact sendFrame_framed (m := 8) (s := ((s.taken cs).onBus p .stopped []).humidity (rawCode x.got)) hroom hbuild
    (.measurement s.clock)

/-- A good humidity reading is sent whole or lost whole, and the measurement is complete either way. -/
theorem State.SensDue.runs_goodHumidity {s : State} {cs : List Cmd} (h : s.SensDue cs) {d0 d1 c : Byte}
    (hstate : s.sens.state = .readHumidity) (hcrc : c = Machine.crc8 [d0, d1]) (hsched : s.sched = readTurns d0 d1 c)
    {hum : Word} (hhum : hum = i32 (convRh (be16 d0 d1))) :
    ∃ e, e.len.toNat = 17 ∧ e.buf.holds 0 (s.measurementFrame hum) ∧
      (17 ≤ s.tx.free s.cfg.nTx → Runs 9 s (s.measured cs hum e (s.tx.pushAll s.cfg.nTx (s.measurementFrame hum)) true)) ∧
      (s.tx.free s.cfg.nTx < 17 → Runs 9 s (s.measured cs hum e s.tx false)) := by
  subst hhum
  have hkind : s.sampled.kind = .readRh := congrArg SensState.firstXfer hstate
  have hread := h.runs_read (.inr hstate) (hsched.trans (List.append_nil _).symm)
  have hroom : 17 ≤ s.cfg.txbufSize := txbufSize_of_valid h.good.cfg
  have hlength : (s.measurementFrame (i32 (convRh (be16 d0 d1)))).length = 17 := length_measurementFrame _ _ _
  obtain ⟨e, hdone, hphase, hovf, hlen, hheld⟩ := xferDone_goodHumidity h.good.cfg cs
    (x := { s.sampled with got := [d0, d1, c] }) hkind rfl ((crcResidue_eq_zero_iff d0 d1 c).2 hcrc)
    (.postStop { s.sampled with got := [d0, d1, c] } true)
  have hends := takes_last (l := []) (afterAnswer_lastByte s.sampled (sensorBusAddr s.cfg) true d0 d1 c) hdone (.inl rfl) (.inl rfl)
  refine ⟨e, hlen, hheld, fun hfits => ?_, fun hfull => ?_⟩
  · have hcommit := takes_room_of_commits (s := s.measuring cs (be16 d0 d1) e) (after := .measurement s.clock) rfl rfl
      (hlen.trans_le hroom) ⟨hphase, hovf, hlen.trans_le hfits⟩ (hlen.trans hlength.symm) hheld
    have hturn := (hends.trans hcommit).step (by rw [hlength]; decide) h.good.cfg rfl (.inl rfl)
      (turnOver_of_idle (commitDone_idle _ _ _ _))
    have hmeasured := commitDone_measuring h.idle cs (be16 d0 d1) e
      (s.tx.pushAll s.cfg.nTx (s.measurementFrame (i32 (convRh (be16 d0 d1))))) true
    rw [← hmeasured (zextNat _)]
    exact hread.trans (.of_step hturn)
  · have hlost := takes_room_of_not_commits (s := s.measuring cs (be16 d0 d1) e) (after := .measurement s.clock) rfl rfl
      (fun ⟨_, _, hfits⟩ => Nat.not_le.2 hfull (hlen.symm.trans_le hfits))
    have hturn := (hends.trans hlost).step (by decide) h.good.cfg rfl (.inl rfl) (turnOver_of_idle (commitDone_idle _ _ _ _))
    have hmeasured := commitDone_measuring h.idle cs (be16 d0 d1) e s.tx false
    rw [← hmeasured 0]
    exact hread.trans (.of_step hturn)

/-- Settles O57: the measurement is complete whether or not TX has room for its frame; a wrong check byte comes to none (R113). -/
theorem readHumidityEmitsOneMeasurement : Obligations.ReadHumidityEmitsOneMeasurement := by
  intro s arg cs d0 d1 c hg hidle hcmds hstop hstate hdwell hsched
  have hdue : s.SensDue cs := ⟨hg, hidle, ⟨arg, hcmds⟩, hstop, hdwell⟩
  refine ⟨fun hcrc => hdue.runs_badRead (.inr hstate) hcrc hsched, fun hcrc => ?_⟩
  intro hum f
  obtain ⟨e, hlen, hheld, hsent, hlost⟩ := hdue.runs_goodHumidity hstate hcrc hsched (hum := hum) rfl
  have hlength : f.length = 17 := length_measurementFrame _ _ _
  obtain ⟨-, -, -, hressent, hreslost⟩ := sensActedWord_values
  have hhalted : s.halted = false := hg.halted_eq_false (by simp [hidle])
  by_cases hfits : 17 ≤ s.tx.free s.cfg.nTx
  · refine ⟨_, hsent hfits, rfl, rfl, rfl, hidle, rfl, rfl, rfl, rfl, rfl, rfl, rfl, hhalted, holdsBytes_of_holds hheld, hlen,
      fun _ => ⟨hressent, rfl, ?_⟩, fun hfull => absurd hfits (Nat.not_le.2 hfull)⟩
    exact Ring.contents_pushAll hg.tx (hlength.trans_le hfits)
  · exact ⟨_, hlost (Nat.lt_of_not_le hfits), rfl, rfl, rfl, hidle, rfl, rfl, rfl, rfl, rfl, rfl, rfl, hhalted,
      holdsBytes_of_holds hheld, hlen, fun h => absurd h hfits, fun _ => ⟨hreslost, rfl, rfl⟩⟩

end Sys2Proof.Machine

/-! The statements of 45_system.md. CSR_RD answers one word for each number of R27; a word that packs several fields gives each of
them back at its bits, and the numbers without a word are the reserved ones. -/

namespace Sys2Proof.Machine

open BitVec

/-! ### The packed registers (R27) -/

theorem statusWord_eq (ill : Bool) : statusWord ill = (ofBool ill).setWidth 32 := by cases ill <;> rfl

/-- Each field is the lowest part of what is left of the word above the fields before it. -/
theorem idWord_fields (c : Config) :
    (idWord c).extractLsb' 0 8 = 1 ∧ (idWord c).extractLsb' 8 4 = BitVec.ofNat 4 c.kRx ∧
    (idWord c).extractLsb' 12 4 = BitVec.ofNat 4 c.kTx ∧ (idWord c).extractLsb' 16 16 = 0 := by
  have above {start len : Nat} (h : 8 ≤ start) : (idWord c).extractLsb' start len =
      (0#16 ++ BitVec.ofNat 4 c.kTx ++ BitVec.ofNat 4 c.kRx).extractLsb' (start - 8) len := extractLsb'_append_eq_of_le h
  refine ⟨extractLsb'_append_eq_right, (above (by decide)).trans extractLsb'_append_eq_right, ?_, ?_⟩
  · exact (above (by decide)).trans ((extractLsb'_append_eq_of_le (by decide)).trans extractLsb'_append_eq_right)
  · exact (above (by decide)).trans ((extractLsb'_append_eq_of_le (by decide)).trans extractLsb'_append_eq_left)

/-- The layout that ENC_STAT and DEC_STAT share: a two-bit code, a flag, five bits that read 0, the code byte, and what stands above. -/
theorem statWord_fields {n : Nat} (top : BitVec n) (code : Byte) (flag : Bool) (st : BitVec 2) :
    let v := top ++ code ++ 0#5 ++ ofBool flag ++ st
    v.extractLsb' 0 2 = st ∧ v.getLsbD 2 = flag ∧ v.extractLsb' 3 5 = 0 ∧ v.extractLsb' 8 8 = code ∧
    ∀ start len, 16 ≤ start → v.extractLsb' start len = top.extractLsb' (start - 16) len := by
  have above {start len : Nat} (h : 3 ≤ start) : (top ++ code ++ 0#5 ++ ofBool flag ++ st).extractLsb' start len =
      (top ++ code ++ 0#5).extractLsb' (start - 3) len :=
    (extractLsb'_append_eq_of_le (by omega)).trans (extractLsb'_append_eq_of_le (by omega))
  refine ⟨extractLsb'_append_eq_right, ?_, ?_, ?_, fun start len h => ?_⟩
  · simp [getElem_append]
  · exact (above (by decide)).trans extractLsb'_append_eq_right
  · exact (above (by decide)).trans ((extractLsb'_append_eq_of_le (by decide)).trans extractLsb'_append_eq_right)
  · rw [above (by omega), extractLsb'_append_eq_of_le (by omega), extractLsb'_append_eq_of_le (by omega), Nat.sub_sub, Nat.sub_sub]

theorem encStatWord_fields (e : Enc) :
    (encStatWord e).extractLsb' 0 2 = encPhaseBits e.phase ∧ (encStatWord e).getLsbD 2 = e.ovf ∧
    (encStatWord e).extractLsb' 3 5 = 0 ∧ (encStatWord e).extractLsb' 8 8 = e.code ∧
    (encStatWord e).extractLsb' 16 16 = 0 := by
  obtain ⟨hphase, hovf, hzero, hcode, htop⟩ := statWord_fields 0#16 e.code e.ovf (encPhaseBits e.phase)
  exact ⟨hphase, hovf, hzero, hcode, htop 16 16 (by decide)⟩

theorem decStatWord_fields (d : Dec) :
    (decStatWord d).extractLsb' 0 2 = decStatusBits d.st ∧ (decStatWord d).getLsbD 2 = d.have_ ∧
    (decStatWord d).extractLsb' 3 5 = 0 ∧ (decStatWord d).extractLsb' 8 8 = d.code ∧
    (decStatWord d).extractLsb' 16 8 = d.rem ∧ (decStatWord d).extractLsb' 24 8 = 0 := by
  obtain ⟨hst, hhave, hzero, hcode, htop⟩ := statWord_fields (0#8 ++ d.rem) d.code d.have_ (decStatusBits d.st)
  exact ⟨hst, hhave, hzero, hcode, (htop 16 8 (by decide)).trans extractLsb'_append_eq_right,
    (htop 24 8 (by decide)).trans extractLsb'_append_eq_left⟩

/-! ### The register map (R27, R116) -/

/-- The numbers without a register. -/
theorem csrValue_eq_none_iff (n : Byte) (s : State) : csrValue n s = none ↔ 0x12#8 < n := by
  rw [BitVec.lt_def]
  unfold csrValue
  split
  case h_20 => simp only [imp_false, true_iff, BitVec.toNat_ofNat] at *; omega
  all_goals simp [*]

/-- A number names one register. -/
theorem eq_of_csrValue {n k : Byte} {s : State} {v w : Word} (hv : csrValue n s = some v) (hw : csrValue k s = some w)
    (h : n = k) : v = w := by
  subst h
  exact Option.some.inj (hv.symm.trans hw)

/-! ### The commands (R115 to R117) -/

theorem exec_nop (s : State) : exec .nop s = .next { s with res := 0, ok := true, rspValid := true } := rfl

theorem exec_csrRd_of_value {n : Byte} {s : State} {v : Word} (h : csrValue n s = some v) :
    exec (.csrRd n) s = .next { s with res := v, ok := true, rspValid := true } := by
  simp only [exec, execCsrRd, h, State.respond]

theorem exec_csrRd_of_reserved {n : Byte} {s : State} (h : csrValue n s = none) :
    exec (.csrRd n) s = .next { s with ill := true, res := 0, ok := false, rspValid := true } := by
  simp only [exec, execCsrRd, h, illegalOutcome, State.respond]

/-- Settles O58: the reserved opcodes decode to the illegal command (R58), and neither command's arm reads ARG (R115, R117). -/
theorem nopAndIllegalCommands : Obligations.NopAndIllegalCommands :=
  ⟨fun arg => ⟨rfl, fun op => (decodeCommand_eq_illegal_iff op arg).2⟩, fun s op => ⟨exec_nop s, exec_illegal op s⟩⟩

/-- Settles O59: the numbers that are not reserved have a register, which the number determines (R27, R116). -/
theorem csrRdAnswersTheRegisterMap : Obligations.CsrRdAnswersTheRegisterMap := by
  refine ⟨fun arg => congrArg Instr.csrRd (operandCsr_eq arg), fun s => ⟨fun n hn => ?_, fun n hn => ?_⟩⟩
  · exact exec_csrRd_of_reserved ((csrValue_eq_none_iff n s).2 hn)
  · have hsome : csrValue n s ≠ none := fun h => BitVec.not_lt.2 hn ((csrValue_eq_none_iff n s).1 h)
    obtain ⟨v, hv⟩ := Option.ne_none_iff_exists'.1 hsome
    refine ⟨v, exec_csrRd_of_value hv, eq_of_csrValue hv (congrArg some (statusWord_eq s.ill)), fun hid => ?_,
      eq_of_csrValue hv rfl, eq_of_csrValue hv rfl, eq_of_csrValue hv rfl, eq_of_csrValue hv rfl,
      eq_of_csrValue hv rfl, eq_of_csrValue hv rfl, fun henc => ?_,
      eq_of_csrValue hv rfl, eq_of_csrValue hv rfl, fun hdec => ?_,
      eq_of_csrValue hv rfl, eq_of_csrValue hv rfl, fun hsens => ?_,
      eq_of_csrValue hv rfl, eq_of_csrValue hv rfl, eq_of_csrValue hv rfl, eq_of_csrValue hv rfl⟩
    · rw [eq_of_csrValue (w := idWord s.cfg) hv rfl hid]
      exact idWord_fields s.cfg
    · rw [eq_of_csrValue (w := encStatWord s.enc) hv rfl henc]
      exact encStatWord_fields s.enc
    · rw [eq_of_csrValue (w := decStatWord s.dec) hv rfl hdec]
      exact decStatWord_fields s.dec
    · rw [eq_of_csrValue (w := sensIdleWord s.sens.state) hv rfl hsens]
      cases s.sens.state <;> rfl

end Sys2Proof.Machine

/-! The statement of 60_exceptions.md: no step of a Good state faults or is refused (R118). A fault is an access outside a byte space or
a read of a byte that nothing has written (R30, R31, log 4). The invariant puts the encoder's code slot inside ENCBUF, and says that
every byte a consumer sees (R40, R41) and every byte below a length register is written; each operation looks at no other byte. Since
every micro-step keeps the invariant, the argument holds again at the next one. -/

namespace Sys2Proof.Machine

/-! ### Encoder -/

section Encoder

variable {size : Nat} {e : Enc}

theorem Enc.put_goes_on (h : e.good size) (b : Byte) : ∃ e', e.put size b = .ok e' := by
  rcases Bool.eq_false_or_eq_true e.accepts with haccepts | hignored
  · obtain ⟨-, hcp⟩ := Enc.cp_of_accepts h haccepts
    by_cases hb : b = 0
    · subst hb
      exact ⟨_, (Enc.put_zero haccepts).trans (Enc.nextBlock_eq hcp _)⟩
    · by_cases hfull : size ≤ e.len.toNat
      · exact ⟨_, Enc.put_data_lost haccepts hb hfull⟩
      · have hroom : e.len.toNat < size := Nat.lt_of_not_le hfull
        by_cases hfills : e.code = 0xFE#8
        · exact ⟨_, (Enc.put_data_fills haccepts hb hroom hfills).trans (Enc.nextBlock_eq (e := e.store b) hcp _)⟩
        · exact ⟨_, Enc.put_data_inside haccepts hb hroom hfills⟩
  · exact ⟨_, Enc.put_ignored hignored b⟩

theorem Enc.putAll_goes_on (hsize : size ≤ 65535) (h : e.good size) (bs : List Byte) : ∃ e', Enc.putAll size e bs = .ok e' := by
  induction bs generalizing e with
  | nil => exact ⟨e, rfl⟩
  | cons b bs ih =>
    obtain ⟨e₁, hput⟩ := Enc.put_goes_on h b
    obtain ⟨e', hrest⟩ := ih (Enc.put_good hsize h hput)
    exact ⟨e', by rw [Enc.putAll, hput]; exact hrest⟩

theorem Enc.close_goes_on (h : e.good size) : ∃ e', e.close size = .ok e' := by
  by_cases hphase : e.phase = .opened
  · rcases Bool.eq_false_or_eq_true e.ovf with hovf | hovf
    · exact ⟨_, Enc.close_overflowed hphase hovf⟩
    · have haccepts := Enc.accepts_iff.2 ⟨hphase, hovf⟩
      obtain ⟨-, hcp⟩ := Enc.cp_of_accepts h haccepts
      exact ⟨_, Enc.close_eq haccepts hcp⟩
  · exact ⟨_, if_neg hphase⟩

/-- A frame is built to its end whether or not ENCBUF has room for it: where it has none, ENC_OVF is set (R89). -/
theorem buildFrame_goes_on (hmin : 2 ≤ size) (hsize : size ≤ 65535) (h : e.good size) (t : Byte) (payload : List Byte) :
    ∃ e', buildFrame size t payload e = .ok e' := by
  have hstart := Enc.start_eq e hmin
  have hbegun := Enc.start_good h hstart
  obtain ⟨e₂, hput⟩ := Enc.putAll_goes_on hsize hbegun (packet t payload)
  obtain ⟨e₃, hclose⟩ := Enc.close_goes_on (Enc.putAll_good hsize _ hbegun hput)
  refine ⟨e₃, ?_⟩
  simp only [buildFrame, hstart, hput, bind, Except.bind]
  exact hclose

end Encoder

/-! ### Reads -/

/-- A byte below the length is written. -/
theorem Memory.good.exists_read {m : Memory} {size len i : Nat} (h : m.good size len) (hi : i < len) : ∃ b, m.read i = some b := by
  obtain ⟨-, -, hwritten⟩ := h
  exact Option.isSome_iff_exists.1 (hwritten i hi)

/-- Every byte that a consumer sees is written. -/
theorem Ring.peek_goes_on_of_lt {n i : Nat} {q : Ring} (h : q.good n) (hi : i < q.avail n) (sp : Space) :
    ∃ x, q.peek sp n i = .ok x := by
  obtain ⟨-, hw, -, -, -, -, -, havail, -, hheld⟩ := h
  obtain ⟨x, hx⟩ := Option.isSome_iff_exists.1 (hheld i (by omega))
  exact ⟨x, Ring.peek_eq_ok (by omega) sp hx⟩

/-! ### Micro-steps -/

theorem sendFrame_goes_on {s : State} (hcfg : s.cfg.valid = true) (henc : s.enc.good s.cfg.txbufSize) (after : After) (t : Byte)
    (m : Nat) (payload : List Byte) : ∃ u, sendFrame after t m (.ok payload) s = .ok u := by
  by_cases hover : s.cfg.txbufSize < frameMax (packetLength m)
  · exact ⟨_, sendFrame_rejected hover after t _⟩
  · have hmin := txbufSize_of_valid hcfg
    obtain ⟨e, hbuild⟩ := buildFrame_goes_on (by omega) (sizes_le_of_valid hcfg).1 henc t payload
    exact ⟨_, sendFrame_framed (Nat.le_of_not_lt hover) hbuild after⟩

/-- TX_COMMIT's loop reads only bytes of the closed frame. -/
theorem commitStep_goes_on {s : State} (hg : s.Good) {after : After} {j len : Nat} (hs : s.seq = .commit after j len) :
    ∃ t, commitStep after j len s = .ok t := by
  have hseq := hg.seq
  simp only [seqGood, hs, Bool.and_eq_true, decide_eq_true_eq] at hseq
  obtain ⟨⟨⟨⟨-, hlen⟩, -⟩, -⟩, -⟩ := hseq
  obtain ⟨hbuf, hsize, -⟩ := hg.enc
  by_cases hj : j < len
  · obtain ⟨b, hb⟩ := hbuf.exists_read (hlen ▸ hj)
    have hread : readByte .encbuf s.cfg.txbufSize s.enc.buf j = .ok b := readByte_ok.2 ⟨by omega, hb⟩
    refine ⟨{ s with tx := s.tx.push s.cfg.nTx b }.goto (.commit after (j + 1) len), ?_⟩
    simp only [commitStep, if_pos hj, hread]
    rfl
  · exact ⟨_, if_neg hj⟩

/-- Of a transaction's ends, only a good humidity reading works on a byte space: it builds the frame of its measurement. -/
theorem xferDone_goes_on {s : State} (hcfg : s.cfg.valid = true) (henc : s.enc.good s.cfg.txbufSize) (x : Xfer) (ok : Bool) :
    ∃ t, xferDone x ok s = .ok t := by
  unfold xferDone
  cases x.kind with
  | trigT | trigRh => cases ok <;> exact ⟨_, rfl⟩
  | readT =>
    cases ok with
    | false => exact ⟨_, rfl⟩
    | true =>
      by_cases hcrc : crcResidue x.got = 0
      · exact ⟨_, if_pos hcrc⟩
      · exact ⟨_, if_neg hcrc⟩
  | readRh =>
    cases ok with
    | false => exact ⟨_, rfl⟩
    | true =>
      by_cases hcrc : crcResidue x.got = 0
      · simp only [hcrc, if_true]
        exact sendFrame_goes_on (s := s.humidity (rawCode x.got)) hcfg henc _ _ _ _
      · exact ⟨_, if_neg hcrc⟩

theorem State.Good.microStep_goes_on {s : State} (hg : s.Good) : ∃ t, microStep s = .ok t := by
  unfold microStep
  cases hs : s.seq with
  | idle | halted | room | sample | xferStart | request | wait => exact ⟨_, rfl⟩
  | commit after j len => exact commitStep_goes_on hg hs
  | drain acc k => exact drainStep_goes_on hg.rx acc k
  | check acc => exact checkStep_goes_on hg.dec acc
  | postStop x ok => exact xferDone_goes_on (s := { s with bus := { s.bus with stop := true } }) hg.cfg hg.enc x ok

/-! ### Turns of CMD -/

/-- CMD's loop comes through its micro-steps, whatever the schedule: each starts in a Good state again. -/
theorem State.Good.runMicro_goes_on (fuel : Nat) {s : State} (hg : s.Good) : ∃ t, runMicro fuel s = .next t := by
  induction fuel generalizing s with
  | zero => exact ⟨s, rfl⟩
  | succ n ih =>
    by_cases hr : s.seq.running = true
    · rcases hsched : s.sched with _ | ⟨a, rest⟩
      · by_cases hb : s.blocked = true
        · exact ⟨s, runMicro_blocked hsched hb _⟩
        · obtain ⟨v, hv⟩ := hg.microStep_goes_on
          rw [runMicro_step hr hsched (Bool.not_eq_true _ ▸ hb) hv]
          exact ih (microStep_good hg hv)
      · by_cases ha : a = .cmd
        · subst ha
          have hrest := hg.sched rest
          obtain ⟨v, hv⟩ := hrest.microStep_goes_on
          rw [runMicro_cmd hr hsched hv]
          exact ih (microStep_good hrest hv)
        · exact ⟨s, runMicro_yield hsched ha _⟩
    · exact ⟨s, runMicro_idle (Bool.not_eq_true _ ▸ hr) _⟩

theorem State.Good.resume_goes_on {s : State} (hg : s.Good) : ∃ t, resume s = .next t := hg.runMicro_goes_on _

theorem launch_goes_on {p : Seq} {s : State} (hg : (s.goto p).Good) : ∃ t, launch p s = .next t := by
  obtain ⟨u, hu⟩ := hg.microStep_goes_on
  rw [launch_of_microStep hu]
  exact (microStep_good hg hu).resume_goes_on

/-! ### Instructions -/

/-- An operation that stores when it may, and is turned down otherwise, reads no byte. -/
theorem ite_next_goes_on (c : Prop) [Decidable c] (u v : State) :
    ∃ t, (if c then .next u else .next v : Host.Outcome State Fault Refusal) = .next t := by
  split
  · exact ⟨u, rfl⟩
  · exact ⟨v, rfl⟩

theorem exec_csrRd_goes_on (n : Byte) (s : State) : ∃ t, exec (.csrRd n) s = .next t := by
  cases h : csrValue n s with
  | some v => exact ⟨_, exec_csrRd_of_value h⟩
  | none => exact ⟨_, exec_csrRd_of_reserved h⟩

theorem exec_rxPeek_goes_on {s : State} (hrx : s.rx.good s.cfg.nRx) (i : Half) : ∃ t, exec (.rxPeek i) s = .next t := by
  by_cases hi : i.toNat < s.rx.avail s.cfg.nRx
  · obtain ⟨b, hb⟩ := Ring.peek_goes_on_of_lt hrx hi .rxMem
    exact ⟨_, exec_rxPeek_of_lt hi hb⟩
  · exact ⟨_, exec_rxPeek_of_le (Nat.le_of_not_lt hi)⟩

theorem exec_rxPop_goes_on {s : State} (hrx : s.rx.good s.cfg.nRx) : ∃ t, exec .rxPop s = .next t := by
  by_cases hempty : s.rx.avail s.cfg.nRx = 0
  · exact ⟨_, exec_rxPop_of_empty hempty⟩
  · obtain ⟨b, hb⟩ := Ring.peek_goes_on hrx hempty .rxMem
    exact ⟨_, exec_rxPop_of_pos (Nat.pos_of_ne_zero hempty) hb⟩

theorem exec_ltxPop_goes_on {s : State} (htx : s.tx.good s.cfg.nTx) : ∃ t, exec .ltxPop s = .next t := by
  by_cases hempty : s.tx.avail s.cfg.nTx = 0
  · exact ⟨_, exec_ltxPop_of_empty hempty⟩
  · obtain ⟨b, hb⟩ := Ring.peek_goes_on htx hempty .txMem
    exact ⟨_, exec_ltxPop_of_pos (Nat.pos_of_ne_zero hempty) hb⟩

theorem exec_lrxPush_goes_on (b : Byte) (s : State) : ∃ t, exec (.lrxPush b) s = .next t := ite_next_goes_on _ _ _

theorem exec_encPut_goes_on {s : State} (henc : s.enc.good s.cfg.txbufSize) (b : Byte) : ∃ t, exec (.encPut b) s = .next t := by
  obtain ⟨e, hput⟩ := Enc.put_goes_on henc b
  obtain ⟨res, ok, hexec⟩ := exec_encPut hput
  exact ⟨_, hexec⟩

theorem exec_encEnd_goes_on {s : State} (henc : s.enc.good s.cfg.txbufSize) : ∃ t, exec .encEnd s = .next t := by
  by_cases hphase : s.enc.phase = .opened
  · obtain ⟨e, hclose⟩ := Enc.close_goes_on henc
    exact ⟨_, exec_encEnd_opened hphase hclose rfl⟩
  · exact ⟨_, exec_encEnd_ignored hphase⟩

theorem exec_encRd_goes_on {s : State} (henc : s.enc.good s.cfg.txbufSize) (i : Half) : ∃ t, exec (.encRd i) s = .next t := by
  by_cases hi : i < s.enc.len
  · obtain ⟨hbuf, hsize, -⟩ := henc
    have hbelow : i.toNat < s.enc.len.toNat := hi
    obtain ⟨b, hb⟩ := hbuf.exists_read hbelow
    exact ⟨_, exec_encRd_of_lt hi (hbelow.trans_le hsize) hb⟩
  · exact ⟨_, exec_encRd_of_not_lt hi⟩

theorem exec_decRd_goes_on {s : State} (hdec : s.dec.good s.cfg.rxbufSize) (i : Half) : ∃ t, exec (.decRd i) s = .next t := by
  by_cases hi : i < s.dec.len
  · obtain ⟨hbuf, hsize, -⟩ := hdec
    have hbelow : i.toNat < s.dec.len.toNat := hi
    obtain ⟨b, hb⟩ := hbuf.exists_read hbelow
    exact ⟨_, exec_decRd_of_lt hi (hbelow.trans_le hsize) hb⟩
  · exact ⟨_, exec_decRd_of_not_lt hi⟩

theorem exec_decPut_goes_on (x : Byte) (s : State) : ∃ t, exec (.decPut x) s = .next t := by
  obtain ⟨res, ok, hexec⟩ := exec_decPut s x
  exact ⟨_, hexec⟩

/-- PROTO_SEND reads the payload below PAY_LEN, and its TX_COMMIT starts in a Good state. -/
theorem exec_protoSend_goes_on {s : State} (hs : s.Quiet) (t : Byte) : ∃ u, exec (.protoSend t) s = .next u := by
  obtain ⟨⟨-, -, hwritten⟩, hlen⟩ := hs.pay
  obtain ⟨payload, hread⟩ := readBytes_goes_on .paybuf (size := s.cfg.payMax) (m := s.pay.buf) s.pay.len.toNat 0 fun k hk => by
    rw [Nat.zero_add]
    exact ⟨by omega, hwritten k hk⟩
  obtain ⟨u, hsend⟩ := sendFrame_goes_on hs.cfg hs.enc (.protoSend t) t s.pay.len.toNat payload
  simp only [exec, execProtoSend, hread, hsend]
  exact launch_goes_on (sendFrame_good hs hsend :)

/-- Every instruction, from a quiet state, has a next state. -/
theorem exec_goes_on {s : State} (hs : s.Quiet) (i : Instr) : ∃ t, exec i s = .next t := by
  cases i with
  | nop | rxAvail | txFree | crc32Seed | crc32Put | crc32Rd | crc8Init | crc8Put | crc8Rd | decBegin | payClr | illegal =>
    exact ⟨_, rfl⟩
  | csrRd n => exact exec_csrRd_goes_on n s
  | rxPeek k => exact exec_rxPeek_goes_on hs.rx k
  | rxPop => exact exec_rxPop_goes_on hs.rx
  | txPush | payPut => exact ite_next_goes_on _ _ _
  | encBegin =>
    have hmin := txbufSize_of_valid hs.cfg
    exact ⟨_, exec_encBegin (by omega)⟩
  | encPut b => exact exec_encPut_goes_on hs.enc b
  | encEnd => exact exec_encEnd_goes_on hs.enc
  | encRd k => exact exec_encRd_goes_on hs.enc k
  | decPut x => exact exec_decPut_goes_on x s
  | decRd k => exact exec_decRd_goes_on hs.dec k
  | protoSend t => exact exec_protoSend_goes_on hs t
  | txCommit => exact launch_goes_on (p := .room .txCommit) (hs.goto_good rfl)
  | protoPoll => exact launch_goes_on (p := .drain 0 0) (hs.goto_good rfl)
  | sensStep => exact launch_goes_on (p := .sample) (hs.goto_good rfl)
  | lrxPush b => exact exec_lrxPush_goes_on b s
  | ltxPop => exact exec_ltxPop_goes_on hs.tx

/-! ### Steps -/

/-- CMD that accepts a command has no other in progress, so the command runs from a quiet state. -/
theorem acceptTurn_goes_on {s : State} (hg : s.Good) : ∃ t, acceptTurn s = .next t := by
  rcases hcmds : s.cmds with _ | ⟨c, cs⟩
  · exact ⟨s, by simp only [acceptTurn, hcmds]⟩
  · by_cases hready : s.cmdReady = true
    · have haccepted : { s with cmds := cs, rspValid := false }.Quiet := { hg.quiet_of_ready hready with }
      rw [acceptTurn_command hcmds hready rfl]
      exact exec_goes_on haccepted _
    · exact ⟨s, by simp only [acceptTurn, hcmds, if_neg hready]⟩

/-- Every agent's turn has a next state. -/
theorem State.Good.agentTurn_goes_on {s : State} (hg : s.Good) : ∃ t, agentTurn s = .next t := by
  have cmd_goes_on {u : State} (hu : u.Good) : ∃ t, (if s.seq.running then resume s else acceptTurn u) = .next t := by
    split
    · exact hg.resume_goes_on
    · exact acceptTurn_goes_on hu
  unfold agentTurn
  rcases s.sched with _ | ⟨a, rest⟩
  · exact cmd_goes_on hg
  · cases a with
    | cmd => exact cmd_goes_on (hg.sched rest)
    | lrx b => exact exec_lrxPush_goes_on b _
    | ltx => exact exec_ltxPop_goes_on (s := { s with sched := rest }) hg.tx
    | sync | busAnswer | busTakeStop | clk | rst => exact ⟨_, rfl⟩

/-- Settles O6: a Good state's configuration is valid, so a step is an agent's turn, and no agent's turn faults (R118). -/
theorem goodStepsAlwaysGoOn : Obligations.GoodStepsAlwaysGoOn := by
  intro s hg
  rw [step_of_valid hg.cfg]
  exact hg.agentTurn_goes_on

end Sys2Proof.Machine

/-! The statements of 70_reset_and_hazards.md: `rst` replaces the block's state (R131), and the state it leaves, which is also the
state the machine starts from, meets the invariant (R133). -/

namespace Sys2Proof.Machine

/-- `rst` needs no handshake: its turn goes on from every state, whatever CMD has in progress (R131). -/
theorem agentTurn_rst {s : State} {rest : List Agent} (hs : s.sched = .rst :: rest) :
    agentTurn s = .next (resetEvent { s with sched := rest }) := by
  simp only [agentTurn, hs]

/-- Right after reset there is nothing left for another reset to replace. -/
theorem resetEvent_resetIn (c : Config) : resetEvent (State.resetIn c) = State.resetIn c := rfl

/-- Settles O3: the configuration is allowed, so the step is the turn of `rst`, the reset event on what its entry leaves of the
schedule. -/
theorem resetEventReplacesTheState : Obligations.ResetEventReplacesTheState := by
  intro s rest hvalid hs
  calc step s
    _ = agentTurn s := step_of_valid hvalid
    _ = .next (resetEvent { s with sched := rest }) := agentTurn_rst hs

/-- Settles O4: the reset event leaves a Good state of every valid configuration, and keeps the state after reset as it is. -/
theorem resetStateIsGood : Obligations.ResetStateIsGood := by
  intro c hvalid
  have hgood : (resetEvent (State.resetIn c)).Good := resetEvent_good hvalid
  rwa [resetEvent_resetIn] at hgood

end Sys2Proof.Machine
